-- ==== Sys2Proof/Word.lean ====
section
/-! DEFINITION. The two word sizes of the machine: a byte of memory (`20_memory.md` R30) and a 32-bit
register or address (`10_state.md` R11, `20_memory.md` R39). Addition of two words is `wrap32` of the sum
(`00_scope.md` R6), which is what `BitVec` addition is. -/

namespace Sys2Proof

/-- One cell of memory, one byte of an instruction, one device identifier. -/
abbrev Byte := BitVec 8

/-- A register value or a computed address: 32 bits, read as signed where the spec compares it. -/
abbrev Word := BitVec 32

end Sys2Proof
end

