-- ==== Sys2Proof/Config.lean ====
section
/-! DEFINITION. What the spec fixes as parameters (`00_scope.md` R4), and what it leaves open: the OPEN
parameters are opaque constants, so that nothing can be proved of their values. -/

namespace Sys2Proof

/-- The values of the last-comparison flag (`10_state.md` R16). -/
inductive CC where
  | lt
  | eq
  | gt
  deriving DecidableEq, Repr, Inhabited

namespace Config

/-- `MEM_SIZE`: addresses 0 to 65535 (R4, `20_memory.md` R30). -/
def memSize : Nat := 65536

/-- `CC_RESET` (R4, `10_state.md` R26): OPEN, one of the three values. DESIGN CHOICE, log 4. -/
opaque ccReset : CC

/-- `FACC_WIDTH` (R4, `10_state.md` R18): OPEN. DESIGN CHOICE, log 5. -/
opaque faccWidth : Nat

/-- `DEVENV` (R4, `60_exceptions.md` R186, R187): the answer to `DevTest` of a device, in the transaction with
the given number. DESIGN CHOICE, log 6. -/
opaque devReady : Byte → Nat → Bool

/-- `DEVENV` (R186, R188): whether the read handle of a device can be opened in that transaction. Log 6. -/
opaque devCanRead : Byte → Nat → Bool

/-- `DEVENV` (R186, R189): whether the write handle of a device can be opened in that transaction. Log 6. -/
opaque devCanWrite : Byte → Nat → Bool

/-- `DEVENV` (R186, R188): the input byte sequence a read handle opened in that transaction delivers. Log 6. -/
opaque devInput : Byte → Nat → List Byte

/-- Whether opening a write handle in that transaction empties the output sequence: not stated by the spec
(R189, `91_not_in_source.md` N15). DESIGN CHOICE, log 7. -/
opaque devTruncates : Byte → Nat → Bool

end Config

end Sys2Proof
end

