-- ==== Sys2Proof/Syntax.lean ====
section
/-! DEFINITION. The instructions as syntax: the 19 mnemonics, the three formats' fields, and one constructor for
each of the 35 rows of spec/opcode_table.json. Ignored bits are kept as fields (`30_encoding.md` R64), so that an
instruction stands for exactly one encoding (log 11). -/

namespace Sys2Proof

/-- The mnemonics of the catalog (`30_encoding.md` R57), in its order. They are also the entries of LOG
(`10_state.md` R21). -/
inductive Mnemonic where
  | lda
  | sta
  | stx
  | stl
  | comp
  | jeq
  | jlt
  | j
  | jsub
  | rsub
  | ldch
  | stch
  | ldt
  | compr
  | clear
  | tixr
  | rd
  | wd
  | td
  deriving DecidableEq, Repr

/-- The fields of a format 2 instruction (`30_encoding.md` R53): the two ignored low bits of byte 0 and the two
register fields. -/
structure Format2 where
  ignored : BitVec 2
  r1 : BitVec 4
  r2 : BitVec 4
  deriving DecidableEq, Repr

/-- The fields of a format 3 instruction (`30_encoding.md` R51, R54). Flag e is 0. -/
structure Format3 where
  n : Bool
  i : Bool
  x : Bool
  b : Bool
  p : Bool
  disp : BitVec 12
  deriving DecidableEq, Repr

/-- The fields of a format 4 instruction (`30_encoding.md` R51, R55). Flag e is 1. -/
structure Format4 where
  n : Bool
  i : Bool
  x : Bool
  b : Bool
  p : Bool
  addr : BitVec 20
  deriving DecidableEq, Repr

/-- One constructor per row of the opcode table; `…Ext` is the extended (format 4) row of a mnemonic. -/
inductive Instr where
  /-- `LDA`, format 3: `43_load_store.md` R131. -/
  | lda (f : Format3)
  /-- `+LDA`, format 4: `43_load_store.md` R131. -/
  | ldaExt (f : Format4)
  /-- `STA`, format 3: `43_load_store.md` R134. -/
  | sta (f : Format3)
  /-- `+STA`, format 4: `43_load_store.md` R134. -/
  | staExt (f : Format4)
  /-- `STX`, format 3: `43_load_store.md` R136. -/
  | stx (f : Format3)
  /-- `+STX`, format 4: `43_load_store.md` R136. -/
  | stxExt (f : Format4)
  /-- `STL`, format 3: `43_load_store.md` R135. -/
  | stl (f : Format3)
  /-- `+STL`, format 4: `43_load_store.md` R135. -/
  | stlExt (f : Format4)
  /-- `COMP`, format 3: `41_compare_branch.md` R110. -/
  | comp (f : Format3)
  /-- `+COMP`, format 4: `41_compare_branch.md` R110. -/
  | compExt (f : Format4)
  /-- `JEQ`, format 3: `41_compare_branch.md` R112. -/
  | jeq (f : Format3)
  /-- `+JEQ`, format 4: `41_compare_branch.md` R112. -/
  | jeqExt (f : Format4)
  /-- `JLT`, format 3: `41_compare_branch.md` R113. -/
  | jlt (f : Format3)
  /-- `+JLT`, format 4: `41_compare_branch.md` R113. -/
  | jltExt (f : Format4)
  /-- `J`, format 3: `42_jump_subroutine.md` R120. -/
  | j (f : Format3)
  /-- `+J`, format 4: `42_jump_subroutine.md` R120. -/
  | jExt (f : Format4)
  /-- `JSUB`, format 3: `42_jump_subroutine.md` R121. -/
  | jsub (f : Format3)
  /-- `+JSUB`, format 4: `42_jump_subroutine.md` R121. -/
  | jsubExt (f : Format4)
  /-- `RSUB`, format 3: `42_jump_subroutine.md` R122. -/
  | rsub (f : Format3)
  /-- `+RSUB`, format 4: `42_jump_subroutine.md` R122. -/
  | rsubExt (f : Format4)
  /-- `LDCH`, format 3: `43_load_store.md` R133. -/
  | ldch (f : Format3)
  /-- `+LDCH`, format 4: `43_load_store.md` R133. -/
  | ldchExt (f : Format4)
  /-- `STCH`, format 3: `43_load_store.md` R137. -/
  | stch (f : Format3)
  /-- `+STCH`, format 4: `43_load_store.md` R137. -/
  | stchExt (f : Format4)
  /-- `LDT`, format 3: `43_load_store.md` R132. -/
  | ldt (f : Format3)
  /-- `+LDT`, format 4: `43_load_store.md` R132. -/
  | ldtExt (f : Format4)
  /-- `COMPR`, format 2: `41_compare_branch.md` R111. -/
  | compr (f : Format2)
  /-- `CLEAR`, format 2: `45_register.md` R161. -/
  | clear (f : Format2)
  /-- `TIXR`, format 2: `45_register.md` R160. -/
  | tixr (f : Format2)
  /-- `RD`, format 3: `44_device.md` R151. -/
  | rd (f : Format3)
  /-- `+RD`, format 4: `44_device.md` R151. -/
  | rdExt (f : Format4)
  /-- `WD`, format 3: `44_device.md` R152. -/
  | wd (f : Format3)
  /-- `+WD`, format 4: `44_device.md` R152. -/
  | wdExt (f : Format4)
  /-- `TD`, format 3: `44_device.md` R150. -/
  | td (f : Format3)
  /-- `+TD`, format 4: `44_device.md` R150. -/
  | tdExt (f : Format4)
  deriving DecidableEq, Repr

end Sys2Proof
end

