-- ==== Sys2Proof/Machine/State.lean ====
section
/-! DEFINITION. The state of the machine as plain data: every element of `10_state.md`, the device environment as far
as the core's transactions see it (`60_exceptions.md` R186), and the fields the model adds for the environment's open
answers. The fault and refusal reasons, and the state right after reset. -/

namespace Sys2Proof.Machine

/-! ### Registers -/

/-- The nine integer registers by name, in index order (`10_state.md` R10). -/
inductive Reg where
  | a
  | x
  | l
  | b
  | s
  | t
  | f
  | pc
  | sw
  deriving DecidableEq, Repr

/-- The integer register file (`10_state.md` R10, R11): 32 bits each. `pc` is index 7, `sw` index 8; L is also the
return-address slot (R24). -/
structure Regs where
  a : Word
  x : Word
  l : Word
  b : Word
  s : Word
  t : Word
  f : Word
  pc : Word
  sw : Word
  deriving DecidableEq, Repr

/-! ### Faults, refusals and the run state -/

/-- The faults of `60_exceptions.md` R170, each with the information recorded in RUN; `pc0` is the address of the
faulting instruction. A fault is taken as a next state with RUN = FAULTED (R178), so no step answers with the host's
outcome `fault` (log 1). -/
inductive Fault where
  /-- Code 1. Raised by the step's catalog lookup (R171, R63). Safe: the spec's own fault. -/
  | invalidOpcode (pc0 : Word) (b0 : Byte)
  /-- Code 2. Raised by the bounds check of every memory access (R172, R31, R32). Safe: the spec's own fault. -/
  | outOfRangeMemory (addr : Word) (len : Nat) (pc0 : Word)
  /-- Code 3. Raised by `COMPR`, `CLEAR`, `TIXR` for a register field of 9 to 15 (R173). Safe: the spec's own fault. -/
  | outOfRangeRegister (r : BitVec 4) (pc0 : Word)
  /-- Code 4. Raised by `RD` and `WD` when a handle cannot be opened (R174). Safe: the spec's own fault. -/
  | deviceError (d : Byte) (pc0 : Word)
  /-- Code 5. Raised by the immediate pattern where an address is needed (R175, R100). Safe: the spec's own fault. -/
  | undefinedAddressing (pc0 : Word)
  deriving DecidableEq, Repr

/-- Why an instruction has no meaning. No arm of `exec` uses it: every instruction of the table is modelled. -/
inductive Refusal where
  /-- Raised by an arm of `exec` whose instruction has no meaning yet. Safe: the machine stops. -/
  | notModelled (mnemonic : String)
  deriving DecidableEq, Repr

/-- RUN (`10_state.md` R20). -/
inductive RunState where
  | unloaded
  | running
  | halted
  | faulted (f : Fault)
  deriving DecidableEq, Repr

/-! ### Devices -/

/-- One device as the transactions see it (`10_state.md` R23, `60_exceptions.md` R186): the read handle with the input
byte sequence it delivers and its cursor, the write handle, and the output byte sequence. -/
structure Device where
  readOpen : Bool
  input : List Byte
  cursor : Nat
  writeOpen : Bool
  output : List Byte
  deriving DecidableEq, Repr

/-- A device nothing has used: closed, with an empty output record (log 8). -/
def Device.unused : Device :=
  { readOpen := false, input := [], cursor := 0, writeOpen := false, output := [] }

/-- What a host has fixed beforehand of one device of the environment (DEVENV, `00_scope.md` R4; log 6): the coming
`DevTest` answers, oldest first, whether each handle can be opened, the input sequence, and whether opening the write
handle empties the output sequence. -/
structure DevScript where
  id : Byte
  ready : List Bool
  canRead : Bool
  input : List Byte
  canWrite : Bool
  truncates : Bool
  deriving DecidableEq, Repr

/-- The MODEL's own fields for the open environment (log 6): the scripts, and the number of the next transaction, which
indexes the free values wherever no script answers. -/
structure DevEnv where
  scripts : List DevScript
  asked : Nat
  deriving DecidableEq, Repr

/-! ### The state -/

/-- Memory: listed bytes in canonical form; an address that is not listed reads 0 (`10_state.md` R26). -/
abbrev Memory := List Host.Cell

/-- Everything the spec gives the machine (`10_state.md`), and `env`, the model's own. -/
structure State where
  /-- The integer registers (R10 to R17, R24). -/
  regs : Regs
  /-- The floating accumulator, of unknown width, touched by no rule (R18). -/
  facc : BitVec Config.faccWidth
  /-- The last-comparison flag (R16). -/
  cc : CC
  /-- MEM (R19). -/
  mem : Memory
  /-- RUN (R20). -/
  run : RunState
  /-- LOG, oldest entry first (R21). -/
  log : List Mnemonic
  /-- LAST_TA, `none` for NONE (R22). -/
  lastTa : Option Word
  /-- LAST_DEV, `none` for NONE (R22). -/
  lastDev : Option Byte
  /-- The devices by identifier, in canonical form with default `Device.unused` (R23). -/
  devices : List (Nat × Device)
  /-- The model's own: the environment's answers (log 6). -/
  env : DevEnv
  deriving DecidableEq, Repr

/-- Every register 0 but PC (`10_state.md` R26). -/
def Regs.clean (pc : Word) : Regs :=
  { a := 0#32, x := 0#32, l := 0#32, b := 0#32, s := 0#32, t := 0#32, f := 0#32, pc := pc, sw := 0#32 }

/-- The clean state of `10_state.md` R26, for a memory, an entry address and a run state; the devices and the environment
are outside the core. -/
def State.clean (mem : Memory) (entry : Word) (run : RunState) (devices : List (Nat × Device)) (env : DevEnv) : State :=
  { regs := Regs.clean entry
    facc := BitVec.ofNatLT 0 (Nat.two_pow_pos _)
    cc := Config.ccReset
    mem := mem
    run := run
    log := []
    lastTa := none
    lastDev := none
    devices := devices
    env := env }

/-- The machine right after reset, that is after a successful `load` (`10_state.md` R26, `70_reset_and_hazards.md` R200,
R201) of an object program that places no byte and whose first section starts at 0. RUN is RUNNING, CC is the open
CC_RESET, and ENTRY is 0 (DESIGN CHOICE, logs 2 and 3). -/
def State.reset : State := State.clean [] 0#32 .running [] { scripts := [], asked := 0 }

end Sys2Proof.Machine
end

