-- ==== Sys2Proof/Machine/Flags.lean ====
section
/-! DEFINITION. Every computation of the last-comparison flag (`10_state.md` R16). -/

namespace Sys2Proof.Machine

/-- `cmp(a, b)`: the signed 32-bit comparison (`00_scope.md` section 6, used by R110, R111, R160). -/
def compareSigned (a b : Word) : CC := if a.toInt < b.toInt then .lt else if a = b then .eq else .gt

/-- The flag `TD` writes: ready is LT, not ready is EQ (`44_device.md` R150). -/
def ccOfReady (ready : Bool) : CC := if ready then .lt else .eq

end Sys2Proof.Machine
end

