-- ==== Sys2Proof/WellFormed.lean ====
section
/-! DEFINITION. Which instructions are well formed: those whose encoding alone does not already make them fault. Every
field has its exact width, so every term of `Instr` has an encoding, and the decoder answers ill-formed terms too (the
hardware decodes them and faults when it executes them). What is checked is what the spec rejects statically: a register
field that the instruction uses and that names no register (`30_encoding.md` R53, `60_exceptions.md` R173), and the
immediate pattern on an instruction that needs an address (`30_encoding.md` R65, `40_step_and_addressing.md` R100).
See log 12. -/

namespace Sys2Proof

/-- A register field names one of the nine registers (`10_state.md` R12). -/
def regFieldOk (r : BitVec 4) : Bool := decide (r.toNat ≤ 8)

/-- The flags do not select the immediate pattern n = 0, i = 1 (`40_step_and_addressing.md` R93). -/
def addressPattern (n i : Bool) : Bool := n || !i

/-- The static checks, instruction by instruction. -/
def Instr.wellFormed : Instr → Bool
  | .lda _ => true
  | .ldaExt _ => true
  | .sta f => addressPattern f.n f.i
  | .staExt f => addressPattern f.n f.i
  | .stx f => addressPattern f.n f.i
  | .stxExt f => addressPattern f.n f.i
  | .stl f => addressPattern f.n f.i
  | .stlExt f => addressPattern f.n f.i
  | .comp _ => true
  | .compExt _ => true
  | .jeq f => addressPattern f.n f.i
  | .jeqExt f => addressPattern f.n f.i
  | .jlt f => addressPattern f.n f.i
  | .jltExt f => addressPattern f.n f.i
  | .j f => addressPattern f.n f.i
  | .jExt f => addressPattern f.n f.i
  | .jsub f => addressPattern f.n f.i
  | .jsubExt f => addressPattern f.n f.i
  | .rsub _ => true
  | .rsubExt _ => true
  | .ldch _ => true
  | .ldchExt _ => true
  | .stch f => addressPattern f.n f.i
  | .stchExt f => addressPattern f.n f.i
  | .ldt _ => true
  | .ldtExt _ => true
  | .compr f => regFieldOk f.r1 && regFieldOk f.r2
  | .clear f => regFieldOk f.r1
  | .tixr f => regFieldOk f.r1
  | .rd f => addressPattern f.n f.i
  | .rdExt f => addressPattern f.n f.i
  | .wd f => addressPattern f.n f.i
  | .wdExt f => addressPattern f.n f.i
  | .td f => addressPattern f.n f.i
  | .tdExt f => addressPattern f.n f.i

end Sys2Proof
end

