-- ==== Sys2Proof/Decode.lean ====
section
/-! DEFINITION. The instruction encoding (`30_encoding.md`): the catalog, the fields of the three formats, the decoder
(total on any bytes, rejecting by name) and, after it, the encoder. Bytes stand in ascending address order; byte 0 of an
instruction is its most significant byte. -/

namespace Sys2Proof

/-! ### The catalog -/

/-- The nominal formats a catalog entry may have (`30_encoding.md` R50, R56). No entry of R57 has format 1 (R52). -/
inductive NominalFormat where
  | one
  | two
  | threeFour
  deriving DecidableEq, Repr

/-- One row of the catalog (`30_encoding.md` R57). The operand count is used by nothing the core does. -/
structure CatalogEntry where
  mnemonic : Mnemonic
  base : Byte
  format : NominalFormat
  operands : Nat
  deriving DecidableEq, Repr

/-- The catalog, a constant of the hardware (`30_encoding.md` R57, R58; opcode values PRESUMED by the spec, log 10). -/
def catalog : List CatalogEntry := [
  ⟨.lda, 0x00#8, .threeFour, 1⟩,
  ⟨.sta, 0x0C#8, .threeFour, 1⟩,
  ⟨.stx, 0x10#8, .threeFour, 1⟩,
  ⟨.stl, 0x14#8, .threeFour, 1⟩,
  ⟨.comp, 0x28#8, .threeFour, 1⟩,
  ⟨.jeq, 0x30#8, .threeFour, 1⟩,
  ⟨.jlt, 0x38#8, .threeFour, 1⟩,
  ⟨.j, 0x3C#8, .threeFour, 1⟩,
  ⟨.jsub, 0x48#8, .threeFour, 1⟩,
  ⟨.rsub, 0x4C#8, .threeFour, 0⟩,
  ⟨.ldch, 0x50#8, .threeFour, 1⟩,
  ⟨.stch, 0x54#8, .threeFour, 1⟩,
  ⟨.ldt, 0x74#8, .threeFour, 1⟩,
  ⟨.compr, 0xA0#8, .two, 2⟩,
  ⟨.clear, 0xB4#8, .two, 1⟩,
  ⟨.tixr, 0xB8#8, .two, 1⟩,
  ⟨.rd, 0xD8#8, .threeFour, 1⟩,
  ⟨.wd, 0xDC#8, .threeFour, 1⟩,
  ⟨.td, 0xE0#8, .threeFour, 1⟩]

/-- The catalog lookup on `b0 & 0xFC` (`30_encoding.md` R51, `40_step_and_addressing.md` R83). -/
def lookup (b0 : Byte) : Option CatalogEntry := catalog.find? fun e => e.base == (b0 &&& 0xFC#8)

/-- The resolved format, which is the length in bytes: the nominal format, with flag e = `b1[4]` making 3/4 a 4
(`30_encoding.md` R56, `40_step_and_addressing.md` R85). -/
def resolvedFormat (e : CatalogEntry) (b1 : Byte) : Nat :=
  match e.format with
  | .one => 1
  | .two => 2
  | .threeFour => if b1.getLsbD 4 then 4 else 3

/-! ### Fields -/

/-- The fields of format 2 (`30_encoding.md` R53, R62). -/
def format2Of (b0 b1 : Byte) : Format2 :=
  { ignored := b0.extractLsb' 0 2, r1 := b1.extractLsb' 4 4, r2 := b1.extractLsb' 0 4 }

/-- The fields of format 3, with `raw = b1[3:0] : b2` (`30_encoding.md` R51, R54, R59). -/
def format3Of (b0 b1 b2 : Byte) : Format3 :=
  { n := b0.getLsbD 1, i := b0.getLsbD 0, x := b1.getLsbD 7, b := b1.getLsbD 6, p := b1.getLsbD 5,
    disp := (b1.extractLsb' 0 4 ++ b2 : BitVec 12) }

/-- The fields of format 4, with `raw = b1[3:0] : b2 : b3` (`30_encoding.md` R51, R55, R60). -/
def format4Of (b0 b1 b2 b3 : Byte) : Format4 :=
  { n := b0.getLsbD 1, i := b0.getLsbD 0, x := b1.getLsbD 7, b := b1.getLsbD 6, p := b1.getLsbD 5,
    addr := (b1.extractLsb' 0 4 ++ b2 ++ b3 : BitVec 20) }

/-- The instruction of a mnemonic whose bytes are `b0`, `b1` and `rest` (the bytes after byte 1, as many as the resolved
format has). -/
def assemble (m : Mnemonic) (b0 b1 : Byte) (rest : List Byte) : Instr :=
  let f2 := format2Of b0 b1
  let f3 := format3Of b0 b1 (rest.getD 0 0#8)
  let f4 := format4Of b0 b1 (rest.getD 0 0#8) (rest.getD 1 0#8)
  match m with
  | .lda => if b1.getLsbD 4 then .ldaExt f4 else .lda f3
  | .sta => if b1.getLsbD 4 then .staExt f4 else .sta f3
  | .stx => if b1.getLsbD 4 then .stxExt f4 else .stx f3
  | .stl => if b1.getLsbD 4 then .stlExt f4 else .stl f3
  | .comp => if b1.getLsbD 4 then .compExt f4 else .comp f3
  | .jeq => if b1.getLsbD 4 then .jeqExt f4 else .jeq f3
  | .jlt => if b1.getLsbD 4 then .jltExt f4 else .jlt f3
  | .j => if b1.getLsbD 4 then .jExt f4 else .j f3
  | .jsub => if b1.getLsbD 4 then .jsubExt f4 else .jsub f3
  | .rsub => if b1.getLsbD 4 then .rsubExt f4 else .rsub f3
  | .ldch => if b1.getLsbD 4 then .ldchExt f4 else .ldch f3
  | .stch => if b1.getLsbD 4 then .stchExt f4 else .stch f3
  | .ldt => if b1.getLsbD 4 then .ldtExt f4 else .ldt f3
  | .compr => .compr f2
  | .clear => .clear f2
  | .tixr => .tixr f2
  | .rd => if b1.getLsbD 4 then .rdExt f4 else .rd f3
  | .wd => if b1.getLsbD 4 then .wdExt f4 else .wd f3
  | .td => if b1.getLsbD 4 then .tdExt f4 else .td f3

/-! ### The decoder -/

/-- Why bytes are no instruction. -/
inductive DecodeError where
  /-- The base opcode of byte 0 is not in the catalog (`30_encoding.md` R63): the step raises `InvalidOpcode`. -/
  | invalidOpcode (b0 : Byte)
  /-- The bytes end inside an instruction (in memory: at its end, where the fetch raises `OutOfRange`). -/
  | truncated
  deriving DecidableEq, Repr

/-- The decoder: the instruction at the head of the bytes, and the bytes after it. -/
def decode : List Byte → Except DecodeError (Instr × List Byte)
  | [] => .error .truncated
  | b0 :: t =>
    match lookup b0 with
    | none => .error (.invalidOpcode b0)
    | some e =>
      match t with
      | [] => .error .truncated
      | b1 :: t =>
        let k := resolvedFormat e b1 - 2
        if t.length < k then .error .truncated
        else .ok (assemble e.mnemonic b0 b1 (t.take k), t.drop k)

/-- The bytes of an instruction whose bits are `w`, numbered as the opcode table numbers them: the whole instruction is
read big-endian, byte 0 being the most significant of the `nbits` bits; zero bytes follow (log 9). -/
def tableBytes (nbits w : Nat) : List Byte :=
  let k := (nbits + 7) / 8
  (List.range k).map (fun j => BitVec.ofNat 8 (w / 2 ^ (8 * (k - 1 - j)))) ++ List.replicate (4 - k) 0#8

/-- The instruction the decoder reads from a word of the opcode table. -/
def decodeTableWord (nbits w : Nat) : Option Instr :=
  match decode (tableBytes nbits w) with
  | .ok (i, _) => some i
  | .error _ => none

/-! ### What an instruction is called and how long it is -/

/-- The mnemonic of an instruction, the entry it leaves in LOG (`10_state.md` R21). -/
def Instr.mnemonic : Instr → Mnemonic
  | .lda _ => .lda
  | .ldaExt _ => .lda
  | .sta _ => .sta
  | .staExt _ => .sta
  | .stx _ => .stx
  | .stxExt _ => .stx
  | .stl _ => .stl
  | .stlExt _ => .stl
  | .comp _ => .comp
  | .compExt _ => .comp
  | .jeq _ => .jeq
  | .jeqExt _ => .jeq
  | .jlt _ => .jlt
  | .jltExt _ => .jlt
  | .j _ => .j
  | .jExt _ => .j
  | .jsub _ => .jsub
  | .jsubExt _ => .jsub
  | .rsub _ => .rsub
  | .rsubExt _ => .rsub
  | .ldch _ => .ldch
  | .ldchExt _ => .ldch
  | .stch _ => .stch
  | .stchExt _ => .stch
  | .ldt _ => .ldt
  | .ldtExt _ => .ldt
  | .compr _ => .compr
  | .clear _ => .clear
  | .tixr _ => .tixr
  | .rd _ => .rd
  | .rdExt _ => .rd
  | .wd _ => .wd
  | .wdExt _ => .wd
  | .td _ => .td
  | .tdExt _ => .td

/-- The length of an instruction in bytes, its format number (`30_encoding.md` R50). -/
def Instr.length : Instr → Nat
  | .lda _ => 3
  | .ldaExt _ => 4
  | .sta _ => 3
  | .staExt _ => 4
  | .stx _ => 3
  | .stxExt _ => 4
  | .stl _ => 3
  | .stlExt _ => 4
  | .comp _ => 3
  | .compExt _ => 4
  | .jeq _ => 3
  | .jeqExt _ => 4
  | .jlt _ => 3
  | .jltExt _ => 4
  | .j _ => 3
  | .jExt _ => 4
  | .jsub _ => 3
  | .jsubExt _ => 4
  | .rsub _ => 3
  | .rsubExt _ => 4
  | .ldch _ => 3
  | .ldchExt _ => 4
  | .stch _ => 3
  | .stchExt _ => 4
  | .ldt _ => 3
  | .ldtExt _ => 4
  | .compr _ => 2
  | .clear _ => 2
  | .tixr _ => 2
  | .rd _ => 3
  | .rdExt _ => 4
  | .wd _ => 3
  | .wdExt _ => 4
  | .td _ => 3
  | .tdExt _ => 4

/-! ### The encoder -/

/-- `b0[7:2]` of a mnemonic, the binary column of `30_encoding.md` R57 (written apart from the catalog's byte values). -/
def opcodeBits : Mnemonic → BitVec 6
  | .lda => 0b000000#6
  | .sta => 0b000011#6
  | .stx => 0b000100#6
  | .stl => 0b000101#6
  | .comp => 0b001010#6
  | .jeq => 0b001100#6
  | .jlt => 0b001110#6
  | .j => 0b001111#6
  | .jsub => 0b010010#6
  | .rsub => 0b010011#6
  | .ldch => 0b010100#6
  | .stch => 0b010101#6
  | .ldt => 0b011101#6
  | .compr => 0b101000#6
  | .clear => 0b101101#6
  | .tixr => 0b101110#6
  | .rd => 0b110110#6
  | .wd => 0b110111#6
  | .td => 0b111000#6

/-- The bytes of a format 2 instruction (`30_encoding.md` R53). -/
def encode2 (m : Mnemonic) (f : Format2) : List Byte :=
  [(opcodeBits m ++ f.ignored : BitVec 8), (f.r1 ++ f.r2 : BitVec 8)]

/-- The bytes of a format 3 instruction (`30_encoding.md` R54). -/
def encode3 (m : Mnemonic) (f : Format3) : List Byte :=
  [(opcodeBits m ++ BitVec.ofBool f.n ++ BitVec.ofBool f.i : BitVec 8),
   (BitVec.ofBool f.x ++ BitVec.ofBool f.b ++ BitVec.ofBool f.p ++ 0#1 ++ f.disp.extractLsb' 8 4 : BitVec 8),
   f.disp.extractLsb' 0 8]

/-- The bytes of a format 4 instruction (`30_encoding.md` R55). -/
def encode4 (m : Mnemonic) (f : Format4) : List Byte :=
  [(opcodeBits m ++ BitVec.ofBool f.n ++ BitVec.ofBool f.i : BitVec 8),
   (BitVec.ofBool f.x ++ BitVec.ofBool f.b ++ BitVec.ofBool f.p ++ 1#1 ++ f.addr.extractLsb' 16 4 : BitVec 8),
   f.addr.extractLsb' 8 8, f.addr.extractLsb' 0 8]

/-- The bytes of an instruction, in ascending address order. -/
def encode : Instr → List Byte
  | .lda f => encode3 .lda f
  | .ldaExt f => encode4 .lda f
  | .sta f => encode3 .sta f
  | .staExt f => encode4 .sta f
  | .stx f => encode3 .stx f
  | .stxExt f => encode4 .stx f
  | .stl f => encode3 .stl f
  | .stlExt f => encode4 .stl f
  | .comp f => encode3 .comp f
  | .compExt f => encode4 .comp f
  | .jeq f => encode3 .jeq f
  | .jeqExt f => encode4 .jeq f
  | .jlt f => encode3 .jlt f
  | .jltExt f => encode4 .jlt f
  | .j f => encode3 .j f
  | .jExt f => encode4 .j f
  | .jsub f => encode3 .jsub f
  | .jsubExt f => encode4 .jsub f
  | .rsub f => encode3 .rsub f
  | .rsubExt f => encode4 .rsub f
  | .ldch f => encode3 .ldch f
  | .ldchExt f => encode4 .ldch f
  | .stch f => encode3 .stch f
  | .stchExt f => encode4 .stch f
  | .ldt f => encode3 .ldt f
  | .ldtExt f => encode4 .ldt f
  | .compr f => encode2 .compr f
  | .clear f => encode2 .clear f
  | .tixr f => encode2 .tixr f
  | .rd f => encode3 .rd f
  | .rdExt f => encode4 .rd f
  | .wd f => encode3 .wd f
  | .wdExt f => encode4 .wd f
  | .td f => encode3 .td f
  | .tdExt f => encode4 .td f

end Sys2Proof
end

