-- ==== Sys2Proof/Machine/Sparse.lean ====
section
/-! DEFINITION. Sparse data by key: a list of (key, value) pairs that stands for a total function with a default value.
The canonical form (keys strictly rising and below a bound, no entry equal to the default) makes equal functions equal
lists. Memory and the device table are both held this way. -/

namespace Sys2Proof.Machine

/-- The value at a key; the default where nothing is listed. -/
def Sparse.get {α : Type} (dflt : α) : List (Nat × α) → Nat → α
  | [], _ => dflt
  | (j, v) :: rest, k => if j = k then v else Sparse.get dflt rest k

/-- Sets the value at a key, keeping the canonical form: setting the default removes the entry. -/
def Sparse.set {α : Type} [DecidableEq α] (dflt : α) : List (Nat × α) → Nat → α → List (Nat × α)
  | [], k, v => if v = dflt then [] else [(k, v)]
  | (j, w) :: rest, k, v =>
    if k < j then (if v = dflt then (j, w) :: rest else (k, v) :: (j, w) :: rest)
    else if k = j then (if v = dflt then rest else (k, v) :: rest)
    else (j, w) :: Sparse.set dflt rest k v

/-- Applies a function to every listed value, dropping what becomes the default. -/
def Sparse.map {α : Type} [DecidableEq α] (dflt : α) (f : α → α) : List (Nat × α) → List (Nat × α)
  | [] => []
  | (j, v) :: rest => if f v = dflt then Sparse.map dflt f rest else (j, f v) :: Sparse.map dflt f rest

/-- The canonical form. -/
def Sparse.wf {α : Type} [DecidableEq α] (dflt : α) (bound : Nat) (m : List (Nat × α)) : Bool :=
  decide (m.Pairwise fun a b => a.1 < b.1) && m.all fun c => decide (c.1 < bound) && decide (c.2 ≠ dflt)

end Sys2Proof.Machine
end

