-- ==== Sys2Proof/Machine/Ops.lean ====
section
/-! DEFINITION. The named operations over registers and memory, taking a fault, retiring an instruction, and the frame
that every instruction's meaning shares (`execute`). There is no return from a fault (`60_exceptions.md` R180): the only
way on is a new load (Machine/Loader.lean). -/

namespace Sys2Proof.Machine

/-! ### Registers -/

/-- A register of the file (`00_scope.md` section 6, `x[i]`). -/
def Regs.get (g : Regs) : Reg → Word
  | .a => g.a
  | .x => g.x
  | .l => g.l
  | .b => g.b
  | .s => g.s
  | .t => g.t
  | .f => g.f
  | .pc => g.pc
  | .sw => g.sw

/-- Writes a register of the file (`00_scope.md` section 6, `x[i] <- v`). -/
def Regs.set (g : Regs) (r : Reg) (v : Word) : Regs :=
  match r with
  | .a => { g with a := v }
  | .x => { g with x := v }
  | .l => { g with l := v }
  | .b => { g with b := v }
  | .s => { g with s := v }
  | .t => { g with t := v }
  | .f => { g with f := v }
  | .pc => { g with pc := v }
  | .sw => { g with sw := v }

/-- The register with an index (`10_state.md` R10, R12). -/
def Reg.ofIndex (k : Nat) : Option Reg := [Reg.a, .x, .l, .b, .s, .t, .f, .pc, .sw][k]?

/-- Reads a register. -/
def State.reg (s : State) (r : Reg) : Word := s.regs.get r

/-- Writes a register. -/
def State.setReg (s : State) (r : Reg) (v : Word) : State := { s with regs := s.regs.set r v }

/-- Replaces the low byte of a register, keeping bits 31:8 (`43_load_store.md` R130 (d)). -/
def withLowByte (w : Word) (v : Byte) : Word := (w.extractLsb' 8 24 ++ v : BitVec 32)

/-! ### Memory -/

/-- The byte at an address (`20_memory.md` R30); 0 where nothing is listed (`10_state.md` R26). -/
def Memory.read (m : Memory) (a : Nat) : Byte := Sparse.get 0#8 m a

/-- Writes the byte at an address. -/
def Memory.write (m : Memory) (a : Nat) (v : Byte) : Memory := Sparse.set 0#8 m a v

/-- The canonical form of memory: addresses strictly rising and inside the space, no listed 0. -/
def Memory.wf (m : Memory) : Bool := Sparse.wf 0#8 Config.memSize m

/-- The `n` bytes from an address on, lowest address first. -/
def Memory.bytesAt (m : Memory) (a : Nat) : Nat → List Byte
  | 0 => []
  | n + 1 => m.read a :: Memory.bytesAt m (a + 1) n

/-- Writes bytes from an address on, lowest address first. -/
def Memory.writeBytes (m : Memory) (a : Nat) : List Byte → Memory
  | [] => m
  | v :: rest => Memory.writeBytes (m.write a v) (a + 1) rest

/-- The number that bytes spell, first byte most significant (`20_memory.md` R31, R33). -/
def beNat : List Byte → Nat
  | [] => 0
  | v :: rest => v.toNat * 256 ^ rest.length + beNat rest

/-- The low `8n` bits of a number as `n` bytes, most significant first (`20_memory.md` R32, R33). -/
def beBytes : Nat → Nat → List Byte
  | 0, _ => []
  | n + 1, v => BitVec.ofNat 8 (v / 256 ^ n) :: beBytes n v

/-- The access of `n` bytes at a signed address lies inside memory (`20_memory.md` R31, `90_conflicts.md` C10). -/
abbrev InMemory (addr : Word) (n : Nat) : Prop := 0 ≤ addr.toInt ∧ addr.toInt + n ≤ Config.memSize

/-- The bounds check shared by every access: `OutOfRange(memory)` for the whole access or its result
(`20_memory.md` R31, R32, `60_exceptions.md` R172). -/
def State.checked {α : Type} (s : State) (addr : Word) (n : Nat) (result : α) : Except Fault α :=
  if InMemory addr n then .ok result else .error (.outOfRangeMemory addr n s.regs.pc)

/-- `MemRead(addr, n)` (`20_memory.md` R31), zero-extended to 32 bits. -/
def State.memRead (s : State) (addr : Word) (n : Nat) : Except Fault Word :=
  s.checked addr n (BitVec.ofNat 32 (beNat (s.mem.bytesAt addr.toNat n)))

/-- `MemRead(addr, 1)` as a byte. -/
def State.memByte (s : State) (addr : Word) : Except Fault Byte :=
  s.checked addr 1 (s.mem.read addr.toNat)

/-- `MemRead(addr, n)` as its bytes, for the fetch. -/
def State.memBytes (s : State) (addr : Word) (n : Nat) : Except Fault (List Byte) :=
  s.checked addr n (s.mem.bytesAt addr.toNat n)

/-- `MemWrite(addr, n, v)` (`20_memory.md` R32): checked as a whole before any byte is written. -/
def State.memWrite (s : State) (addr : Word) (n : Nat) (v : Word) : Except Fault State :=
  s.checked addr n { s with mem := s.mem.writeBytes addr.toNat (beBytes n v.toNat) }

/-! ### Devices closing -/

/-- A device after `DevCloseAll()`: both handles released, the tracking state cleared; what it was sent stays
(`60_exceptions.md` R190). -/
def Device.close (d : Device) : Device :=
  { d with readOpen := false, input := [], cursor := 0, writeOpen := false }

/-- `DevCloseAll()` (`60_exceptions.md` R190). -/
def State.closeAll (s : State) : State :=
  { s with devices := Sparse.map Device.unused Device.close s.devices }

/-! ### Taking a fault, and retiring -/

/-- Fault entry (`60_exceptions.md` R178): RUN records the fault and nothing else changes. -/
def State.raise (s : State) (f : Fault) : State := { s with run := .faulted f }

/-- The numeric cause of a fault (`60_exceptions.md` R170). -/
def Fault.code : Fault → Nat
  | .invalidOpcode .. => 1
  | .outOfRangeMemory .. => 2
  | .outOfRangeRegister .. => 3
  | .deviceError .. => 4
  | .undefinedAddressing .. => 5

/-- The address of the instruction that faulted (`60_exceptions.md` R170). -/
def Fault.pc0 : Fault → Word
  | .invalidOpcode pc0 _ => pc0
  | .outOfRangeMemory _ _ pc0 => pc0
  | .outOfRangeRegister _ pc0 => pc0
  | .deviceError _ pc0 => pc0
  | .undefinedAddressing pc0 => pc0

/-- Retire (`40_step_and_addressing.md` R89): LOG gains the mnemonic and PC the handler's value; the termination sentinel
PC = 0 closes the devices and halts the core (R90). -/
def State.retire (s : State) (m : Mnemonic) (newPc : Word) : State :=
  let r := { s with log := s.log ++ [m], regs := { s.regs with pc := newPc } }
  if newPc = 0#32 then { r.closeAll with run := .halted } else r

/-- The address after an instruction of this length at PC, `next` (`40_step_and_addressing.md` R87). -/
def State.nextPc (s : State) (len : Nat) : Word := s.regs.pc + BitVec.ofNat 32 len

/-- What follows a handler (`40_step_and_addressing.md` R88, R89, R92): a fault is taken in the state before the handler,
and a result is retired. -/
def State.settle (s : State) (m : Mnemonic) (result : Except Fault (State × Word)) : State :=
  match result with
  | .error f => s.raise f
  | .ok (s', newPc) => s'.retire m newPc

/-- The dispatch and retire stages around a handler (`40_step_and_addressing.md` R88 to R90): the handler gets the
address after the instruction and returns the changed state and the next PC, or a fault. -/
def execute (m : Mnemonic) (len : Nat) (handler : Word → State → Except Fault (State × Word)) (s : State) :
    Host.Outcome State Fault Refusal :=
  .next (s.settle m (handler (s.nextPc len) s))

end Sys2Proof.Machine
end

