-- ==== Sys2Proof/Machine/Operands.lean ====
section
/-! DEFINITION. Every operand form: the register fields of format 2 and the addressing patterns of formats 3 and 4
(`40_step_and_addressing.md` section 2). -/

namespace Sys2Proof.Machine

/-! ### Register fields -/

/-- `RegIndex(r)` (`00_scope.md` section 6, `60_exceptions.md` R173): the register a field names, or
`OutOfRange(register)`. -/
def State.regIndex (s : State) (r : BitVec 4) : Except Fault Reg :=
  match Reg.ofIndex r.toNat with
  | some reg => .ok reg
  | none => .error (.outOfRangeRegister r s.regs.pc)

/-! ### The operand field of formats 3 and 4 -/

/-- The flags and the operand field as a handler receives them: `raw` is the unsigned field, `offset` is D, its reading in
a PC-relative sum (`40_step_and_addressing.md` R95). -/
structure Operand where
  n : Bool
  i : Bool
  x : Bool
  b : Bool
  p : Bool
  raw : Word
  offset : Word
  deriving DecidableEq, Repr

/-- The signed reading of a 12-bit displacement: negative strictly above 0x800 (`30_encoding.md` R59,
`90_conflicts.md` C13). -/
def disp12 (raw : BitVec 12) : Word :=
  if raw.toNat ≤ 0x800 then raw.setWidth 32 else raw.setWidth 32 - 0x1000#32

/-- The operand of a format 3 instruction (`30_encoding.md` R59). -/
def operand3 (f : Format3) : Operand :=
  { n := f.n, i := f.i, x := f.x, b := f.b, p := f.p, raw := f.disp.setWidth 32, offset := disp12 f.disp }

/-- The operand of a format 4 instruction: its field is never signed (`30_encoding.md` R60). -/
def operand4 (f : Format4) : Operand :=
  { n := f.n, i := f.i, x := f.x, b := f.b, p := f.p, raw := f.addr.setWidth 32, offset := f.addr.setWidth 32 }

/-- The immediate pattern, "i only" (`40_step_and_addressing.md` R93). -/
def Operand.isImmediate (o : Operand) : Bool := !o.n && o.i

/-- The indirect pattern, "n only" (`40_step_and_addressing.md` R93). -/
def Operand.isIndirect (o : Operand) : Bool := o.n && !o.i

/-- The base address: the raw field, or the PC-relative sum if b or p is set, and X added if x is set
(`40_step_and_addressing.md` R95, R96; register B is never read, `90_conflicts.md` C1). -/
def baseAddress (o : Operand) (next : Word) (s : State) : Word :=
  let base := if o.b || o.p then o.offset + next else o.raw
  if o.x then base + s.regs.x else base

/-- `TargetAddress()` (`40_step_and_addressing.md` R98). -/
def targetAddress (o : Operand) (next : Word) (s : State) : Except Fault Word :=
  if o.isImmediate then .error (.undefinedAddressing s.regs.pc)
  else if o.isIndirect then s.memRead (baseAddress o next s) 3
  else .ok (baseAddress o next s)

/-- `OperandValue(k)` (`40_step_and_addressing.md` R99), with the target address it resolved, if it resolved one. -/
def operandValue (k : Nat) (o : Operand) (next : Word) (s : State) : Except Fault (Word × Option Word) :=
  if o.isImmediate then .ok (o.raw, none)
  else match targetAddress o next s with
    | .error f => .error f
    | .ok ta => match s.memRead ta k with
      | .error f => .error f
      | .ok v => .ok (v, some ta)

/-- LAST_TA as an instruction leaves it: the address it resolved, if it resolved one (`40_step_and_addressing.md` R101). -/
def State.noteTarget (s : State) (ta : Option Word) : State :=
  match ta with
  | some a => { s with lastTa := some a }
  | none => s

end Sys2Proof.Machine
end

