-- ==== Sys2Proof/Machine/CompareBranch.lean ====
section
/-! DEFINITION. Comparisons and conditional branches (`41_compare_branch.md`): `COMP`, `COMPR`, `JEQ`, `JLT`. -/

namespace Sys2Proof.Machine

/-- The comparison of A with an operand word (`41_compare_branch.md` R110). -/
def compareWord (o : Operand) (next : Word) (s : State) : Except Fault (State × Word) :=
  match operandValue 3 o next s with
  | .error f => .error f
  | .ok (v, ta) => .ok ({ s with cc := compareSigned s.regs.a v }.noteTarget ta, next)

/-- The comparison of two registers, `r1` checked first (`41_compare_branch.md` R111). -/
def compareRegs (f : Format2) (next : Word) (s : State) : Except Fault (State × Word) :=
  match s.regIndex f.r1 with
  | .error e => .error e
  | .ok r1 => match s.regIndex f.r2 with
    | .error e => .error e
    | .ok r2 => .ok ({ s with cc := compareSigned (s.reg r1) (s.reg r2) }, next)

/-- A branch taken when the flag has a value; the target is resolved first (`41_compare_branch.md` R112, R113). -/
def branchIf (want : CC) (o : Operand) (next : Word) (s : State) : Except Fault (State × Word) :=
  match targetAddress o next s with
  | .error f => .error f
  | .ok ta => .ok (s.noteTarget (some ta), if s.cc = want then ta else next)

/-- `COMP` in format 3 (`41_compare_branch.md` R110): CC from A and the operand word. -/
def execComp (f : Format3) (s : State) : Host.Outcome State Fault Refusal :=
  execute .comp 3 (compareWord (operand3 f)) s

/-- `+COMP`, format 4 (R110). -/
def execCompExt (f : Format4) (s : State) : Host.Outcome State Fault Refusal :=
  execute .comp 4 (compareWord (operand4 f)) s

/-- `COMPR` (`41_compare_branch.md` R111): CC from two registers. -/
def execCompr (f : Format2) (s : State) : Host.Outcome State Fault Refusal :=
  execute .compr 2 (compareRegs f) s

/-- `JEQ` in format 3 (`41_compare_branch.md` R112): branch if CC is EQ. -/
def execJeq (f : Format3) (s : State) : Host.Outcome State Fault Refusal :=
  execute .jeq 3 (branchIf .eq (operand3 f)) s

/-- `+JEQ`, format 4 (R112). -/
def execJeqExt (f : Format4) (s : State) : Host.Outcome State Fault Refusal :=
  execute .jeq 4 (branchIf .eq (operand4 f)) s

/-- `JLT` in format 3 (`41_compare_branch.md` R113): branch if CC is LT. -/
def execJlt (f : Format3) (s : State) : Host.Outcome State Fault Refusal :=
  execute .jlt 3 (branchIf .lt (operand3 f)) s

/-- `+JLT`, format 4 (R113). -/
def execJltExt (f : Format4) (s : State) : Host.Outcome State Fault Refusal :=
  execute .jlt 4 (branchIf .lt (operand4 f)) s

end Sys2Proof.Machine
end

