-- ==== Sys2Proof/Machine/Devices.lean ====
section
/-! DEFINITION. The device port: the transactions `DevTest`, `DevRead`, `DevWrite` of `60_exceptions.md` R186 to R189
(`DevCloseAll` is in Ops.lean, where the retire stage uses it). Where no script answers for the environment, a free value
does, indexed by the transaction's number (log 6). -/

namespace Sys2Proof.Machine

/-- The device with an identifier. -/
def State.device (s : State) (d : Byte) : Device := Sparse.get Device.unused s.devices d.toNat

/-- Replaces the device with an identifier. -/
def State.setDevice (s : State) (d : Byte) (dev : Device) : State :=
  { s with devices := Sparse.set Device.unused s.devices d.toNat dev }

/-- What a host has scripted for a device (log 6). -/
def DevEnv.script (e : DevEnv) (d : Byte) : Option DevScript := e.scripts.find? fun c => c.id == d

/-- The environment after one more transaction. -/
def DevEnv.tick (e : DevEnv) : DevEnv := { e with asked := e.asked + 1 }

/-- The environment after a scripted `DevTest` answer of a device is used up. -/
def DevEnv.dropReady (e : DevEnv) (d : Byte) : DevEnv :=
  { e with scripts := e.scripts.map fun c => if c.id == d then { c with ready := c.ready.tail } else c }

/-- The environment's answer to `DevTest` of a device. -/
def DevEnv.ready (e : DevEnv) (d : Byte) : Bool :=
  match e.script d with
  | some c => c.ready.headD (Config.devReady d e.asked)
  | none => Config.devReady d e.asked

/-- Whether the environment lets the read handle of a device be opened. -/
def DevEnv.canRead (e : DevEnv) (d : Byte) : Bool :=
  match e.script d with
  | some c => c.canRead
  | none => Config.devCanRead d e.asked

/-- The input sequence a read handle opened now delivers. -/
def DevEnv.input (e : DevEnv) (d : Byte) : List Byte :=
  match e.script d with
  | some c => c.input
  | none => Config.devInput d e.asked

/-- Whether the environment lets the write handle of a device be opened. -/
def DevEnv.canWrite (e : DevEnv) (d : Byte) : Bool :=
  match e.script d with
  | some c => c.canWrite
  | none => Config.devCanWrite d e.asked

/-- Whether opening the write handle of a device empties its output sequence (log 7). -/
def DevEnv.truncates (e : DevEnv) (d : Byte) : Bool :=
  match e.script d with
  | some c => c.truncates
  | none => Config.devTruncates d e.asked

/-- `DevTest(d)` (`60_exceptions.md` R187): an answer of the environment; no device changes. -/
def State.devTest (s : State) (d : Byte) : Bool × State :=
  (s.env.ready d, { s with env := (s.env.dropReady d).tick })

/-- The device with its read handle open, at the start of its input if it was closed (`60_exceptions.md` R188);
`DeviceError` if the environment does not let it be opened. -/
def State.openForRead (s : State) (d : Byte) : Except Fault Device :=
  let dev := s.device d
  if dev.readOpen then .ok dev
  else if s.env.canRead d then .ok { dev with readOpen := true, input := s.env.input d, cursor := 0 }
  else .error (.deviceError d s.regs.pc)

/-- `DevRead(d)` (`60_exceptions.md` R188): the byte at the cursor, which advances; 0 at the end, where it stays. -/
def State.devRead (s : State) (d : Byte) : Except Fault (Byte × State) :=
  match s.openForRead d with
  | .error f => .error f
  | .ok dev =>
    match dev.input[dev.cursor]? with
    | some v => .ok (v, { s.setDevice d { dev with cursor := dev.cursor + 1 } with env := s.env.tick })
    | none => .ok (0#8, { s.setDevice d dev with env := s.env.tick })

/-- The device with its write handle open (`60_exceptions.md` R189); whether opening empties the output sequence is the
environment's answer (log 7). -/
def State.openForWrite (s : State) (d : Byte) : Except Fault Device :=
  let dev := s.device d
  if dev.writeOpen then .ok dev
  else if s.env.canWrite d then
    .ok { dev with writeOpen := true, output := if s.env.truncates d then [] else dev.output }
  else .error (.deviceError d s.regs.pc)

/-- `DevWrite(d, v)` (`60_exceptions.md` R189): the byte is appended to the output sequence. -/
def State.devWrite (s : State) (d : Byte) (v : Byte) : Except Fault State :=
  match s.openForWrite d with
  | .error f => .error f
  | .ok dev => .ok { s.setDevice d { dev with output := dev.output ++ [v] } with env := s.env.tick }

end Sys2Proof.Machine
end

