-- ==== Sys2Proof/Machine/DeviceIO.lean ====
section
/-! DEFINITION. The device instructions (`44_device.md`): `TD`, `RD`, `WD`. -/

namespace Sys2Proof.Machine

/-- The device identifier and the address it was read from: `d = MemRead(TargetAddress(), 1)` (`44_device.md` R153). -/
def deviceId (o : Operand) (next : Word) (s : State) : Except Fault (Byte × Word) :=
  match targetAddress o next s with
  | .error f => .error f
  | .ok ta => match s.memByte ta with
    | .error f => .error f
    | .ok d => .ok (d, ta)

/-- LAST_TA and LAST_DEV as a device instruction leaves them (`40_step_and_addressing.md` R101, `44_device.md` R153). -/
def State.noteDevice (s : State) (ta : Word) (d : Byte) : State := { s with lastTa := some ta, lastDev := some d }

/-- The device test (`44_device.md` R150): CC from the environment's answer. -/
def testDevice (o : Operand) (next : Word) (s : State) : Except Fault (State × Word) :=
  match deviceId o next s with
  | .error f => .error f
  | .ok (d, ta) => .ok ({ (s.devTest d).2 with cc := ccOfReady (s.devTest d).1 }.noteDevice ta d, next)

/-- The device read into the low byte of A (`44_device.md` R151). -/
def readDevice (o : Operand) (next : Word) (s : State) : Except Fault (State × Word) :=
  match deviceId o next s with
  | .error f => .error f
  | .ok (d, ta) => match s.devRead d with
    | .error f => .error f
    | .ok (v, t) => .ok ((t.setReg .a (withLowByte (s.reg .a) v)).noteDevice ta d, next)

/-- The device write of the low byte of A (`44_device.md` R152). -/
def writeDevice (o : Operand) (next : Word) (s : State) : Except Fault (State × Word) :=
  match deviceId o next s with
  | .error f => .error f
  | .ok (d, ta) => match s.devWrite d ((s.reg .a).setWidth 8) with
    | .error f => .error f
    | .ok t => .ok (t.noteDevice ta d, next)

/-- `TD` in format 3 (`44_device.md` R150): CC from the readiness of the device. -/
def execTd (f : Format3) (s : State) : Host.Outcome State Fault Refusal :=
  execute .td 3 (testDevice (operand3 f)) s

/-- `+TD`, format 4 (R150). -/
def execTdExt (f : Format4) (s : State) : Host.Outcome State Fault Refusal :=
  execute .td 4 (testDevice (operand4 f)) s

/-- `RD` in format 3 (`44_device.md` R151): one input byte into A[7:0]. -/
def execRd (f : Format3) (s : State) : Host.Outcome State Fault Refusal :=
  execute .rd 3 (readDevice (operand3 f)) s

/-- `+RD`, format 4 (R151). -/
def execRdExt (f : Format4) (s : State) : Host.Outcome State Fault Refusal :=
  execute .rd 4 (readDevice (operand4 f)) s

/-- `WD` in format 3 (`44_device.md` R152): A[7:0] to the output. -/
def execWd (f : Format3) (s : State) : Host.Outcome State Fault Refusal :=
  execute .wd 3 (writeDevice (operand3 f)) s

/-- `+WD`, format 4 (R152). -/
def execWdExt (f : Format4) (s : State) : Host.Outcome State Fault Refusal :=
  execute .wd 4 (writeDevice (operand4 f)) s

end Sys2Proof.Machine
end

