-- ==== Sys2Proof/Machine/JumpSubroutine.lean ====
section
/-! DEFINITION. Unconditional jump and subroutine linkage (`42_jump_subroutine.md`): `J`, `JSUB`, `RSUB`. -/

namespace Sys2Proof.Machine

/-- The jump to the target address, which is not range-checked (`42_jump_subroutine.md` R120). -/
def jump (o : Operand) (next : Word) (s : State) : Except Fault (State × Word) :=
  match targetAddress o next s with
  | .error f => .error f
  | .ok ta => .ok (s.noteTarget (some ta), ta)

/-- The call: the target is resolved before L receives the return address (`42_jump_subroutine.md` R121). -/
def call (o : Operand) (next : Word) (s : State) : Except Fault (State × Word) :=
  match targetAddress o next s with
  | .error f => .error f
  | .ok ta => .ok ((s.setReg .l next).noteTarget (some ta), ta)

/-- The return through L; flags and operand field are ignored (`42_jump_subroutine.md` R122). -/
def returnThroughL (_next : Word) (s : State) : Except Fault (State × Word) := .ok (s, s.reg .l)

/-- `J` in format 3 (`42_jump_subroutine.md` R120): PC from the target address. -/
def execJ (f : Format3) (s : State) : Host.Outcome State Fault Refusal :=
  execute .j 3 (jump (operand3 f)) s

/-- `+J`, format 4 (R120). -/
def execJExt (f : Format4) (s : State) : Host.Outcome State Fault Refusal :=
  execute .j 4 (jump (operand4 f)) s

/-- `JSUB` in format 3 (`42_jump_subroutine.md` R121): L gets the return address, PC the target. -/
def execJsub (f : Format3) (s : State) : Host.Outcome State Fault Refusal :=
  execute .jsub 3 (call (operand3 f)) s

/-- `+JSUB`, format 4 (R121). -/
def execJsubExt (f : Format4) (s : State) : Host.Outcome State Fault Refusal :=
  execute .jsub 4 (call (operand4 f)) s

/-- `RSUB` in format 3 (`42_jump_subroutine.md` R122): PC from L. -/
def execRsub (_f : Format3) (s : State) : Host.Outcome State Fault Refusal :=
  execute .rsub 3 returnThroughL s

/-- `+RSUB`, format 4 (R122). -/
def execRsubExt (_f : Format4) (s : State) : Host.Outcome State Fault Refusal :=
  execute .rsub 4 returnThroughL s

end Sys2Proof.Machine
end

