-- ==== Sys2Proof/Machine/LoadStore.lean ====
section
/-! DEFINITION. Loads and stores (`43_load_store.md`): `LDA`, `LDT`, `LDCH`, `STA`, `STL`, `STX`, `STCH`. None of them
touches CC. -/

namespace Sys2Proof.Machine

/-- A word load into a register (`43_load_store.md` R130 (b)): `x[r] <- OperandValue(3)`. -/
def loadWord (r : Reg) (o : Operand) (next : Word) (s : State) : Except Fault (State × Word) :=
  match operandValue 3 o next s with
  | .error f => .error f
  | .ok (v, ta) => .ok ((s.setReg r v).noteTarget ta, next)

/-- A byte load into the low byte of A (`43_load_store.md` R130 (d), R133); of an immediate the low 8 bits. -/
def loadByte (o : Operand) (next : Word) (s : State) : Except Fault (State × Word) :=
  match operandValue 1 o next s with
  | .error f => .error f
  | .ok (v, ta) => .ok ((s.setReg .a (withLowByte (s.reg .a) (v.setWidth 8))).noteTarget ta, next)

/-- A store of the low `k` bytes of a register (`43_load_store.md` R130 (c), R134, R137). -/
def storeBytes (r : Reg) (k : Nat) (o : Operand) (next : Word) (s : State) : Except Fault (State × Word) :=
  match targetAddress o next s with
  | .error f => .error f
  | .ok ta => match s.memWrite ta k (s.reg r) with
    | .error f => .error f
    | .ok t => .ok (t.noteTarget (some ta), next)

/-- `LDA` in format 3 (`43_load_store.md` R131): the operand word into A. -/
def execLda (f : Format3) (s : State) : Host.Outcome State Fault Refusal :=
  execute .lda 3 (loadWord .a (operand3 f)) s

/-- `+LDA`, format 4 (R131). -/
def execLdaExt (f : Format4) (s : State) : Host.Outcome State Fault Refusal :=
  execute .lda 4 (loadWord .a (operand4 f)) s

/-- `LDT` in format 3 (`43_load_store.md` R132): the operand word into T. -/
def execLdt (f : Format3) (s : State) : Host.Outcome State Fault Refusal :=
  execute .ldt 3 (loadWord .t (operand3 f)) s

/-- `+LDT`, format 4 (R132). -/
def execLdtExt (f : Format4) (s : State) : Host.Outcome State Fault Refusal :=
  execute .ldt 4 (loadWord .t (operand4 f)) s

/-- `LDCH` in format 3 (`43_load_store.md` R133): the operand byte into A[7:0]. -/
def execLdch (f : Format3) (s : State) : Host.Outcome State Fault Refusal :=
  execute .ldch 3 (loadByte (operand3 f)) s

/-- `+LDCH`, format 4 (R133). -/
def execLdchExt (f : Format4) (s : State) : Host.Outcome State Fault Refusal :=
  execute .ldch 4 (loadByte (operand4 f)) s

/-- `STA` in format 3 (`43_load_store.md` R134): A[23:0] to memory. -/
def execSta (f : Format3) (s : State) : Host.Outcome State Fault Refusal :=
  execute .sta 3 (storeBytes .a 3 (operand3 f)) s

/-- `+STA`, format 4 (R134). -/
def execStaExt (f : Format4) (s : State) : Host.Outcome State Fault Refusal :=
  execute .sta 4 (storeBytes .a 3 (operand4 f)) s

/-- `STL` in format 3 (`43_load_store.md` R135): L[23:0] to memory. -/
def execStl (f : Format3) (s : State) : Host.Outcome State Fault Refusal :=
  execute .stl 3 (storeBytes .l 3 (operand3 f)) s

/-- `+STL`, format 4 (R135). -/
def execStlExt (f : Format4) (s : State) : Host.Outcome State Fault Refusal :=
  execute .stl 4 (storeBytes .l 3 (operand4 f)) s

/-- `STX` in format 3 (`43_load_store.md` R136): X[23:0] to memory. -/
def execStx (f : Format3) (s : State) : Host.Outcome State Fault Refusal :=
  execute .stx 3 (storeBytes .x 3 (operand3 f)) s

/-- `+STX`, format 4 (R136). -/
def execStxExt (f : Format4) (s : State) : Host.Outcome State Fault Refusal :=
  execute .stx 4 (storeBytes .x 3 (operand4 f)) s

/-- `STCH` in format 3 (`43_load_store.md` R137): A[7:0] to memory. -/
def execStch (f : Format3) (s : State) : Host.Outcome State Fault Refusal :=
  execute .stch 3 (storeBytes .a 1 (operand3 f)) s

/-- `+STCH`, format 4 (R137). -/
def execStchExt (f : Format4) (s : State) : Host.Outcome State Fault Refusal :=
  execute .stch 4 (storeBytes .a 1 (operand4 f)) s

end Sys2Proof.Machine
end

