-- ==== Sys2Proof/Machine/RegisterOps.lean ====
section
/-! DEFINITION. The register instructions (`45_register.md`): `TIXR`, `CLEAR`. -/

namespace Sys2Proof.Machine

/-- X incremented, then compared with a register read after the increment (`45_register.md` R160). -/
def incrementCompare (f : Format2) (next : Word) (s : State) : Except Fault (State × Word) :=
  match s.regIndex f.r1 with
  | .error e => .error e
  | .ok r =>
    let t := s.setReg .x (s.reg .x + 1#32)
    .ok ({ t with cc := compareSigned (t.reg .x) (t.reg r) }, next)

/-- A register set to zero (`45_register.md` R161). The retire stage writes PC over a cleared PC. -/
def clearReg (f : Format2) (next : Word) (s : State) : Except Fault (State × Word) :=
  match s.regIndex f.r1 with
  | .error e => .error e
  | .ok r => .ok (s.setReg r 0#32, next)

/-- `TIXR` (`45_register.md` R160): X + 1, and CC from it and a register. -/
def execTixr (f : Format2) (s : State) : Host.Outcome State Fault Refusal :=
  execute .tixr 2 (incrementCompare f) s

/-- `CLEAR` (`45_register.md` R161): a register becomes 0. -/
def execClear (f : Format2) (s : State) : Host.Outcome State Fault Refusal :=
  execute .clear 2 (clearReg f) s

end Sys2Proof.Machine
end

