-- ==== Sys2Proof/Machine/Dispatch.lean ====
section
/-! DEFINITION. The dispatch of `40_step_and_addressing.md` R88: one arm per constructor of `Instr`, each one call of its
meaning. RUN is tested by `step`, not here (log 13). -/

namespace Sys2Proof.Machine

def exec (i : Instr) (s : State) : Host.Outcome State Fault Refusal :=
  match i with
  | .lda f => Sys2Proof.Machine.execLda f s
  | .ldaExt f => Sys2Proof.Machine.execLdaExt f s
  | .sta f => Sys2Proof.Machine.execSta f s
  | .staExt f => Sys2Proof.Machine.execStaExt f s
  | .stx f => Sys2Proof.Machine.execStx f s
  | .stxExt f => Sys2Proof.Machine.execStxExt f s
  | .stl f => Sys2Proof.Machine.execStl f s
  | .stlExt f => Sys2Proof.Machine.execStlExt f s
  | .comp f => Sys2Proof.Machine.execComp f s
  | .compExt f => Sys2Proof.Machine.execCompExt f s
  | .jeq f => Sys2Proof.Machine.execJeq f s
  | .jeqExt f => Sys2Proof.Machine.execJeqExt f s
  | .jlt f => Sys2Proof.Machine.execJlt f s
  | .jltExt f => Sys2Proof.Machine.execJltExt f s
  | .j f => Sys2Proof.Machine.execJ f s
  | .jExt f => Sys2Proof.Machine.execJExt f s
  | .jsub f => Sys2Proof.Machine.execJsub f s
  | .jsubExt f => Sys2Proof.Machine.execJsubExt f s
  | .rsub f => Sys2Proof.Machine.execRsub f s
  | .rsubExt f => Sys2Proof.Machine.execRsubExt f s
  | .ldch f => Sys2Proof.Machine.execLdch f s
  | .ldchExt f => Sys2Proof.Machine.execLdchExt f s
  | .stch f => Sys2Proof.Machine.execStch f s
  | .stchExt f => Sys2Proof.Machine.execStchExt f s
  | .ldt f => Sys2Proof.Machine.execLdt f s
  | .ldtExt f => Sys2Proof.Machine.execLdtExt f s
  | .compr f => Sys2Proof.Machine.execCompr f s
  | .clear f => Sys2Proof.Machine.execClear f s
  | .tixr f => Sys2Proof.Machine.execTixr f s
  | .rd f => Sys2Proof.Machine.execRd f s
  | .rdExt f => Sys2Proof.Machine.execRdExt f s
  | .wd f => Sys2Proof.Machine.execWd f s
  | .wdExt f => Sys2Proof.Machine.execWdExt f s
  | .td f => Sys2Proof.Machine.execTd f s
  | .tdExt f => Sys2Proof.Machine.execTdExt f s

end Sys2Proof.Machine
end

