-- ==== Sys2Proof/Machine/Fetch.lean ====
section
/-! DEFINITION. The fetch and decode stages of the step (`40_step_and_addressing.md` R82 to R86), with their faults in
order, and the placing of an instruction where the next step fetches it. -/

namespace Sys2Proof.Machine

/-- The fetch of the bytes after byte 1 in one access (`40_step_and_addressing.md` R86): none in formats 1 and 2. -/
def fetchRest (s : State) (format : Nat) : Except Fault (List Byte) :=
  if format ≤ 2 then .ok [] else s.memBytes (s.regs.pc + 2#32) (format - 2)

/-- Fetch and decode (`40_step_and_addressing.md` R81 to R86): byte 0, the catalog lookup, byte 1, the rest. -/
def fetch (s : State) : Except Fault Instr :=
  match s.memByte s.regs.pc with
  | .error f => .error f
  | .ok b0 =>
    match lookup b0 with
    | none => .error (.invalidOpcode s.regs.pc b0)
    | some e =>
      match s.memByte (s.regs.pc + 1#32) with
      | .error f => .error f
      | .ok b1 =>
        match fetchRest s (resolvedFormat e b1) with
        | .error f => .error f
        | .ok rest => .ok (assemble e.mnemonic b0 b1 rest)

/-- The bytes of memory from PC on that one instruction can take: at most four, fewer at the end of memory, none where PC
is outside memory. -/
def State.window (s : State) : List Byte :=
  if InMemory s.regs.pc 1 then s.mem.bytesAt s.regs.pc.toNat (min 4 (Config.memSize - s.regs.pc.toNat)) else []

/-- The bytes of a table word stored at PC, in a core that is RUNNING. Where they would not fit, PC is first set to 0
(log 19). -/
def State.placeAtPc (s : State) (bytes : List Byte) : State :=
  let pc : Word := if InMemory s.regs.pc bytes.length then s.regs.pc else 0#32
  { s with regs := { s.regs with pc := pc }, run := .running, mem := s.mem.writeBytes pc.toNat bytes }

end Sys2Proof.Machine
end

