-- ==== Sys2Proof/Machine/Step.lean ====
section
/-! DEFINITION. One step (`40_step_and_addressing.md` R80, R81). -/

namespace Sys2Proof.Machine

/-- `step`: in RUNNING, fetch, decode, execute and retire one instruction, or take the fault; in any other run state nothing
changes (`40_step_and_addressing.md` R80, R81, `60_exceptions.md` R184). -/
def step (s : State) : Host.Outcome State Fault Refusal :=
  match s.run with
  | .unloaded => .next s
  | .halted => .next s
  | .faulted _ => .next s
  | .running =>
    match fetch s with
    | .error f => .next (s.raise f)
    | .ok i => exec i s

/-- The state with a table word stored where the next step fetches (log 9, log 19): it stands for the load of a program
that begins with it (log 2). -/
def State.withFetchWord (s : State) (nbits w : Nat) : State := s.placeAtPc (tableBytes nbits w)

end Sys2Proof.Machine
end

