-- ==== Sys2Proof/Machine/Loader.lean ====
section
/-! DEFINITION. The host command `load`, the core's only reset (`70_reset_and_hazards.md` R200 to R210): the records of an
object program, the symbol table, the main pass, the deferred Modify pass, and the state they leave. The loader is host
side in the spec's scope; it is modelled because it decides the state the first step sees. Lines are lists of characters. -/

namespace Sys2Proof.Machine

/-! ### Records -/

/-- The records of an object program (`70_reset_and_hazards.md` R203 to R209). -/
inductive Record where
  /-- R204. -/
  | header (name : List Char) (start length : Nat)
  /-- R205. -/
  | define (symbols : List (List Char × Nat))
  /-- R207. -/
  | text (start : Nat) (payload : List Byte)
  /-- R208: `digits` is the field length in half-bytes. -/
  | modify (addr digits : Nat) (negative : Bool) (symbol : List Char)
  /-- R209. -/
  | endRecord (first : Option Nat)
  deriving DecidableEq, Repr

/-- An upper-case hexadecimal digit (R203). -/
def hexDigit (c : Char) : Option Nat :=
  let k := c.toNat
  if 48 ≤ k ∧ k ≤ 57 then some (k - 48) else if 65 ≤ k ∧ k ≤ 70 then some (k - 55) else none

/-- The number that digits spell, most significant first, after the digits already read. -/
def hexNumber : List Char → Nat → Option Nat
  | [], acc => some acc
  | c :: rest, acc =>
    match hexDigit c with
    | some d => hexNumber rest (acc * 16 + d)
    | none => none

/-- A field of `k` characters and what follows it; none if the line is too short. -/
def takeField (k : Nat) (cs : List Char) : Option (List Char × List Char) :=
  if cs.length < k then none else some (cs.take k, cs.drop k)

/-- A field of `k` hexadecimal digits and what follows it. -/
def hexField (k : Nat) (cs : List Char) : Option (Nat × List Char) :=
  match takeField k cs with
  | none => none
  | some (digits, rest) => (hexNumber digits 0).map fun v => (v, rest)

/-- A payload of `count` bytes that ends the line (R207; log 14). -/
def parsePayload : Nat → List Char → Option (List Byte)
  | 0, [] => some []
  | 0, _ :: _ => none
  | count + 1, cs =>
    match hexField 2 cs with
    | none => none
    | some (v, rest) => (parsePayload count rest).map fun bytes => BitVec.ofNat 8 v :: bytes

/-- The 12-character groups of a Define record, at most as many as the first argument (R205). -/
def parseGroups : Nat → List Char → Option (List (List Char × Nat))
  | _, [] => some []
  | 0, _ :: _ => none
  | k + 1, cs =>
    match takeField 6 cs with
    | none => none
    | some (name, rest) =>
      match hexField 6 rest with
      | none => none
      | some (addr, rest) => (parseGroups k rest).map fun more => (name, addr) :: more

/-- The sign of a Modify record: true for minus (R208). -/
def parseSign : List Char → Option (Bool × List Char)
  | '+' :: rest => some (false, rest)
  | '-' :: rest => some (true, rest)
  | _ => none

/-- A Header record after its letter (R204). -/
def parseHeader (cs : List Char) : Option Record :=
  match takeField 6 cs with
  | none => none
  | some (name, rest) =>
    match hexField 6 rest with
    | none => none
    | some (start, rest) =>
      match hexField 6 rest with
      | some (length, []) => some (.header name start length)
      | _ => none

/-- A Text record after its letter (R207). -/
def parseText (cs : List Char) : Option Record :=
  match hexField 6 cs with
  | none => none
  | some (start, rest) =>
    match hexField 2 rest with
    | none => none
    | some (count, rest) => (parsePayload count rest).map fun bytes => .text start bytes

/-- A Modify record after its letter (R208). -/
def parseModify (cs : List Char) : Option Record :=
  match hexField 6 cs with
  | none => none
  | some (addr, rest) =>
    match hexField 2 rest with
    | none => none
    | some (digits, rest) =>
      match parseSign rest with
      | none => none
      | some (negative, rest) =>
        match takeField 6 rest with
        | some (symbol, []) => some (.modify addr digits negative symbol)
        | _ => none

/-- An End record after its letter (R209). -/
def parseEnd (cs : List Char) : Option Record :=
  match cs with
  | [] => some (.endRecord none)
  | _ :: _ =>
    match hexField 6 cs with
    | some (first, []) => some (.endRecord (some first))
    | _ => none

/-- A line of the object program (R203); none for a malformed or short one (R210; trailing characters, log 14). -/
def parseRecord : List Char → Option Record
  | 'H' :: cs => parseHeader cs
  | 'D' :: cs => (parseGroups cs.length cs).map .define
  | 'T' :: cs => parseText cs
  | 'M' :: cs => parseModify cs
  | 'E' :: cs => parseEnd cs
  | _ => none

/-! ### The symbol table -/

/-- Why a load fails (`70_reset_and_hazards.md` R206, R207, R210). Never raised by `step` (`60_exceptions.md` R176). -/
inductive LoadError where
  /-- A malformed or short record, with the offending line (R210). -/
  | parseError (line : List Char)
  /-- `define` of a name that is present (R206). -/
  | duplicateSymbol (name : List Char)
  /-- `resolve` of a name that is absent (R206). -/
  | unresolvedSymbol (name : List Char)
  /-- `redefine` of a name that is absent (R206); nothing in `load` redefines. -/
  | unknownSymbol (name : List Char)
  /-- A Text or Modify placement outside memory (R207). -/
  | outOfRange (addr len : Nat)
  /-- No Header record: there is no program (DESIGN CHOICE, log 15). -/
  | missingHeader
  deriving DecidableEq, Repr

/-- The ordered mapping from symbol names to absolute addresses (R206). -/
abbrev SymbolTable := List (List Char × Nat)

/-- The address of a name, if it is present. -/
def SymbolTable.find? (t : SymbolTable) (name : List Char) : Option Nat :=
  (List.find? (fun e => e.1 == name) t).map (·.2)

/-- `resolve(name)` (R206). -/
def SymbolTable.resolve (t : SymbolTable) (name : List Char) : Except LoadError Nat :=
  match t.find? name with
  | some a => .ok a
  | none => .error (.unresolvedSymbol name)

/-- `define(name, address)` (R206). -/
def SymbolTable.define (t : SymbolTable) (name : List Char) (addr : Nat) : Except LoadError SymbolTable :=
  match t.find? name with
  | some _ => .error (.duplicateSymbol name)
  | none => .ok (t ++ [(name, addr)])

/-- `redefine(name, address)` (R206). -/
def SymbolTable.redefine (t : SymbolTable) (name : List Char) (addr : Nat) : Except LoadError SymbolTable :=
  match t.find? name with
  | some _ => .ok (t.map fun e => if e.1 == name then (name, addr) else e)
  | none => .error (.unknownSymbol name)

/-- Defines the pairs of a Define record, each at its address plus the section offset (R205, `90_conflicts.md` C4). -/
def SymbolTable.defineAll (t : SymbolTable) (offset : Nat) : List (List Char × Nat) → Except LoadError SymbolTable
  | [] => .ok t
  | (name, addr) :: rest =>
    match t.define name (addr + offset) with
    | .error e => .error e
    | .ok t' => SymbolTable.defineAll t' offset rest

/-! ### The main pass -/

/-- A pending Modify record, its address made absolute with the section offset in force when it was read (R208). -/
structure PendingModify where
  addr : Nat
  digits : Nat
  negative : Bool
  symbol : List Char
  deriving DecidableEq, Repr

/-- What the main pass carries (R203 to R209): memory, symbols, CSLEN, the length of the section being read, name and
start of the first section, the entry of the first End record, whether an End record has been read, and the pending
Modify records in the order read. -/
structure LoadState where
  mem : Memory
  symbols : SymbolTable
  csLen : Nat
  sectionLen : Nat
  first : Option (List Char × Nat)
  entry : Option Nat
  ended : Bool
  pending : List PendingModify
  deriving DecidableEq, Repr

/-- The start of the main pass: everything clean (R200). -/
def LoadState.start : LoadState :=
  { mem := [], symbols := [], csLen := 0, sectionLen := 0, first := none, entry := none, ended := false, pending := [] }

/-- A placement of `n` bytes at an absolute address lies inside memory (R207). -/
abbrev Placeable (addr n : Nat) : Prop := addr + n ≤ Config.memSize

/-- One record of the main pass (R204, R205, R207, R208, R209). DESIGN CHOICE, log 24: the first End line of the file sets ENTRY,
whatever section it ends and also before any Header; a Header that follows another with no End between them drops the length of
the unfinished section from CSLEN. -/
def LoadState.record (l : LoadState) : Record → Except LoadError LoadState
  | .header name start length =>
    match l.symbols.define name (start + l.csLen) with
    | .error e => .error e
    | .ok symbols =>
      .ok { l with symbols := symbols, sectionLen := length, first := l.first.or (some (name, start + l.csLen)) }
  | .define symbols =>
    match l.symbols.defineAll l.csLen symbols with
    | .error e => .error e
    | .ok symbols => .ok { l with symbols := symbols }
  | .text start payload =>
    if Placeable (start + l.csLen) payload.length then
      .ok { l with mem := l.mem.writeBytes (start + l.csLen) payload }
    else .error (.outOfRange (start + l.csLen) payload.length)
  | .modify addr digits negative symbol =>
    .ok { l with pending := l.pending ++ [⟨addr + l.csLen, digits, negative, symbol⟩] }
  | .endRecord first =>
    .ok { l with
          csLen := l.csLen + l.sectionLen
          sectionLen := 0
          entry := if l.ended then l.entry else first
          ended := true }

/-- The main pass over the lines; it stops at the first failing one (R203, R210). -/
def LoadState.mainPass (l : LoadState) : List (List Char) → Except LoadError LoadState
  | [] => .ok l
  | line :: rest =>
    match parseRecord line with
    | none => .error (.parseError line)
    | some r =>
      match l.record r with
      | .error e => .error e
      | .ok l' => LoadState.mainPass l' rest

/-! ### The Modify pass -/

/-- The width in bytes of a Modify record's field, `W = ceil(length / 2)` (R208). -/
def PendingModify.width (p : PendingModify) : Nat := (p.digits + 1) / 2

/-- The relocated value, `(v ± symbol) mod 2^(8W)` (R208, `90_conflicts.md` C11). -/
def relocated (width value symbol : Nat) (negative : Bool) : Nat :=
  let v : Int := if negative then (value : Int) - symbol else (value : Int) + symbol
  (v % ((256 ^ width : Nat) : Int)).toNat

/-- One deferred relocation (R208): read, add or subtract, write back at the same width. -/
def PendingModify.apply (p : PendingModify) (symbols : SymbolTable) (m : Memory) : Except LoadError Memory :=
  if Placeable p.addr p.width then
    match symbols.resolve p.symbol with
    | .error e => .error e
    | .ok a =>
      .ok (m.writeBytes p.addr (beBytes p.width (relocated p.width (beNat (m.bytesAt p.addr p.width)) a p.negative)))
  else .error (.outOfRange p.addr p.width)

/-- The pending Modify records, in the order read (R208). -/
def modifyPass (symbols : SymbolTable) : List PendingModify → Memory → Except LoadError Memory
  | [], m => .ok m
  | p :: rest, m =>
    match p.apply symbols m with
    | .error e => .error e
    | .ok m' => modifyPass symbols rest m'

/-! ### The command -/

/-- The program metadata `load` returns (R209). -/
structure Metadata where
  name : List Char
  start : Nat
  length : Nat
  entry : Nat
  deriving DecidableEq, Repr

/-- ENTRY: the first End record's address if it carries one, otherwise the start of the first section (R202,
`90_conflicts.md` C5). -/
def LoadState.entryOf (l : LoadState) (start : Nat) : Nat := l.entry.getD start

/-- The loader: both passes, giving the metadata and the memory image (R200, R203 to R210). -/
def loadImage (lines : List (List Char)) : Except LoadError (Metadata × Memory) :=
  match LoadState.start.mainPass lines with
  | .error e => .error e
  | .ok l =>
    match modifyPass l.symbols l.pending l.mem with
    | .error e => .error e
    | .ok mem =>
      match l.first with
      | none => .error .missingHeader
      | some (name, start) => .ok ({ name := name, start := start, length := l.csLen, entry := l.entryOf start }, mem)

/-- `load(objectProgram)` (R200): the devices are closed, everything is reset, and the loader runs. A failed load leaves
the core reset and UNLOADED (R200, R210; its PC, log 16). -/
def load (lines : List (List Char)) (s : State) : Except LoadError Metadata × State :=
  match loadImage lines with
  | .error e => (.error e, State.clean [] 0#32 .unloaded s.closeAll.devices s.env.tick)
  | .ok (md, mem) =>
    (.ok md, State.clean mem (BitVec.ofNat 32 md.entry) .running s.closeAll.devices s.env.tick)

end Sys2Proof.Machine
end

