-- ==== Sys2Proof/Machine/HostCommands.lean ====
section
/-! DEFINITION. The host commands besides `load`, and the read-only snapshots (`00_scope.md` R3, `60_exceptions.md` R192). -/

namespace Sys2Proof.Machine

/-- What `step` returns: true exactly when RUN is still RUNNING (`40_step_and_addressing.md` R80). -/
def State.continues (s : State) : Bool := decide (s.run = .running)

/-- The host command `step`: the state afterwards and `continues`. -/
def stepCommand (s : State) : State × Bool :=
  match step s with
  | .next t => (t, t.continues)
  | .fault _ => (s, false)
  | .refused _ => (s, false)

/-- `runToCompletion` (`40_step_and_addressing.md` R91): `step` until it reports non-continuation. The bound on the number of
steps makes it total; none says that the bound was reached (log 17). -/
def runToCompletion : Nat → State → Option State
  | 0, _ => none
  | k + 1, s => if (stepCommand s).2 then runToCompletion k (stepCommand s).1 else some (stepCommand s).1

/-- What lies outside the core: the devices, and the model's own record of their environment (`10_state.md` R23, log 6). -/
structure Environment where
  devices : List (Nat × Device)
  env : DevEnv
  deriving DecidableEq, Repr

/-- The explicit shutdown (`70_reset_and_hazards.md` R212): the devices are closed and the engine is released. Nothing of the
core persists, so no State is left and nothing can step; what lay outside the core remains (log 25). -/
def shutdown (s : State) : Environment := { devices := s.closeAll.devices, env := s.env }

/-- The read-only snapshots of the host (`60_exceptions.md` R192); which instruction is `current` is the model's choice
(log 23). -/
structure Snapshot where
  regs : Regs
  lastTa : Option Word
  lastDev : Option Byte
  log : List Mnemonic
  current : Option Instr
  deriving DecidableEq, Repr

/-- The snapshot of a state. DESIGN CHOICE, log 23: after a step the "currently decoded" instruction is the one at the new PC,
fetched anew in every run state, and none where no instruction can be fetched; the spec does not say whether it is that one or
the one just executed. -/
def State.snapshot (s : State) : Snapshot :=
  { regs := s.regs, lastTa := s.lastTa, lastDev := s.lastDev, log := s.log, current := (fetch s).toOption }

end Sys2Proof.Machine
end

