-- ==== Sys2Proof/Safety.lean ====
section
/-! DEFINITION. The terms that claims about the machine use: the word at an address, what counts as a safe state, and the
invariants of `10_state.md` and `60_exceptions.md` that every step keeps. -/

namespace Sys2Proof.Machine

/-- The 3-byte big-endian word at an address, zero-extended (`20_memory.md` R33, `43_load_store.md` R130 (a), (b)). -/
def wordAt (m : Memory) (a : Nat) : Word :=
  (0#8 ++ m.read a ++ m.read (a + 1) ++ m.read (a + 2) : BitVec 32)

/-- A safe state: no fault has stopped the core (`60_exceptions.md` R183). -/
def State.safe (s : State) : Bool :=
  match s.run with
  | .faulted _ => false
  | .unloaded => true
  | .running => true
  | .halted => true

/-- A device none of whose handles is open. -/
def Device.closed (d : Device) : Bool := !d.readOpen && !d.writeOpen

/-- A device is consistent: a closed read handle has no input and no cursor, and the cursor of an open one is inside its
input or at its end (`60_exceptions.md` R188). -/
def Device.consistent (d : Device) : Bool :=
  decide (d.cursor ≤ d.input.length) && (d.readOpen || d.input.isEmpty)

/-- Memory is in canonical form, so that equal memories are equal data. -/
def State.memoryCanonical (s : State) : Bool := s.mem.wf

/-- The device table is in canonical form over the 256 identifiers, and every device in it is consistent. -/
def State.devicesCanonical (s : State) : Bool :=
  Sparse.wf Device.unused 256 s.devices && s.devices.all fun e => e.2.consistent

/-- RUN agrees with the rest of the state: HALTED holds PC = 0 and every device closed (`60_exceptions.md` R183); FAULTED
holds the PC of the faulting instruction (R178); a RUNNING core that has completed an instruction does not stand at 0
(`70_reset_and_hazards.md` R215). -/
def State.runConsistent (s : State) : Bool :=
  match s.run with
  | .unloaded => true
  | .running => s.log.isEmpty || decide (s.regs.pc ≠ 0#32)
  | .halted => decide (s.regs.pc = 0#32) && s.devices.all fun e => e.2.closed
  | .faulted f => decide (f.pc0 = s.regs.pc)

/-- What the registers can hold in a run from a load: B, S, F and SW are 0 (`10_state.md` R13), L is a return address in
0 to 65536 (`42_jump_subroutine.md` R122), and A and T are never negative, having received words, immediates and bytes
only (`70_reset_and_hazards.md` R218). -/
def State.registersReachable (s : State) : Bool :=
  decide (s.regs.b = 0#32) && decide (s.regs.s = 0#32) && decide (s.regs.f = 0#32) && decide (s.regs.sw = 0#32) &&
    decide (s.regs.l.toNat ≤ 65536) && decide (s.regs.a.toNat < 2 ^ 24) && decide (s.regs.t.toNat < 2 ^ 24)

end Sys2Proof.Machine
end

