-- ==== Sys2Proof/Certificates/Slice0/Obligations.lean ====
section
/-! DEFINITION. The statements for the provers. Each docstring names the rules of spec/ it formalises. Statements about the
instructions of one mnemonic speak of both its rows (`EachFormat`). A state after an instruction is written as the state
before it with its updates, retired; `RetiringHaltsExactlyAtZero` says what retiring does. -/

open Sys2Proof Sys2Proof.Machine

namespace Sys2Proof.Claims

/-- A claim about both rows of a mnemonic, with the operand and the length each row gives its handler. -/
def EachFormat (row3 : Format3 → Instr) (row4 : Format4 → Instr) (claim : Instr → Operand → Nat → Prop) : Prop :=
  (∀ f, claim (row3 f) (operand3 f) 3) ∧ ∀ f, claim (row4 f) (operand4 f) 4

/-- The base opcode `b0 & 0xFC` of an instruction's encoding. -/
def HasBaseOpcode (i : Instr) (base : Byte) : Prop := (encode i).headD 0#8 &&& 0xFC#8 = base

/-- Where the target address does not resolve, the instruction takes that fault. -/
def FaultsWithTarget (i : Instr) (o : Operand) (next : Word) (s : State) : Prop :=
  ∀ f, o.isImmediate = false → targetAddress o next s = .error f → exec i s = .next (s.raise f)

/-- A word load: what `LDA` and `LDT` share. -/
def LoadsWord (m : Mnemonic) (put : Regs → Word → Regs) (i : Instr) (o : Operand) (len : Nat) : Prop :=
  ∀ s : State,
    (o.isImmediate = true →
      exec i s = .next ({ s with regs := put s.regs o.raw }.retire m (s.nextPc len))) ∧
    (∀ ta, targetAddress o (s.nextPc len) s = .ok ta → InMemory ta 3 →
      exec i s =
        .next ({ s with regs := put s.regs (wordAt s.mem ta.toNat), lastTa := some ta }.retire m (s.nextPc len))) ∧
    (∀ ta, targetAddress o (s.nextPc len) s = .ok ta → ¬ InMemory ta 3 →
      exec i s = .next (s.raise (.outOfRangeMemory ta 3 s.regs.pc))) ∧
    FaultsWithTarget i o (s.nextPc len) s

/-- A word store: what `STA`, `STL` and `STX` share. The stored bytes are the three from the target address on. -/
def StoresWord (m : Mnemonic) (source : Regs → Word) (i : Instr) (o : Operand) (len : Nat) : Prop :=
  ∀ s : State,
    (∀ ta, targetAddress o (s.nextPc len) s = .ok ta → InMemory ta 3 →
      ∃ mem : Memory,
        exec i s = .next ({ s with mem := mem, lastTa := some ta }.retire m (s.nextPc len)) ∧
        (∀ a, a < ta.toNat ∨ ta.toNat + 3 ≤ a → mem.read a = s.mem.read a) ∧
        (s.mem.wf = true →
          mem.read ta.toNat = (source s.regs).extractLsb' 16 8 ∧
          mem.read (ta.toNat + 1) = (source s.regs).extractLsb' 8 8 ∧
          mem.read (ta.toNat + 2) = (source s.regs).extractLsb' 0 8)) ∧
    (∀ ta, targetAddress o (s.nextPc len) s = .ok ta → ¬ InMemory ta 3 →
      exec i s = .next (s.raise (.outOfRangeMemory ta 3 s.regs.pc))) ∧
    (o.isImmediate = true → exec i s = .next (s.raise (.undefinedAddressing s.regs.pc))) ∧
    FaultsWithTarget i o (s.nextPc len) s

/-- A conditional branch: what `JEQ` and `JLT` share. -/
def BranchesOn (m : Mnemonic) (want : CC) (i : Instr) (o : Operand) (len : Nat) : Prop :=
  ∀ s : State,
    (∀ ta, targetAddress o (s.nextPc len) s = .ok ta → s.cc = want →
      exec i s = .next ({ s with lastTa := some ta }.retire m ta)) ∧
    (∀ ta, targetAddress o (s.nextPc len) s = .ok ta → s.cc ≠ want →
      exec i s = .next ({ s with lastTa := some ta }.retire m (s.nextPc len))) ∧
    (o.isImmediate = true → exec i s = .next (s.raise (.undefinedAddressing s.regs.pc))) ∧
    FaultsWithTarget i o (s.nextPc len) s

/-- What every device instruction does before it reaches its device: the faults of the target and of the identifier. -/
def FaultsWithIdentifier (i : Instr) (o : Operand) (len : Nat) (s : State) : Prop :=
  (o.isImmediate = true → exec i s = .next (s.raise (.undefinedAddressing s.regs.pc))) ∧
  FaultsWithTarget i o (s.nextPc len) s ∧
  ∀ ta, targetAddress o (s.nextPc len) s = .ok ta → ¬ InMemory ta 1 →
    exec i s = .next (s.raise (.outOfRangeMemory ta 1 s.regs.pc))

/-- The fields of memory that the Text and Modify records of a program write, as (address, length), in the order read; the
first two arguments are CSLEN and the length of the section being read (`70_reset_and_hazards.md` R204, R207 to R209). -/
def placements : Nat → Nat → List Record → List (Nat × Nat)
  | _, _, [] => []
  | csLen, _, .header _ _ length :: rest => placements csLen length rest
  | csLen, sectionLen, .define _ :: rest => placements csLen sectionLen rest
  | csLen, sectionLen, .text start payload :: rest => (start + csLen, payload.length) :: placements csLen sectionLen rest
  | csLen, sectionLen, .modify addr digits _ _ :: rest =>
    (addr + csLen, (digits + 1) / 2) :: placements csLen sectionLen rest
  | csLen, sectionLen, .endRecord _ :: rest => placements (csLen + sectionLen) 0 rest

/-- The start address of the first Header record (`70_reset_and_hazards.md` R204). -/
def firstStart (records : List Record) : Option Nat :=
  records.findSome? fun r => match r with
    | .header _ start _ => some start
    | _ => none

/-- The address of the first End record, if that record carries one (`70_reset_and_hazards.md` R202; log 24). -/
def firstEndAddress (records : List Record) : Option Nat :=
  (records.findSome? fun r => match r with
    | .endRecord address => some address
    | _ => none).join

end Sys2Proof.Claims

open Sys2Proof.Claims

/-! ### Reset and the invariants -/

/-- What reset leaves, as far as the spec gives it (`10_state.md` section 11). The PC is not spoken of: ENTRY is an argument
of the load (log 3); nor is CC (log 4). -/
def Obligations.ResetHoldsTheCleanState : Prop :=
  State.reset.regs.a = 0#32 ∧ State.reset.regs.x = 0#32 ∧ State.reset.regs.l = 0#32 ∧ State.reset.regs.b = 0#32 ∧
    State.reset.regs.s = 0#32 ∧ State.reset.regs.t = 0#32 ∧ State.reset.regs.f = 0#32 ∧ State.reset.regs.sw = 0#32 ∧
    State.reset.facc.toNat = 0 ∧ (∀ a, State.reset.mem.read a = 0#8) ∧ State.reset.run = .running ∧
    State.reset.log = [] ∧ State.reset.lastTa = none ∧ State.reset.lastDev = none ∧
    ∀ d, (State.reset.device d).closed = true

/-- The invariants hold at reset. -/
def Obligations.ResetMeetsTheInvariants : Prop :=
  State.reset.memoryCanonical = true ∧ State.reset.devicesCanonical = true ∧ State.reset.runConsistent = true ∧
    State.reset.registersReachable = true

/-- Every step keeps memory in canonical form, and inside the 65536 addresses. -/
def Obligations.StepKeepsMemoryCanonical : Prop :=
  ∀ s t : State, s.memoryCanonical = true → step s = .next t → t.memoryCanonical = true

/-- Every step keeps the device table in canonical form and every device consistent. -/
def Obligations.StepKeepsDevicesCanonical : Prop :=
  ∀ s t : State, s.devicesCanonical = true → step s = .next t → t.devicesCanonical = true

/-- Every step keeps RUN in agreement with PC, LOG and the device handles (`60_exceptions.md` R178, R183). -/
def Obligations.StepKeepsRunConsistent : Prop :=
  ∀ s t : State, s.runConsistent = true → step s = .next t → t.runConsistent = true

/-- Every step keeps B, S, F and SW at 0, L in 0 to 65536, and A and T below 2^24 (`10_state.md` R13,
`42_jump_subroutine.md` R122, `70_reset_and_hazards.md` R218). -/
def Obligations.StepKeepsRegistersReachable : Prop :=
  ∀ s t : State, s.registersReachable = true → step s = .next t → t.registersReachable = true

/-! ### The step -/

/-- A RUNNING core whose bytes at PC decode to an instruction executes exactly that instruction: the step adds nothing
around `exec`, and tests no sentinel before it (`40_step_and_addressing.md` R81). -/
def Obligations.StepRunsDecodedInstruction : Prop :=
  ∀ (s : State) (i : Instr) (rest : List Byte),
    s.run = .running → decode s.window = .ok (i, rest) → step s = exec i s

/-- Every step answers with a next state: no instruction is refused, and a fault is a state (R92, R178). -/
def Obligations.EveryStepAnswersNext : Prop :=
  ∀ s : State, ∃ t, step s = .next t

/-- `60_exceptions.md` R184: outside RUNNING a step changes nothing and reports that it does not continue, and
`runToCompletion` returns at once. -/
def Obligations.StepIsIdleOutsideRunning : Prop :=
  ∀ (s : State) (k : Nat), s.run ≠ .running →
    step s = .next s ∧ stepCommand s = (s, false) ∧ runToCompletion (k + 1) s = some s

/-- `40_step_and_addressing.md` R92 and `60_exceptions.md` R178: a step of a RUNNING core either takes a fault of the
instruction at PC, changing RUN only and reporting that it does not continue, or completes the instruction it fetched: the
state is that of the instruction's `exec`, which is its handler's result `u` with the instruction's own mnemonic logged and the
handler's PC retired. -/
def Obligations.StepIsAtomic : Prop :=
  ∀ s t : State, s.run = .running → step s = .next t →
    (∃ f : Fault, f.pc0 = s.regs.pc ∧ t = { s with run := .faulted f } ∧ stepCommand s = (t, false)) ∨
      (∃ (i : Instr) (u : State) (npc : Word), fetch s = .ok i ∧ exec i s = .next t ∧
        u.log = s.log ∧ u.run = .running ∧ t = u.retire i.mnemonic npc ∧
        t.log = s.log ++ [i.mnemonic] ∧ t.regs.pc = npc ∧ t.run = if npc = 0#32 then .halted else .running)

/-- `40_step_and_addressing.md` R82, R86: the faults of the fetch. Byte 0 outside memory; byte 1 of a catalogued instruction
at the last address; the third byte of format 3; the last two bytes of format 4, checked as a pair. -/
def Obligations.FetchFaultsInOrder : Prop :=
  ∀ s : State, s.run = .running →
    (¬ InMemory s.regs.pc 1 → step s = .next (s.raise (.outOfRangeMemory s.regs.pc 1 s.regs.pc))) ∧
    (∀ e, s.regs.pc = 65535#32 → lookup (s.mem.read 65535) = some e →
      step s = .next (s.raise (.outOfRangeMemory 65536#32 1 s.regs.pc))) ∧
    (∀ e, s.regs.pc = 65534#32 → lookup (s.mem.read 65534) = some e →
      resolvedFormat e (s.mem.read 65535) = 3 →
      step s = .next (s.raise (.outOfRangeMemory 65536#32 1 s.regs.pc))) ∧
    (∀ e a, (a = 65533 ∨ a = 65534) → s.regs.pc = BitVec.ofNat 32 a → lookup (s.mem.read a) = some e →
      resolvedFormat e (s.mem.read (a + 1)) = 4 →
      step s = .next (s.raise (.outOfRangeMemory (BitVec.ofNat 32 (a + 2)) 2 s.regs.pc)))

/-- `40_step_and_addressing.md` R83, `60_exceptions.md` R171: byte 0 whose base opcode is none of the 19 raises
`InvalidOpcode` before byte 1 is looked at, and no other byte 0 does. -/
def Obligations.UncataloguedOpcodeFaults : Prop :=
  ∀ s : State, s.run = .running → InMemory s.regs.pc 1 →
    let b0 := s.mem.read s.regs.pc.toNat
    let legal := (b0 &&& 0xFC#8) ∈ [0x00#8, 0x0C#8, 0x10#8, 0x14#8, 0x28#8, 0x30#8, 0x38#8, 0x3C#8, 0x48#8, 0x4C#8, 0x50#8,
      0x54#8, 0x74#8, 0xA0#8, 0xB4#8, 0xB8#8, 0xD8#8, 0xDC#8, 0xE0#8]
    (¬ legal → step s = .next (s.raise (.invalidOpcode s.regs.pc b0))) ∧
    (legal → ∀ (t : State) (pc0 : Word) (b : Byte), step s = .next t → t.run ≠ .faulted (.invalidOpcode pc0 b))

/-- The fetch of a step reads memory at PC at that moment and nothing else: two states that agree on PC and on the four
bytes from it on fetch the same (`20_memory.md` R43). -/
def Obligations.FetchReadsMemoryAtPcOnly : Prop :=
  ∀ s t : State, s.regs.pc = t.regs.pc →
    (∀ k, k < 4 → s.mem.read (s.regs.pc.toNat + k) = t.mem.read (s.regs.pc.toNat + k)) → fetch s = fetch t

/-- `40_step_and_addressing.md` R89, R90: retiring appends the mnemonic to LOG and writes the PC; a PC of 0 also closes the
devices and halts; nothing else changes. -/
def Obligations.RetireWritesLogAndPc : Prop :=
  ∀ (s : State) (m : Mnemonic) (npc : Word),
    (npc ≠ 0#32 → s.retire m npc = { s with log := s.log ++ [m], regs := { s.regs with pc := npc } }) ∧
    (npc = 0#32 →
      s.retire m npc =
        { s with
          log := s.log ++ [m]
          regs := { s.regs with pc := 0#32 }
          devices := s.closeAll.devices
          run := .halted })

/-- `60_exceptions.md` R170, R178: fault entry records the fault in RUN, with the codes of the table, and changes nothing
else. -/
def Obligations.FaultEntryRecordsTheFault : Prop :=
  (∀ (s : State) (f : Fault), s.raise f = { s with run := .faulted f }) ∧
  ∀ (pc0 addr : Word) (b0 d : Byte) (n : Nat) (r : BitVec 4),
    (Fault.invalidOpcode pc0 b0).code = 1 ∧ (Fault.outOfRangeMemory addr n pc0).code = 2 ∧
      (Fault.outOfRangeRegister r pc0).code = 3 ∧ (Fault.deviceError d pc0).code = 4 ∧
      (Fault.undefinedAddressing pc0).code = 5 ∧
      ∀ f ∈ [Fault.invalidOpcode pc0 b0, .outOfRangeMemory addr n pc0, .outOfRangeRegister r pc0, .deviceError d pc0,
        .undefinedAddressing pc0], f.pc0 = pc0

/-- `40_step_and_addressing.md` R90: an instruction of a RUNNING core that completes is logged, and halts the core exactly
when the PC it retires is 0, which reports that it does not continue and closes every device; the sentinel is not tested
before an instruction; HALTED is final. -/
def Obligations.RetiringHaltsExactlyAtZero : Prop :=
  (∀ (i : Instr) (s t : State), s.run = .running → exec i s = .next t →
    (∃ f : Fault, t = s.raise f) ∨
      (t.log = s.log ++ [i.mnemonic] ∧
        (t.regs.pc = 0#32 → t.run = .halted ∧ t.continues = false ∧ ∀ e ∈ t.devices, e.2.closed = true) ∧
        (t.regs.pc ≠ 0#32 → t.run = .running))) ∧
  (∀ (s : State) (i : Instr), s.run = .running → s.regs.pc = 0#32 → fetch s = .ok i → step s = exec i s) ∧
  (∀ s : State, s.run = .halted → step s = .next s)

/-- `40_step_and_addressing.md` R91: `runToCompletion` returns a state exactly when steps alone reach it, the last of which
reports non-continuation and the earlier ones not. The bound on the number of steps is the model's (log 17). -/
def Obligations.RunToCompletionIteratesStep : Prop :=
  ∀ (n : Nat) (s t : State), runToCompletion n s = some t ↔
    ∃ k, k < n ∧ Host.Core.run Sys2Proof.core (k + 1) s = .next t ∧ t.continues = false ∧
      ∀ j, j < k → ∃ u : State, Host.Core.run Sys2Proof.core (j + 1) s = .next u ∧ u.continues = true

/-! ### Encoding -/

/-- Decoding an encoded instruction gives it back, whatever bytes follow: no bit of an encoding is dropped. -/
def Obligations.DecodeOfEncodeIsIdentity : Prop :=
  ∀ (i : Instr) (rest : List Byte), decode (encode i ++ rest) = .ok (i, rest)

/-- Every decoding comes from the encoding of the instruction it gives: each word has one meaning. -/
def Obligations.EncodeOfDecodeIsIdentity : Prop :=
  ∀ (bytes : List Byte) (i : Instr) (rest : List Byte), decode bytes = .ok (i, rest) → encode i ++ rest = bytes

/-- Some words of the spec's worked resolutions and test vectors decode to the instructions they are given for, with format 4
words written out from `30_encoding.md` R55. In each format they tell every one of the flags n, i, x, b, p from the others. -/
def Obligations.SampleWordsDecode : Prop :=
  decode [0x3F#8, 0x2F#8, 0xF5#8] =
      .ok (.j { n := true, i := true, x := false, b := false, p := true, disp := 0xFF5#12 }, []) ∧
    decode [0x03#8, 0x89#8, 0x00#8] =
      .ok (.lda { n := true, i := true, x := true, b := false, p := false, disp := 0x900#12 }, []) ∧
    decode [0x3F#8, 0x40#8, 0x10#8] =
      .ok (.j { n := true, i := true, x := false, b := true, p := false, disp := 0x010#12 }, []) ∧
    decode [0x02#8, 0x09#8, 0x00#8] =
      .ok (.lda { n := true, i := false, x := false, b := false, p := false, disp := 0x900#12 }, []) ∧
    decode [0x57#8, 0x90#8, 0x10#8, 0x39#8] =
      .ok (.stchExt { n := true, i := true, x := true, b := false, p := false, addr := 0x01039#20 }, []) ∧
    decode [0x57#8, 0x50#8, 0x10#8, 0x39#8] =
      .ok (.stchExt { n := true, i := true, x := false, b := true, p := false, addr := 0x01039#20 }, []) ∧
    decode [0x57#8, 0x30#8, 0x10#8, 0x39#8] =
      .ok (.stchExt { n := true, i := true, x := false, b := false, p := true, addr := 0x01039#20 }, []) ∧
    decode [0x75#8, 0x10#8, 0x10#8, 0x00#8] =
      .ok (.ldtExt { n := false, i := true, x := false, b := false, p := false, addr := 0x01000#20 }, []) ∧
    decode [0xA0#8, 0x04#8] = .ok (.compr { ignored := 0#2, r1 := 0#4, r2 := 4#4 }, []) ∧
    decode [0x1B#8, 0x20#8, 0x00#8] = .error (.invalidOpcode 0x1B#8)

/-- The static checks of `wellFormed` are exactly the faults an encoding alone decides: an ill-formed instruction always
takes `OutOfRange(register)` or `UndefinedAddressing`, and a well-formed one never does (the model's notion, log 12). -/
def Obligations.IllFormedExactlyWhenStaticFault : Prop :=
  ∀ (i : Instr) (s : State), s.run = .running →
    (i.wellFormed = false →
      exec i s = .next (s.raise (.undefinedAddressing s.regs.pc)) ∨
        ∃ r, exec i s = .next (s.raise (.outOfRangeRegister r s.regs.pc))) ∧
    (i.wellFormed = true → ∀ t, exec i s = .next t →
      ∀ pc0 r, t.run ≠ .faulted (.undefinedAddressing pc0) ∧ t.run ≠ .faulted (.outOfRangeRegister r pc0))

/-! ### Memory accesses -/

/-- `20_memory.md` R31: a read whose bytes all lie in 0 to 65535 gives their big-endian number; any other fails as a whole. -/
def Obligations.MemReadIsBigEndianAndChecked : Prop :=
  ∀ (s : State) (addr : Word),
    (0 ≤ addr.toInt → addr.toInt + 1 ≤ 65536 → s.memRead addr 1 = .ok ((s.mem.read addr.toNat).setWidth 32)) ∧
    (0 ≤ addr.toInt → addr.toInt + 2 ≤ 65536 →
      s.memRead addr 2 = .ok (0#16 ++ s.mem.read addr.toNat ++ s.mem.read (addr.toNat + 1) : BitVec 32)) ∧
    (0 ≤ addr.toInt → addr.toInt + 3 ≤ 65536 → s.memRead addr 3 = .ok (wordAt s.mem addr.toNat)) ∧
    (∀ n : Nat, addr.toInt < 0 ∨ addr.toInt + n > 65536 →
      s.memRead addr n = .error (.outOfRangeMemory addr n s.regs.pc))

/-- `20_memory.md` R32: a write is checked as a whole before any byte is written; otherwise the low bytes of the value go
to ascending addresses, most significant first, and nothing else changes. -/
def Obligations.MemWriteIsBigEndianAndChecked : Prop :=
  ∀ (s : State) (addr : Word) (n : Nat) (v : Word), n = 1 ∨ n = 3 →
    (addr.toInt < 0 ∨ addr.toInt + n > 65536 →
      s.memWrite addr n v = .error (.outOfRangeMemory addr n s.regs.pc)) ∧
    (0 ≤ addr.toInt → addr.toInt + n ≤ 65536 →
      ∃ mem : Memory, s.memWrite addr n v = .ok { s with mem := mem } ∧
        (∀ a, a < addr.toNat ∨ addr.toNat + n ≤ a → mem.read a = s.mem.read a) ∧
        (s.memoryCanonical = true →
          mem.wf = true ∧ ∀ k, k < n → mem.read (addr.toNat + k) = v.extractLsb' (8 * (n - k - 1)) 8))

/-! ### Operands -/

/-- `30_encoding.md` R59, R60: how the displacement and the address field are assembled and read. -/
def Obligations.FieldsAreReadByTheThreshold : Prop :=
  (∀ b0 b1 b2 : Byte,
    (operand3 (format3Of b0 b1 b2)).raw.toNat = b1.toNat % 16 * 256 + b2.toNat) ∧
  (∀ f : Format3,
    (f.disp.toNat ≤ 0x800 → (operand3 f).offset.toInt = f.disp.toNat) ∧
    (f.disp.toNat > 0x800 → (operand3 f).offset.toInt = (f.disp.toNat : Int) - 0x1000)) ∧
  (∀ b0 b1 b2 b3 : Byte,
    (operand4 (format4Of b0 b1 b2 b3)).raw.toNat = b1.toNat % 16 * 65536 + b2.toNat * 256 + b3.toNat ∧
    (operand4 (format4Of b0 b1 b2 b3)).offset = (operand4 (format4Of b0 b1 b2 b3)).raw)

/-- `40_step_and_addressing.md` R95, R98: every answer of `TargetAddress()`. The base is the raw field, or the sum of the
offset and the next PC where b or p is set, plus X where x is set. -/
def Obligations.TargetAddressFollowsTheFlags : Prop :=
  ∀ (o : Operand) (next : Word) (s : State),
    let direct : Word := if o.b = false ∧ o.p = false then o.raw else o.offset + next
    let base : Word := if o.x = true then direct + s.regs.x else direct
    (o.n = false → o.i = true → targetAddress o next s = .error (.undefinedAddressing s.regs.pc)) ∧
    (o.n = o.i → targetAddress o next s = .ok base) ∧
    (o.n = true → o.i = false → InMemory base 3 → targetAddress o next s = .ok (wordAt s.mem base.toNat)) ∧
    (o.n = true → o.i = false → ¬ InMemory base 3 →
      targetAddress o next s = .error (.outOfRangeMemory base 3 s.regs.pc))

/-- `40_step_and_addressing.md` R99: every answer of `OperandValue(k)`, with the target address it notes; a word read from
memory is zero-extended. -/
def Obligations.OperandValueIsRawOrRead : Prop :=
  ∀ (k : Nat) (o : Operand) (next : Word) (s : State),
    (o.n = false → o.i = true → operandValue k o next s = .ok (o.raw, none)) ∧
    (∀ ta v, targetAddress o next s = .ok ta → s.memRead ta k = .ok v → operandValue k o next s = .ok (v, some ta)) ∧
    (∀ ta f, targetAddress o next s = .ok ta → s.memRead ta k = .error f → operandValue k o next s = .error f) ∧
    (∀ f, ¬ (o.n = false ∧ o.i = true) → targetAddress o next s = .error f → operandValue k o next s = .error f) ∧
    (∀ ta v, operandValue 3 o next s = .ok (v, some ta) → v.toNat ≤ 0xFFFFFF)

/-- `40_step_and_addressing.md` R100: the immediate pattern on the eleven mnemonics that need an address. -/
def Obligations.ImmediateAddressPatternFaults : Prop :=
  (∀ (f : Format3) (s : State), f.n = false → f.i = true →
    ∀ i ∈ [Instr.sta f, .stl f, .stx f, .stch f, .j f, .jeq f, .jlt f, .jsub f, .td f, .rd f, .wd f],
      exec i s = .next (s.raise (.undefinedAddressing s.regs.pc))) ∧
  (∀ (f : Format4) (s : State), f.n = false → f.i = true →
    ∀ i ∈ [Instr.staExt f, .stlExt f, .stxExt f, .stchExt f, .jExt f, .jeqExt f, .jltExt f, .jsubExt f, .tdExt f, .rdExt f,
        .wdExt f],
      exec i s = .next (s.raise (.undefinedAddressing s.regs.pc)))

/-- `40_step_and_addressing.md` R95, `90_conflicts.md` C1: no instruction of formats 3 and 4 reads register B. Whatever B
holds, the outcome is the same but for B itself. -/
def Obligations.RegisterBIsNeverRead : Prop :=
  ∀ (i : Instr) (s t : State) (v : Word), i.length ≠ 2 → exec i s = .next t →
    exec i { s with regs := { s.regs with b := v } } = .next { t with regs := { t.regs with b := v } }

/-! ### Registers by index -/

/-- `10_state.md` R10, R12, `30_encoding.md` R53: the index of each register, that no other index names one, and that the
register an index names is the one read and written, no other changing. -/
def Obligations.RegisterIndicesFollowTheTable : Prop :=
  (Reg.ofIndex 0 = some .a ∧ Reg.ofIndex 1 = some .x ∧ Reg.ofIndex 2 = some .l ∧ Reg.ofIndex 3 = some .b ∧
    Reg.ofIndex 4 = some .s ∧ Reg.ofIndex 5 = some .t ∧ Reg.ofIndex 6 = some .f ∧ Reg.ofIndex 7 = some .pc ∧
    Reg.ofIndex 8 = some .sw ∧ ∀ k, 8 < k → Reg.ofIndex k = none) ∧
  (∀ s : State,
    s.reg .a = s.regs.a ∧ s.reg .x = s.regs.x ∧ s.reg .l = s.regs.l ∧ s.reg .b = s.regs.b ∧ s.reg .s = s.regs.s ∧
      s.reg .t = s.regs.t ∧ s.reg .f = s.regs.f ∧ s.reg .pc = s.regs.pc ∧ s.reg .sw = s.regs.sw) ∧
  ∀ (s : State) (r : Reg) (v : Word),
    (s.setReg r v).reg r = v ∧ (∀ r', r' ≠ r → (s.setReg r v).reg r' = s.reg r') ∧
      { s.setReg r v with regs := s.regs } = s

/-! ### Compares and branches -/

/-- `compareSigned` (the spec's `cmp`) is the signed 32-bit comparison (`00_scope.md` section 6). -/
def Obligations.CompareIsSigned : Prop :=
  ∀ a b : Word,
    (compareSigned a b = .lt ↔ a.toInt < b.toInt) ∧ (compareSigned a b = .eq ↔ a.toInt = b.toInt) ∧
      (compareSigned a b = .gt ↔ a.toInt > b.toInt)

/-- `41_compare_branch.md` R110: `COMP`. -/
def Obligations.CompComparesAWithOperand : Prop :=
  EachFormat .comp .compExt fun i o len =>
    HasBaseOpcode i 0x28#8 ∧ ∀ s : State,
      (o.isImmediate = true → exec i s = .next ({ s with cc := compareSigned s.regs.a o.raw }.retire .comp (s.nextPc len))) ∧
      (∀ ta, targetAddress o (s.nextPc len) s = .ok ta → InMemory ta 3 →
        exec i s =
          .next ({ s with cc := compareSigned s.regs.a (wordAt s.mem ta.toNat), lastTa := some ta }.retire
            .comp (s.nextPc len))) ∧
      (∀ ta, targetAddress o (s.nextPc len) s = .ok ta → ¬ InMemory ta 3 →
        exec i s = .next (s.raise (.outOfRangeMemory ta 3 s.regs.pc))) ∧
      FaultsWithTarget i o (s.nextPc len) s

/-- `41_compare_branch.md` R111: `COMPR`, `r1` checked first. -/
def Obligations.ComprComparesTwoRegisters : Prop :=
  ∀ (f : Format2) (s : State),
    HasBaseOpcode (.compr f) 0xA0#8 ∧
    (∀ r1 r2, Reg.ofIndex f.r1.toNat = some r1 → Reg.ofIndex f.r2.toNat = some r2 →
      exec (.compr f) s = .next ({ s with cc := compareSigned (s.reg r1) (s.reg r2) }.retire .compr (s.nextPc 2))) ∧
    (f.r1.toNat > 8 → exec (.compr f) s = .next (s.raise (.outOfRangeRegister f.r1 s.regs.pc))) ∧
    (f.r1.toNat ≤ 8 → f.r2.toNat > 8 → exec (.compr f) s = .next (s.raise (.outOfRangeRegister f.r2 s.regs.pc)))

/-- `41_compare_branch.md` R112: `JEQ`; the target is resolved, with its faults, whether or not the branch is taken. -/
def Obligations.JeqBranchesOnEqual : Prop :=
  EachFormat .jeq .jeqExt fun i o len => HasBaseOpcode i 0x30#8 ∧ BranchesOn .jeq .eq i o len

/-- `41_compare_branch.md` R113: `JLT`. -/
def Obligations.JltBranchesOnLess : Prop :=
  EachFormat .jlt .jltExt fun i o len => HasBaseOpcode i 0x38#8 ∧ BranchesOn .jlt .lt i o len

/-! ### Jumps and linkage -/

/-- `42_jump_subroutine.md` R120: `J`; the target is not range-checked. -/
def Obligations.JumpGoesToTarget : Prop :=
  EachFormat .j .jExt fun i o len =>
    HasBaseOpcode i 0x3C#8 ∧ ∀ s : State,
      (∀ ta, targetAddress o (s.nextPc len) s = .ok ta →
        exec i s = .next ({ s with lastTa := some ta }.retire .j ta)) ∧
      (o.isImmediate = true → exec i s = .next (s.raise (.undefinedAddressing s.regs.pc))) ∧
      FaultsWithTarget i o (s.nextPc len) s

/-- `42_jump_subroutine.md` R121: `JSUB`; L receives the address after the call, and a fault leaves it alone. -/
def Obligations.JsubSavesReturnAddress : Prop :=
  EachFormat .jsub .jsubExt fun i o len =>
    HasBaseOpcode i 0x48#8 ∧ ∀ s : State,
      (∀ ta, targetAddress o (s.nextPc len) s = .ok ta →
        exec i s =
          .next ({ s with regs := { s.regs with l := s.regs.pc + BitVec.ofNat 32 len }, lastTa := some ta }.retire .jsub ta)) ∧
      (o.isImmediate = true → exec i s = .next (s.raise (.undefinedAddressing s.regs.pc))) ∧
      FaultsWithTarget i o (s.nextPc len) s

/-- `42_jump_subroutine.md` R122: `RSUB` in both lengths goes to L and ignores every flag and its field. -/
def Obligations.RsubGoesToL : Prop :=
  EachFormat .rsub .rsubExt fun i _ _ =>
    HasBaseOpcode i 0x4C#8 ∧ ∀ s : State, exec i s = .next (s.retire .rsub s.regs.l)

/-! ### Loads and stores -/

/-- `43_load_store.md` R131: `LDA`. -/
def Obligations.LdaLoadsWordIntoA : Prop :=
  EachFormat .lda .ldaExt fun i o len =>
    HasBaseOpcode i 0x00#8 ∧ LoadsWord .lda (fun g v => { g with a := v }) i o len

/-- `43_load_store.md` R132: `LDT`. -/
def Obligations.LdtLoadsWordIntoT : Prop :=
  EachFormat .ldt .ldtExt fun i o len =>
    HasBaseOpcode i 0x74#8 ∧ LoadsWord .ldt (fun g v => { g with t := v }) i o len

/-- `43_load_store.md` R133: `LDCH`; bits 31:8 of A are kept, and of an immediate the low 8 bits are taken. -/
def Obligations.LdchLoadsLowByteOfA : Prop :=
  EachFormat .ldch .ldchExt fun i o len =>
    HasBaseOpcode i 0x50#8 ∧ ∀ s : State,
      (o.isImmediate = true →
        exec i s =
          .next ({ s with regs := { s.regs with a := (s.regs.a &&& 0xFFFFFF00#32) ||| (o.raw &&& 0xFF#32) } }.retire
            .ldch (s.nextPc len))) ∧
      (∀ ta, targetAddress o (s.nextPc len) s = .ok ta → InMemory ta 1 →
        exec i s =
          .next ({ s with
            regs := { s.regs with a := (s.regs.a &&& 0xFFFFFF00#32) ||| (s.mem.read ta.toNat).setWidth 32 }
            lastTa := some ta }.retire .ldch (s.nextPc len))) ∧
      (∀ ta, targetAddress o (s.nextPc len) s = .ok ta → ¬ InMemory ta 1 →
        exec i s = .next (s.raise (.outOfRangeMemory ta 1 s.regs.pc))) ∧
      FaultsWithTarget i o (s.nextPc len) s

/-- `43_load_store.md` R134: `STA`. -/
def Obligations.StaStoresLowWordOfA : Prop :=
  EachFormat .sta .staExt fun i o len => HasBaseOpcode i 0x0C#8 ∧ StoresWord .sta (fun g => g.a) i o len

/-- `43_load_store.md` R135: `STL`. -/
def Obligations.StlStoresLowWordOfL : Prop :=
  EachFormat .stl .stlExt fun i o len => HasBaseOpcode i 0x14#8 ∧ StoresWord .stl (fun g => g.l) i o len

/-- `43_load_store.md` R136: `STX`. -/
def Obligations.StxStoresLowWordOfX : Prop :=
  EachFormat .stx .stxExt fun i o len => HasBaseOpcode i 0x10#8 ∧ StoresWord .stx (fun g => g.x) i o len

/-- `43_load_store.md` R137: `STCH`; one byte is written and the neighbouring bytes are not touched. -/
def Obligations.StchStoresLowByteOfA : Prop :=
  EachFormat .stch .stchExt fun i o len =>
    HasBaseOpcode i 0x54#8 ∧ ∀ s : State,
      (∀ ta, targetAddress o (s.nextPc len) s = .ok ta → InMemory ta 1 →
        ∃ mem : Memory,
          exec i s = .next ({ s with mem := mem, lastTa := some ta }.retire .stch (s.nextPc len)) ∧
          (∀ a, a ≠ ta.toNat → mem.read a = s.mem.read a) ∧
          (s.mem.wf = true → mem.read ta.toNat = s.regs.a.extractLsb' 0 8)) ∧
      (∀ ta, targetAddress o (s.nextPc len) s = .ok ta → ¬ InMemory ta 1 →
        exec i s = .next (s.raise (.outOfRangeMemory ta 1 s.regs.pc))) ∧
      (o.isImmediate = true → exec i s = .next (s.raise (.undefinedAddressing s.regs.pc))) ∧
      FaultsWithTarget i o (s.nextPc len) s

/-! ### Register instructions -/

/-- `45_register.md` R160: `TIXR`; X is incremented first, and the register is read after that. -/
def Obligations.TixrIncrementsAndCompares : Prop :=
  ∀ (f : Format2) (s : State),
    HasBaseOpcode (.tixr f) 0xB8#8 ∧
    (∀ r, Reg.ofIndex f.r1.toNat = some r →
      let x' : Word := s.regs.x + 1#32
      let other : Word := if r = .x then x' else s.reg r
      exec (.tixr f) s =
        .next ({ s with regs := { s.regs with x := x' }, cc := compareSigned x' other }.retire .tixr (s.nextPc 2))) ∧
    (f.r1.toNat > 8 → exec (.tixr f) s = .next (s.raise (.outOfRangeRegister f.r1 s.regs.pc)))

/-- `45_register.md` R161: `CLEAR`; every other register keeps its value, and `CLEAR PC` is a 2-byte no-op. -/
def Obligations.ClearZeroesOneRegister : Prop :=
  ∀ (f : Format2) (s : State),
    HasBaseOpcode (.clear f) 0xB4#8 ∧
    (∀ r, Reg.ofIndex f.r1.toNat = some r →
      ∃ g : Regs, exec (.clear f) s = .next ({ s with regs := g }.retire .clear (s.nextPc 2)) ∧
        g.get r = 0#32 ∧ ∀ r', r' ≠ r → g.get r' = s.regs.get r') ∧
    (f.r1 = 7#4 → exec (.clear f) s = .next (s.retire .clear (s.nextPc 2))) ∧
    (f.r1.toNat > 8 → exec (.clear f) s = .next (s.raise (.outOfRangeRegister f.r1 s.regs.pc)))

/-! ### Devices -/

/-- `44_device.md` R150: `TD`. The answer is the environment's, whatever it is; only the model's own record of the
environment (log 6) moves with it. -/
def Obligations.TdSetsFlagFromReadiness : Prop :=
  EachFormat .td .tdExt fun i o len =>
    HasBaseOpcode i 0xE0#8 ∧ ∀ s : State,
      (∀ ta, targetAddress o (s.nextPc len) s = .ok ta → InMemory ta 1 →
        ∃ env : DevEnv,
          exec i s =
            .next ({ s with
              cc := if s.env.ready (s.mem.read ta.toNat) = true then .lt else .eq
              lastTa := some ta
              lastDev := some (s.mem.read ta.toNat)
              env := env }.retire .td (s.nextPc len))) ∧
      FaultsWithIdentifier i o len s

/-- `44_device.md` R151, `60_exceptions.md` R188: `RD`. The read handle is opened at the start of the environment's input if
it was closed; the byte at the cursor, or 0 at the end, goes to A[7:0]; the cursor advances only over a byte; a handle that
cannot be opened is `DeviceError`. That the input is fixed when the handle is opened is the model's choice (logs 6 and 8). -/
def Obligations.RdReadsOneByte : Prop :=
  EachFormat .rd .rdExt fun i o len =>
    HasBaseOpcode i 0xD8#8 ∧ ∀ s : State,
      (∀ ta, targetAddress o (s.nextPc len) s = .ok ta → InMemory ta 1 →
        let d := s.mem.read ta.toNat
        let dev := s.device d
        let input := if dev.readOpen = true then dev.input else s.env.input d
        let cursor := if dev.readOpen = true then dev.cursor else 0
        (dev.readOpen = true ∨ s.env.canRead d = true →
          ∃ (devices : List (Nat × Device)) (env : DevEnv),
            exec i s =
              .next ({ s with
                regs := { s.regs with a := (s.regs.a &&& 0xFFFFFF00#32) ||| (input.getD cursor 0#8).setWidth 32 }
                lastTa := some ta
                lastDev := some d
                devices := devices
                env := env }.retire .rd (s.nextPc len)) ∧
            (∀ d', d' ≠ d → Sparse.get Device.unused devices d'.toNat = s.device d') ∧
            (s.devicesCanonical = true →
              Sparse.get Device.unused devices d.toNat =
                { dev with
                  readOpen := true
                  input := input
                  cursor := if cursor < input.length then cursor + 1 else cursor })) ∧
        (dev.readOpen = false → s.env.canRead d = false → exec i s = .next (s.raise (.deviceError d s.regs.pc)))) ∧
      FaultsWithIdentifier i o len s

/-- `44_device.md` R152, `60_exceptions.md` R189: `WD`. The low byte of A is appended to the output of the device; a write
handle that was closed is opened first, and whether that empties the output is the environment's answer (log 7); a handle
that cannot be opened is `DeviceError`. -/
def Obligations.WdAppendsOneByte : Prop :=
  EachFormat .wd .wdExt fun i o len =>
    HasBaseOpcode i 0xDC#8 ∧ ∀ s : State,
      (∀ ta, targetAddress o (s.nextPc len) s = .ok ta → InMemory ta 1 →
        let d := s.mem.read ta.toNat
        let dev := s.device d
        (dev.writeOpen = true ∨ s.env.canWrite d = true →
          ∃ (devices : List (Nat × Device)) (env : DevEnv),
            exec i s =
              .next ({ s with lastTa := some ta, lastDev := some d, devices := devices, env := env }.retire
                .wd (s.nextPc len)) ∧
            (∀ d', d' ≠ d → Sparse.get Device.unused devices d'.toNat = s.device d') ∧
            (s.devicesCanonical = true →
              ∃ kept : List Byte, (kept = dev.output ∨ (dev.writeOpen = false ∧ kept = [])) ∧
                Sparse.get Device.unused devices d.toNat =
                  { dev with writeOpen := true, output := kept ++ [s.regs.a.extractLsb' 0 8] })) ∧
        (dev.writeOpen = false → s.env.canWrite d = false → exec i s = .next (s.raise (.deviceError d s.regs.pc)))) ∧
      FaultsWithIdentifier i o len s

/-- `60_exceptions.md` R190: `DevCloseAll` closes every handle, is idempotent, and touches no other state; the next read of a
device starts at the first byte. The model's choices: that the output sequences are kept (log 8), and that the input of that
next read is what the environment then delivers (logs 6 and 8). -/
def Obligations.CloseAllReleasesEveryHandle : Prop :=
  ∀ s : State, s.devicesCanonical = true →
    s.closeAll.closeAll = s.closeAll ∧
    s.closeAll = { s with devices := s.closeAll.devices } ∧
    (∀ d, (s.closeAll.device d).closed = true ∧ (s.closeAll.device d).output = (s.device d).output) ∧
    (∀ d, s.env.canRead d = true →
      ∃ t, s.closeAll.devRead d = .ok ((s.env.input d).getD 0 0#8, t))

/-- `70_reset_and_hazards.md` R212: the shutdown closes every device, and nothing of the core persists: what it leaves depends
on what lies outside the core only. That the outputs and the model's record of the environment remain is the model's (logs 6,
8 and 25). -/
def Obligations.ShutdownLeavesOnlyTheEnvironment : Prop :=
  ∀ s t : State, s.devicesCanonical = true →
    (∀ d : Byte, (Sparse.get Device.unused (shutdown s).devices d.toNat).closed = true ∧
      (Sparse.get Device.unused (shutdown s).devices d.toNat).output = (s.device d).output) ∧
    (t.devices = s.devices → t.env = s.env → shutdown t = shutdown s)

/-! ### Rules over all instructions -/

/-- `10_state.md` section 1, the table's "writes" column and the sentence after it, with memory, CC and the floating
accumulator: what each instruction may change, and that B, S, F and SW can only become 0. -/
def Obligations.StateChangesOnlyAsTabled : Prop :=
  ∀ (i : Instr) (s t : State), exec i s = .next t →
    (t.regs.a ≠ s.regs.a → i.mnemonic ∈ [.lda, .ldch, .rd, .clear]) ∧
    (t.regs.x ≠ s.regs.x → i.mnemonic ∈ [.tixr, .clear]) ∧
    (t.regs.l ≠ s.regs.l → i.mnemonic ∈ [.jsub, .clear]) ∧
    (t.regs.t ≠ s.regs.t → i.mnemonic ∈ [.ldt, .clear]) ∧
    (t.regs.b ≠ s.regs.b → i.mnemonic = .clear ∧ t.regs.b = 0#32) ∧
    (t.regs.s ≠ s.regs.s → i.mnemonic = .clear ∧ t.regs.s = 0#32) ∧
    (t.regs.f ≠ s.regs.f → i.mnemonic = .clear ∧ t.regs.f = 0#32) ∧
    (t.regs.sw ≠ s.regs.sw → i.mnemonic = .clear ∧ t.regs.sw = 0#32) ∧
    (t.cc ≠ s.cc → i.mnemonic ∈ [.comp, .compr, .tixr, .td]) ∧
    (t.mem ≠ s.mem → i.mnemonic ∈ [.sta, .stl, .stx, .stch]) ∧
    (t.lastDev ≠ s.lastDev → i.mnemonic ∈ [.td, .rd, .wd]) ∧
    t.facc = s.facc

/-- `10_state.md` R16: the flag is read by `JEQ` and `JLT` only. Any other instruction at a state either leaves whatever the
flag holds and does the same otherwise, or writes the flag and ends in one state whatever the flag held. -/
def Obligations.FlagIsReadByBranchesOnly : Prop :=
  ∀ (i : Instr) (s t : State), i.mnemonic ≠ .jeq → i.mnemonic ≠ .jlt → exec i s = .next t →
    (∀ c : CC, exec i { s with cc := c } = .next { t with cc := c }) ∨
      ∀ c : CC, exec i { s with cc := c } = .next t

/-- `10_state.md` R18, R21, R22: LOG, LAST_TA, LAST_DEV and the floating accumulator are read by no instruction. Whatever they
hold, the outcome is the same but for themselves: LOG gains the mnemonic or nothing, each of LAST_TA and LAST_DEV is kept or is
written with one value, and the accumulator is kept. -/
def Obligations.TraceAndAccumulatorAreNeverRead : Prop :=
  ∀ (i : Instr) (s t : State), exec i s = .next t →
    ∃ (added : List Mnemonic) (keepsTa keepsDev : Bool), (added = [] ∨ added = [i.mnemonic]) ∧
      ∀ (log : List Mnemonic) (ta : Option Word) (dev : Option Byte) (facc : BitVec Config.faccWidth),
        exec i { s with log := log, lastTa := ta, lastDev := dev, facc := facc } =
          .next { t with
            log := log ++ added
            lastTa := if keepsTa = true then ta else t.lastTa
            lastDev := if keepsDev = true then dev else t.lastDev
            facc := facc }

/-! ### The load -/

/-- What a successful load leaves (`10_state.md` R26, `70_reset_and_hazards.md` R201, R202): every register 0 but PC, which is
the entry it reports, that of the first End record if it carries one, else the start of the first section; CC at the open CC_RESET,
no history, every device closed, and 0 in every byte that no Text or Modify record writes. Whose End record counts in a file
with unfinished sections is the model's choice (log 24). -/
def Obligations.LoadLeavesTheCleanState : Prop :=
  ∀ (lines : List (List Char)) (s t : State) (md : Metadata),
    s.devicesCanonical = true → load lines s = (.ok md, t) →
    t.regs = Regs.clean (BitVec.ofNat 32 md.entry) ∧ t.facc.toNat = 0 ∧ t.cc = Config.ccReset ∧ t.run = .running ∧
      t.log = [] ∧ t.lastTa = none ∧ t.lastDev = none ∧ (∀ d, (t.device d).closed = true) ∧
      firstStart (lines.filterMap parseRecord) = some md.start ∧
      md.entry = (firstEndAddress (lines.filterMap parseRecord)).getD md.start ∧
      ∀ a, (∀ field ∈ placements 0 0 (lines.filterMap parseRecord), a < field.1 ∨ field.1 + field.2 ≤ a) →
        t.mem.read a = 0#8

/-- A successful load leaves a state that meets every invariant, so that every state a program reaches does. -/
def Obligations.LoadMeetsTheInvariants : Prop :=
  ∀ (lines : List (List Char)) (s t : State) (md : Metadata),
    s.devicesCanonical = true → load lines s = (.ok md, t) →
    t.memoryCanonical = true ∧ t.devicesCanonical = true ∧ t.runConsistent = true ∧ t.registersReachable = true

/-- Two loads of one object program give the same result and the same state of the core, whatever ran before; the devices and
the model's own record of the environment lie outside the core (logs 6 and 8)
(`70_reset_and_hazards.md` R201, `95_test_vectors.md` S1). -/
def Obligations.LoadIsDeterministic : Prop :=
  ∀ (lines : List (List Char)) (s s' : State),
    (load lines s).1 = (load lines s').1 ∧
    { (load lines s).2 with devices := [], env := s.env } = { (load lines s').2 with devices := [], env := s.env }

/-- A failed load leaves the core reset and UNLOADED, where a step does nothing (`70_reset_and_hazards.md` R200, R210): memory,
registers, accumulator, CC, LOG and the trace are clean, PC among them, and every device is closed. That all of this and not
memory alone is clean, with PC 0, is read from R200's sequence (log 16). -/
def Obligations.FailedLoadLeavesUnloaded : Prop :=
  ∀ (lines : List (List Char)) (s t : State) (e : LoadError), s.devicesCanonical = true → load lines s = (.error e, t) →
    t.run = .unloaded ∧ (∀ a, t.mem.read a = 0#8) ∧ t.regs = Regs.clean 0#32 ∧ t.facc.toNat = 0 ∧ t.cc = Config.ccReset ∧
      t.log = [] ∧ t.lastTa = none ∧ t.lastDev = none ∧ (∀ d, (t.device d).closed = true) ∧ step t = .next t

/-- A Text record's payload goes to ascending addresses from its start plus the section offset, and no other byte changes; a
placement outside memory fails (`70_reset_and_hazards.md` R207). -/
def Obligations.TextRecordPlacesItsBytes : Prop :=
  ∀ (l : LoadState) (start : Nat) (payload : List Byte), l.mem.wf = true →
    (start + l.csLen + payload.length ≤ 65536 →
      ∃ mem : Memory, l.record (.text start payload) = .ok { l with mem := mem } ∧ mem.wf = true ∧
        (∀ k (h : k < payload.length), mem.read (start + l.csLen + k) = payload[k]) ∧
        ∀ a, a < start + l.csLen ∨ start + l.csLen + payload.length ≤ a → mem.read a = l.mem.read a) ∧
    (start + l.csLen + payload.length > 65536 →
      l.record (.text start payload) = .error (.outOfRange (start + l.csLen) payload.length))

/-- Applying a Modify record adds or subtracts the symbol's address to the number in its field, modulo the field's width,
and changes no byte outside the field (`70_reset_and_hazards.md` R208, `95_test_vectors.md` S2). -/
def Obligations.ModifyRelocatesTheField : Prop :=
  ∀ (p : PendingModify) (symbols : SymbolTable) (m : Memory) (addr : Nat), m.wf = true →
    p.addr + p.width ≤ 65536 → symbols.resolve p.symbol = .ok addr →
    ∃ m' : Memory, p.apply symbols m = .ok m' ∧ m'.wf = true ∧
      (p.negative = false →
        beNat (m'.bytesAt p.addr p.width) = (beNat (m.bytesAt p.addr p.width) + addr) % 256 ^ p.width) ∧
      (p.negative = true →
        ((beNat (m'.bytesAt p.addr p.width) : Int) + addr) % (256 ^ p.width : Nat) =
          (beNat (m.bytesAt p.addr p.width) : Int) % (256 ^ p.width : Nat)) ∧
      ∀ a, a < p.addr ∨ p.addr + p.width ≤ a → m'.read a = m.read a
end

