-- ==== Sys2Proof/Laws/Decode.lean ====
section
/-! SUPPORT. The fields that the encoder writes are the fields that the decoder reads, and the catalog entry that an encoded
first byte selects. -/

namespace Sys2Proof

/-! ### The catalog entry of an encoded byte 0 -/

/-- The nominal format of a mnemonic (`30_encoding.md` R57). -/
def nominalFormat : Mnemonic → NominalFormat
  | .compr | .clear | .tixr => .two
  | .lda | .sta | .stx | .stl | .comp | .jeq | .jlt | .j | .jsub | .rsub | .ldch | .stch | .ldt | .rd | .wd | .td => .threeFour

theorem lookup_encode2 (m : Mnemonic) (x : BitVec 2) :
    ∃ e, lookup (opcodeBits m ++ x : BitVec 8) = some e ∧ e.mnemonic = m ∧ e.format = nominalFormat m := by
  have h : (lookup (opcodeBits m ++ x : BitVec 8)).map (fun e => (e.mnemonic, e.format)) = some (m, nominalFormat m) := by
    cases m <;> revert x <;> decide
  obtain ⟨e, he, hp⟩ := Option.map_eq_some_iff.1 h
  exact ⟨e, he, congrArg Prod.fst hp, congrArg Prod.snd hp⟩

theorem lookup_encode34 (m : Mnemonic) (n i : Bool) :
    ∃ e, lookup (opcodeBits m ++ BitVec.ofBool n ++ BitVec.ofBool i : BitVec 8) = some e ∧ e.mnemonic = m ∧
      e.format = nominalFormat m := by
  have h : (lookup (opcodeBits m ++ BitVec.ofBool n ++ BitVec.ofBool i : BitVec 8)).map (fun e => (e.mnemonic, e.format)) =
      some (m, nominalFormat m) := by
    cases m <;> revert n i <;> decide
  obtain ⟨e, he, hp⟩ := Option.map_eq_some_iff.1 h
  exact ⟨e, he, congrArg Prod.fst hp, congrArg Prod.snd hp⟩

/-! ### Bits of encoded bytes -/

theorem encoded_n (o : BitVec 6) (n i : Bool) :
    (o ++ BitVec.ofBool n ++ BitVec.ofBool i : BitVec 8).getLsbD 1 = n := by
  simp only [BitVec.getLsbD_append]
  simp

theorem encoded_i (o : BitVec 6) (n i : Bool) :
    (o ++ BitVec.ofBool n ++ BitVec.ofBool i : BitVec 8).getLsbD 0 = i := by
  simp only [BitVec.getLsbD_append]
  simp

theorem encoded_x (x b p e : Bool) (v : BitVec 4) :
    (BitVec.ofBool x ++ BitVec.ofBool b ++ BitVec.ofBool p ++ BitVec.ofBool e ++ v : BitVec 8).getLsbD 7 = x := by
  simp only [BitVec.getLsbD_append]
  simp

theorem encoded_b (x b p e : Bool) (v : BitVec 4) :
    (BitVec.ofBool x ++ BitVec.ofBool b ++ BitVec.ofBool p ++ BitVec.ofBool e ++ v : BitVec 8).getLsbD 6 = b := by
  simp only [BitVec.getLsbD_append]
  simp

theorem encoded_p (x b p e : Bool) (v : BitVec 4) :
    (BitVec.ofBool x ++ BitVec.ofBool b ++ BitVec.ofBool p ++ BitVec.ofBool e ++ v : BitVec 8).getLsbD 5 = p := by
  simp only [BitVec.getLsbD_append]
  simp

theorem encoded_e (x b p e : Bool) (v : BitVec 4) :
    (BitVec.ofBool x ++ BitVec.ofBool b ++ BitVec.ofBool p ++ BitVec.ofBool e ++ v : BitVec 8).getLsbD 4 = e := by
  simp only [BitVec.getLsbD_append]
  simp

theorem encoded_low (x b p e : Bool) (v : BitVec 4) :
    (BitVec.ofBool x ++ BitVec.ofBool b ++ BitVec.ofBool p ++ BitVec.ofBool e ++ v : BitVec 8).extractLsb' 0 4 = v := by
  apply BitVec.eq_of_getLsbD_eq
  intro k hk
  simp only [BitVec.getLsbD_append, BitVec.getLsbD_extractLsb']
  simp [hk]

/-! ### The fields of the three formats -/

theorem format2Of_encode (m : Mnemonic) (f : Format2) :
    format2Of (opcodeBits m ++ f.ignored : BitVec 8) (f.r1 ++ f.r2 : BitVec 8) = f := by
  obtain ⟨g, r1, r2⟩ := f
  simp only [format2Of, Format2.mk.injEq]
  refine ⟨?_, ?_, ?_⟩ <;> apply BitVec.eq_of_getLsbD_eq <;> intro k hk <;>
    simp only [BitVec.getLsbD_append, BitVec.getLsbD_extractLsb']
  · simp [hk]
  · simp [hk, show ¬ 4 + k < 4 by omega]
  · simp [hk]

theorem disp_parts (d : BitVec 12) : (d.extractLsb' 8 4 ++ d.extractLsb' 0 8 : BitVec 12) = d := by
  apply BitVec.eq_of_getLsbD_eq
  intro k hk
  simp only [BitVec.getLsbD_append, BitVec.getLsbD_extractLsb']
  rcases (by omega : k < 8 ∨ 8 ≤ k) with h | h
  · simp [h]
  · simp [show ¬ k < 8 by omega, show k - 8 < 4 by omega, show 8 + (k - 8) = k by omega]

theorem addr_parts (d : BitVec 20) : (d.extractLsb' 16 4 ++ d.extractLsb' 8 8 ++ d.extractLsb' 0 8 : BitVec 20) = d := by
  apply BitVec.eq_of_getLsbD_eq
  intro k hk
  simp only [BitVec.getLsbD_append, BitVec.getLsbD_extractLsb']
  rcases (by omega : k < 8 ∨ (8 ≤ k ∧ k < 16) ∨ 16 ≤ k) with h | h | h
  · simp [h]
  · simp [show ¬ k < 8 by omega, show k - 8 < 8 by omega, show 8 + (k - 8) = k by omega]
  · simp [show ¬ k < 8 by omega, show ¬ k - 8 < 8 by omega, show k - 8 - 8 < 4 by omega, show 16 + (k - 8 - 8) = k by omega]

theorem format3Of_encode (o : BitVec 6) (f : Format3) :
    format3Of (o ++ BitVec.ofBool f.n ++ BitVec.ofBool f.i : BitVec 8)
      (BitVec.ofBool f.x ++ BitVec.ofBool f.b ++ BitVec.ofBool f.p ++ 0#1 ++ f.disp.extractLsb' 8 4 : BitVec 8)
      (f.disp.extractLsb' 0 8) = f := by
  obtain ⟨n, i, x, b, p, d⟩ := f
  simp only [format3Of, Format3.mk.injEq]
  exact ⟨encoded_n _ _ _, encoded_i _ _ _, encoded_x _ _ _ false _, encoded_b _ _ _ false _, encoded_p _ _ _ false _,
    (congrArg (fun v => (v ++ d.extractLsb' 0 8 : BitVec 12)) (encoded_low x b p false _)).trans (disp_parts d)⟩

theorem format4Of_encode (o : BitVec 6) (f : Format4) :
    format4Of (o ++ BitVec.ofBool f.n ++ BitVec.ofBool f.i : BitVec 8)
      (BitVec.ofBool f.x ++ BitVec.ofBool f.b ++ BitVec.ofBool f.p ++ 1#1 ++ f.addr.extractLsb' 16 4 : BitVec 8)
      (f.addr.extractLsb' 8 8) (f.addr.extractLsb' 0 8) = f := by
  obtain ⟨n, i, x, b, p, d⟩ := f
  simp only [format4Of, Format4.mk.injEq]
  exact ⟨encoded_n _ _ _, encoded_i _ _ _, encoded_x _ _ _ true _, encoded_b _ _ _ true _, encoded_p _ _ _ true _,
    (congrArg (fun v => (v ++ d.extractLsb' 8 8 ++ d.extractLsb' 0 8 : BitVec 20)) (encoded_low x b p true _)).trans
      (addr_parts d)⟩

theorem flag_e_encode3 (f : Format3) :
    (BitVec.ofBool f.x ++ BitVec.ofBool f.b ++ BitVec.ofBool f.p ++ 0#1 ++ f.disp.extractLsb' 8 4 : BitVec 8).getLsbD 4 =
      false :=
  encoded_e _ _ _ false _

theorem flag_e_encode4 (f : Format4) :
    (BitVec.ofBool f.x ++ BitVec.ofBool f.b ++ BitVec.ofBool f.p ++ 1#1 ++ f.addr.extractLsb' 16 4 : BitVec 8).getLsbD 4 =
      true :=
  encoded_e _ _ _ true _

/-- The formats a catalog entry can have follow its mnemonic. -/
theorem format_of_lookup {b0 : Byte} {e : CatalogEntry} (h : lookup b0 = some e) : e.format = nominalFormat e.mnemonic := by
  have hall : ∀ e ∈ catalog, e.format = nominalFormat e.mnemonic := by decide
  exact hall e (List.mem_of_find?_eq_some h)

/-- The resolved format is 2, 3 or 4 for every entry of the catalog. -/
theorem resolvedFormat_of_lookup {b0 : Byte} {e : CatalogEntry} (b1 : Byte) (h : lookup b0 = some e) :
    resolvedFormat e b1 =
      match nominalFormat e.mnemonic with
      | .two => 2
      | _ => if b1.getLsbD 4 then 4 else 3 := by
  rw [resolvedFormat, format_of_lookup h]
  generalize e.mnemonic = m
  cases m <;> rfl

/-- The length of an assembled instruction is the format resolved from its entry and byte 1. -/
theorem length_assemble {b0 : Byte} {e : CatalogEntry} (b1 : Byte) (rest : List Byte) (h : lookup b0 = some e) :
    (assemble e.mnemonic b0 b1 rest).length = resolvedFormat e b1 := by
  rw [resolvedFormat_of_lookup b1 h]
  generalize e.mnemonic = m
  cases m <;> cases hb : b1.getLsbD 4 <;> simp only [assemble, hb, nominalFormat] <;> rfl

/-- The mnemonic of an assembled instruction is its entry's. -/
theorem mnemonic_assemble (m : Mnemonic) (b0 b1 : Byte) (rest : List Byte) : (assemble m b0 b1 rest).mnemonic = m := by
  cases m <;> cases hb : b1.getLsbD 4 <;> simp only [assemble, hb] <;> rfl

end Sys2Proof
end

