-- ==== Sys2Proof/Laws/Sparse.lean ====
section
/-! SUPPORT. The laws of sparse maps: what is read after a write, and that every operation keeps the canonical form. -/

namespace Sys2Proof.Machine

variable {α : Type} (dflt : α)

@[simp] theorem Sparse.get_nil (k : Nat) : Sparse.get dflt [] k = dflt := rfl

theorem Sparse.get_cons (j k : Nat) (v : α) (m : List (Nat × α)) :
    Sparse.get dflt ((j, v) :: m) k = if j = k then v else Sparse.get dflt m k := rfl

/-- A key below every listed one reads the default. -/
theorem Sparse.get_of_lt {m : List (Nat × α)} {k : Nat} (h : ∀ e ∈ m, k < e.1) : Sparse.get dflt m k = dflt := by
  induction m with
  | nil => rfl
  | cons e m ih =>
    obtain ⟨j, v⟩ := e
    have hj : k < j := h (j, v) (by simp)
    rw [Sparse.get_cons, if_neg (by omega)]
    exact ih fun e he => h e (by simp [he])

variable [DecidableEq α]

/-- A write leaves every other key alone, in any list. -/
theorem Sparse.get_set_of_ne (m : List (Nat × α)) {k k' : Nat} (v : α) (h : k' ≠ k) :
    Sparse.get dflt (Sparse.set dflt m k v) k' = Sparse.get dflt m k' := by
  induction m with
  | nil =>
    simp only [Sparse.set]
    split
    · rfl
    · rw [Sparse.get_cons, if_neg (Ne.symm h)]
  | cons e m ih =>
    obtain ⟨j, w⟩ := e
    simp only [Sparse.set]
    split
    · split
      · rfl
      · rw [Sparse.get_cons, if_neg (Ne.symm h)]
    · split
      · next hk =>
        subst hk
        rw [Sparse.get_cons dflt k k' w m, if_neg (Ne.symm h)]
        split
        · rfl
        · rw [Sparse.get_cons, if_neg (Ne.symm h)]
      · simp only [Sparse.get_cons, ih]

/-- The canonical form, said with the members of the list. -/
theorem Sparse.wf_iff (bound : Nat) (m : List (Nat × α)) :
    Sparse.wf dflt bound m = true ↔
      m.Pairwise (fun a b => a.1 < b.1) ∧ ∀ e ∈ m, e.1 < bound ∧ e.2 ≠ dflt := by
  simp [Sparse.wf]

@[simp] theorem Sparse.wf_nil (bound : Nat) : Sparse.wf dflt bound ([] : List (Nat × α)) = true := by
  simp [Sparse.wf_iff]

/-- A read after a write to the same key gives the value written. -/
theorem Sparse.get_set_self {bound : Nat} {m : List (Nat × α)} (k : Nat) (v : α) (hm : Sparse.wf dflt bound m = true) :
    Sparse.get dflt (Sparse.set dflt m k v) k = v := by
  rw [Sparse.wf_iff] at hm
  have hs := hm.1
  clear hm
  induction m with
  | nil =>
    simp only [Sparse.set]
    split
    · next h => simp [h]
    · simp [Sparse.get_cons]
  | cons e m ih =>
    obtain ⟨j, w⟩ := e
    rw [List.pairwise_cons] at hs
    simp only [Sparse.set]
    split
    · next hlt =>
      split
      · next h =>
        rw [h]
        refine Sparse.get_of_lt dflt fun e he => ?_
        rcases List.mem_cons.1 he with rfl | he
        · exact hlt
        · exact Nat.lt_trans hlt (hs.1 e he)
      · simp [Sparse.get_cons]
    · split
      · next hk =>
        subst hk
        split
        · next h => rw [h]; exact Sparse.get_of_lt dflt hs.1
        · simp [Sparse.get_cons]
      · next hk =>
        rw [Sparse.get_cons, if_neg (Ne.symm hk)]
        exact ih hs.2

/-- Where the entries of a list after a write come from. -/
theorem Sparse.mem_set {m : List (Nat × α)} {k : Nat} {v : α} {e : Nat × α} (h : e ∈ Sparse.set dflt m k v) :
    e ∈ m ∨ (e = (k, v) ∧ v ≠ dflt) := by
  induction m with
  | nil =>
    simp only [Sparse.set] at h
    split at h
    · cases h
    · exact .inr ⟨by simpa using h, ‹_›⟩
  | cons c m ih =>
    obtain ⟨j, w⟩ := c
    simp only [Sparse.set] at h
    split at h
    · split at h
      · exact .inl h
      · rcases List.mem_cons.1 h with rfl | h
        · exact .inr ⟨rfl, ‹_›⟩
        · exact .inl h
    · split at h
      · split at h
        · exact .inl (List.mem_cons_of_mem _ h)
        · rcases List.mem_cons.1 h with rfl | h
          · exact .inr ⟨rfl, ‹_›⟩
          · exact .inl (List.mem_cons_of_mem _ h)
      · rcases List.mem_cons.1 h with rfl | h
        · exact .inl (by simp)
        · rcases ih h with h | h
          · exact .inl (List.mem_cons_of_mem _ h)
          · exact .inr h

/-- A write below the bound keeps the canonical form. -/
theorem Sparse.set_wf {bound : Nat} {m : List (Nat × α)} {k : Nat} (v : α) (hk : k < bound)
    (hm : Sparse.wf dflt bound m = true) : Sparse.wf dflt bound (Sparse.set dflt m k v) = true := by
  rw [Sparse.wf_iff] at hm ⊢
  obtain ⟨hs, hv⟩ := hm
  constructor
  · clear hv
    induction m with
    | nil => simp only [Sparse.set]; split <;> simp
    | cons c m ih =>
      obtain ⟨j, w⟩ := c
      rw [List.pairwise_cons] at hs
      simp only [Sparse.set]
      split
      · next hlt =>
        split
        · exact List.pairwise_cons.2 hs
        · refine List.pairwise_cons.2 ⟨fun e he => ?_, List.pairwise_cons.2 hs⟩
          rcases List.mem_cons.1 he with rfl | he
          · exact hlt
          · exact Nat.lt_trans hlt (hs.1 e he)
      · split
        · next hkj =>
          split
          · exact hs.2
          · exact List.pairwise_cons.2 ⟨fun e he => hkj ▸ hs.1 e he, hs.2⟩
        · refine List.pairwise_cons.2 ⟨fun e he => ?_, ih hs.2⟩
          rcases Sparse.mem_set dflt he with he | ⟨rfl, _⟩
          · exact hs.1 e he
          · show j < k
            omega
  · intro e he
    rcases Sparse.mem_set dflt he with he | ⟨rfl, hne⟩
    · exact hv e he
    · exact ⟨hk, hne⟩

/-- Where the entries of a mapped list come from. -/
theorem Sparse.mem_map {f : α → α} {m : List (Nat × α)} {e : Nat × α} (h : e ∈ Sparse.map dflt f m) :
    ∃ v, (e.1, v) ∈ m ∧ e.2 = f v ∧ f v ≠ dflt := by
  induction m with
  | nil => cases h
  | cons c m ih =>
    obtain ⟨j, w⟩ := c
    simp only [Sparse.map] at h
    split at h
    · obtain ⟨v, h1, h2⟩ := ih h
      exact ⟨v, List.mem_cons_of_mem _ h1, h2⟩
    · rcases List.mem_cons.1 h with rfl | h
      · exact ⟨w, by simp, rfl, ‹_›⟩
      · obtain ⟨v, h1, h2⟩ := ih h
        exact ⟨v, List.mem_cons_of_mem _ h1, h2⟩

/-- Mapping keeps the canonical form. -/
theorem Sparse.map_wf {bound : Nat} {m : List (Nat × α)} (f : α → α) (hm : Sparse.wf dflt bound m = true) :
    Sparse.wf dflt bound (Sparse.map dflt f m) = true := by
  rw [Sparse.wf_iff] at hm ⊢
  obtain ⟨hs, hv⟩ := hm
  constructor
  · clear hv
    induction m with
    | nil => simp [Sparse.map]
    | cons c m ih =>
      obtain ⟨j, w⟩ := c
      rw [List.pairwise_cons] at hs
      simp only [Sparse.map]
      split
      · exact ih hs.2
      · refine List.pairwise_cons.2 ⟨fun e he => ?_, ih hs.2⟩
        obtain ⟨v, hmem, _⟩ := Sparse.mem_map dflt he
        have h := hs.1 _ hmem
        exact h
  · intro e he
    obtain ⟨v, hmem, hf, hne⟩ := Sparse.mem_map dflt he
    exact ⟨(hv _ hmem).1, hf ▸ hne⟩

/-- What a mapped list reads, for a function that keeps the default, in a list in canonical form. -/
theorem Sparse.get_map {bound : Nat} {f : α → α} {m : List (Nat × α)} (hf : f dflt = dflt) (k : Nat)
    (hm : Sparse.wf dflt bound m = true) : Sparse.get dflt (Sparse.map dflt f m) k = f (Sparse.get dflt m k) := by
  rw [Sparse.wf_iff] at hm
  have hs := hm.1
  clear hm
  induction m with
  | nil => simp [Sparse.map, hf]
  | cons c m ih =>
    obtain ⟨j, w⟩ := c
    rw [List.pairwise_cons] at hs
    simp only [Sparse.map]
    split
    · next h =>
      rw [ih hs.2, Sparse.get_cons]
      split
      · next hjk =>
        subst hjk
        rw [Sparse.get_of_lt dflt hs.1, hf, h]
      · rfl
    · simp only [Sparse.get_cons]
      split
      · rfl
      · exact ih hs.2

/-- Mapping twice with a function that settles at once is mapping once. -/
theorem Sparse.map_map {f : α → α} (hf : ∀ v, f (f v) = f v) (m : List (Nat × α)) :
    Sparse.map dflt f (Sparse.map dflt f m) = Sparse.map dflt f m := by
  induction m with
  | nil => rfl
  | cons c m ih =>
    obtain ⟨j, w⟩ := c
    by_cases h : f w = dflt
    · simp only [Sparse.map, h, if_true, ih]
    · simp only [Sparse.map, h, if_false, hf, ih]

end Sys2Proof.Machine
end

