-- ==== Sys2Proof/Laws/Memory.lean ====
section
/-! SUPPORT. The laws of memory: reads after writes, that every memory operation keeps the canonical form, and the byte
order of the accesses. -/

namespace Sys2Proof.Machine

/-! ### Single bytes -/

theorem Memory.read_write_self {m : Memory} (a : Nat) (v : Byte) (hm : m.wf = true) : (m.write a v).read a = v :=
  Sparse.get_set_self _ _ _ hm

theorem Memory.read_write_of_ne (m : Memory) {a a' : Nat} (v : Byte) (h : a' ≠ a) : (m.write a v).read a' = m.read a' :=
  Sparse.get_set_of_ne _ _ _ h

theorem Memory.write_wf {m : Memory} {a : Nat} (v : Byte) (ha : a < Config.memSize) (hm : m.wf = true) :
    (m.write a v).wf = true :=
  Sparse.set_wf _ _ ha hm

/-- The memory after reset has the canonical form. -/
theorem Memory.wf_reset : State.reset.mem.wf = true := rfl

/-! ### Byte sequences -/

@[simp] theorem Memory.length_bytesAt (m : Memory) (a n : Nat) : (m.bytesAt a n).length = n := by
  induction n generalizing a with
  | zero => rfl
  | succ n ih => simp [Memory.bytesAt, ih]

/-- The k-th byte of a read is the byte at the address plus k. -/
theorem Memory.getElem?_bytesAt (m : Memory) (a : Nat) {n k : Nat} (h : k < n) :
    (m.bytesAt a n)[k]? = some (m.read (a + k)) := by
  induction n generalizing a k with
  | zero => omega
  | succ n ih =>
    cases k with
    | zero => simp [Memory.bytesAt]
    | succ k =>
      simp only [Memory.bytesAt, List.getElem?_cons_succ]
      rw [ih (a + 1) (by omega)]
      congr 2
      omega

/-- A write of bytes leaves every address outside them alone. -/
theorem Memory.read_writeBytes_of_out (m : Memory) (a : Nat) (bs : List Byte) {x : Nat} (h : x < a ∨ a + bs.length ≤ x) :
    (m.writeBytes a bs).read x = m.read x := by
  induction bs generalizing m a with
  | nil => rfl
  | cons v bs ih =>
    simp only [List.length_cons] at h
    rw [Memory.writeBytes, ih (m.write a v) (a + 1) (by omega)]
    exact Memory.read_write_of_ne _ _ (by omega)

/-- A write of bytes inside memory keeps the canonical form. -/
theorem Memory.writeBytes_wf {m : Memory} {a : Nat} {bs : List Byte} (h : a + bs.length ≤ Config.memSize)
    (hm : m.wf = true) : (m.writeBytes a bs).wf = true := by
  induction bs generalizing m a with
  | nil => exact hm
  | cons v bs ih =>
    simp only [List.length_cons] at h
    exact ih (by omega) (Memory.write_wf v (by omega) hm)

/-- A write of bytes inside memory is read back byte by byte. -/
theorem Memory.read_writeBytes_at {m : Memory} {a : Nat} {bs : List Byte} {k : Nat} (h : a + bs.length ≤ Config.memSize)
    (hm : m.wf = true) (hk : k < bs.length) : (m.writeBytes a bs).read (a + k) = bs[k] := by
  induction bs generalizing m a k with
  | nil => simp at hk
  | cons v bs ih =>
    simp only [List.length_cons] at h hk
    have hw : (m.write a v).wf = true := Memory.write_wf v (by omega) hm
    cases k with
    | zero =>
      rw [Memory.writeBytes, Memory.read_writeBytes_of_out _ _ _ (by omega)]
      exact Memory.read_write_self a v hm
    | succ k =>
      have h1 := ih (m := m.write a v) (a := a + 1) (k := k) (by omega) hw (by omega)
      rw [Memory.writeBytes, List.getElem_cons_succ, ← h1]
      congr 1
      omega

/-! ### Byte order -/

theorem beNat_lt (bs : List Byte) : beNat bs < 256 ^ bs.length := by
  induction bs with
  | nil => simp [beNat]
  | cons v bs ih =>
    have hv : v.toNat < 256 := v.isLt
    simp only [beNat, List.length_cons, pow_succ]
    nlinarith [Nat.mul_le_mul_right (256 ^ bs.length) (Nat.lt_iff_add_one_le.1 hv)]

@[simp] theorem length_beBytes (n v : Nat) : (beBytes n v).length = n := by
  induction n with
  | zero => rfl
  | succ n ih => simp [beBytes, ih]

/-- The three bytes of a word access, most significant first. -/
theorem beBytes_three (v : Nat) :
    beBytes 3 v = [BitVec.ofNat 8 (v / 65536), BitVec.ofNat 8 (v / 256), BitVec.ofNat 8 v] := by
  simp [beBytes]

/-- The number that the three bytes of a word spell. -/
theorem beNat_three (m : Memory) (a : Nat) :
    beNat (m.bytesAt a 3) = (m.read a).toNat * 65536 + ((m.read (a + 1)).toNat * 256 + (m.read (a + 2)).toNat) := by
  simp [Memory.bytesAt, beNat, Nat.add_assoc]

/-! ### The bounds check -/

/-- The signed bounds check, said with the unsigned address: a negative address is above memory. -/
theorem inMemory_iff (addr : Word) (n : Nat) : InMemory addr n ↔ addr.toNat + n ≤ Config.memSize := by
  have h := addr.isLt
  simp only [InMemory, BitVec.toInt_eq_toNat_cond, Config.memSize]
  constructor
  · rintro ⟨h1, h2⟩
    split at h1 <;> split at h2 <;> omega
  · intro h3
    rw [if_pos (by omega)]
    omega

end Sys2Proof.Machine
end

