-- ==== Sys2Proof/Laws/State.lean ====
section
/-! SUPPORT. One lemma per field per update of State, so that no later proof unfolds a record update; and the registers
read after a write. -/

namespace Sys2Proof.Machine

/-! ### Registers -/

@[simp] theorem Regs.get_set_self (g : Regs) (r : Reg) (v : Word) : (g.set r v).get r = v := by
  cases r <;> rfl

theorem Regs.get_set_of_ne (g : Regs) {r r' : Reg} (v : Word) (h : r' ≠ r) : (g.set r v).get r' = g.get r' := by
  cases r <;> cases r' <;> first | rfl | exact absurd rfl h

/-- The register file is determined by what its registers read. -/
theorem Regs.ext_get {g h : Regs} (e : ∀ r, g.get r = h.get r) : g = h := by
  cases g
  cases h
  have ha := e .a
  have hx := e .x
  have hl := e .l
  have hb := e .b
  have hs := e .s
  have ht := e .t
  have hf := e .f
  have hp := e .pc
  have hw := e .sw
  simp only [Regs.get] at ha hx hl hb hs ht hf hp hw
  simp only [ha, hx, hl, hb, hs, ht, hf, hp, hw]

@[simp] theorem State.reg_setReg_self (s : State) (r : Reg) (v : Word) : (s.setReg r v).reg r = v :=
  Regs.get_set_self _ _ _

theorem State.reg_setReg_of_ne (s : State) {r r' : Reg} (v : Word) (h : r' ≠ r) : (s.setReg r v).reg r' = s.reg r' :=
  Regs.get_set_of_ne _ _ h

/-! ### setReg -/

@[simp] theorem State.regs_setReg (s : State) (r : Reg) (v : Word) : (s.setReg r v).regs = s.regs.set r v := rfl
@[simp] theorem State.facc_setReg (s : State) (r : Reg) (v : Word) : (s.setReg r v).facc = s.facc := rfl
@[simp] theorem State.cc_setReg (s : State) (r : Reg) (v : Word) : (s.setReg r v).cc = s.cc := rfl
@[simp] theorem State.mem_setReg (s : State) (r : Reg) (v : Word) : (s.setReg r v).mem = s.mem := rfl
@[simp] theorem State.run_setReg (s : State) (r : Reg) (v : Word) : (s.setReg r v).run = s.run := rfl
@[simp] theorem State.log_setReg (s : State) (r : Reg) (v : Word) : (s.setReg r v).log = s.log := rfl
@[simp] theorem State.lastTa_setReg (s : State) (r : Reg) (v : Word) : (s.setReg r v).lastTa = s.lastTa := rfl
@[simp] theorem State.lastDev_setReg (s : State) (r : Reg) (v : Word) : (s.setReg r v).lastDev = s.lastDev := rfl
@[simp] theorem State.devices_setReg (s : State) (r : Reg) (v : Word) : (s.setReg r v).devices = s.devices := rfl
@[simp] theorem State.env_setReg (s : State) (r : Reg) (v : Word) : (s.setReg r v).env = s.env := rfl

/-! ### raise -/

@[simp] theorem State.regs_raise (s : State) (f : Fault) : (s.raise f).regs = s.regs := rfl
@[simp] theorem State.facc_raise (s : State) (f : Fault) : (s.raise f).facc = s.facc := rfl
@[simp] theorem State.cc_raise (s : State) (f : Fault) : (s.raise f).cc = s.cc := rfl
@[simp] theorem State.mem_raise (s : State) (f : Fault) : (s.raise f).mem = s.mem := rfl
@[simp] theorem State.run_raise (s : State) (f : Fault) : (s.raise f).run = .faulted f := rfl
@[simp] theorem State.log_raise (s : State) (f : Fault) : (s.raise f).log = s.log := rfl
@[simp] theorem State.lastTa_raise (s : State) (f : Fault) : (s.raise f).lastTa = s.lastTa := rfl
@[simp] theorem State.lastDev_raise (s : State) (f : Fault) : (s.raise f).lastDev = s.lastDev := rfl
@[simp] theorem State.devices_raise (s : State) (f : Fault) : (s.raise f).devices = s.devices := rfl
@[simp] theorem State.env_raise (s : State) (f : Fault) : (s.raise f).env = s.env := rfl

/-! ### closeAll -/

@[simp] theorem State.regs_closeAll (s : State)  : (s.closeAll).regs = s.regs := rfl
@[simp] theorem State.facc_closeAll (s : State)  : (s.closeAll).facc = s.facc := rfl
@[simp] theorem State.cc_closeAll (s : State)  : (s.closeAll).cc = s.cc := rfl
@[simp] theorem State.mem_closeAll (s : State)  : (s.closeAll).mem = s.mem := rfl
@[simp] theorem State.run_closeAll (s : State)  : (s.closeAll).run = s.run := rfl
@[simp] theorem State.log_closeAll (s : State)  : (s.closeAll).log = s.log := rfl
@[simp] theorem State.lastTa_closeAll (s : State)  : (s.closeAll).lastTa = s.lastTa := rfl
@[simp] theorem State.lastDev_closeAll (s : State)  : (s.closeAll).lastDev = s.lastDev := rfl
@[simp] theorem State.devices_closeAll (s : State)  : (s.closeAll).devices = Sparse.map Device.unused Device.close s.devices := rfl
@[simp] theorem State.env_closeAll (s : State)  : (s.closeAll).env = s.env := rfl

/-! ### setDevice -/

@[simp] theorem State.regs_setDevice (s : State) (d : Byte) (dev : Device) : (s.setDevice d dev).regs = s.regs := rfl
@[simp] theorem State.facc_setDevice (s : State) (d : Byte) (dev : Device) : (s.setDevice d dev).facc = s.facc := rfl
@[simp] theorem State.cc_setDevice (s : State) (d : Byte) (dev : Device) : (s.setDevice d dev).cc = s.cc := rfl
@[simp] theorem State.mem_setDevice (s : State) (d : Byte) (dev : Device) : (s.setDevice d dev).mem = s.mem := rfl
@[simp] theorem State.run_setDevice (s : State) (d : Byte) (dev : Device) : (s.setDevice d dev).run = s.run := rfl
@[simp] theorem State.log_setDevice (s : State) (d : Byte) (dev : Device) : (s.setDevice d dev).log = s.log := rfl
@[simp] theorem State.lastTa_setDevice (s : State) (d : Byte) (dev : Device) : (s.setDevice d dev).lastTa = s.lastTa := rfl
@[simp] theorem State.lastDev_setDevice (s : State) (d : Byte) (dev : Device) : (s.setDevice d dev).lastDev = s.lastDev := rfl
@[simp] theorem State.devices_setDevice (s : State) (d : Byte) (dev : Device) : (s.setDevice d dev).devices = Sparse.set Device.unused s.devices d.toNat dev := rfl
@[simp] theorem State.env_setDevice (s : State) (d : Byte) (dev : Device) : (s.setDevice d dev).env = s.env := rfl

/-! ### noteDevice -/

@[simp] theorem State.regs_noteDevice (s : State) (ta : Word) (d : Byte) : (s.noteDevice ta d).regs = s.regs := rfl
@[simp] theorem State.facc_noteDevice (s : State) (ta : Word) (d : Byte) : (s.noteDevice ta d).facc = s.facc := rfl
@[simp] theorem State.cc_noteDevice (s : State) (ta : Word) (d : Byte) : (s.noteDevice ta d).cc = s.cc := rfl
@[simp] theorem State.mem_noteDevice (s : State) (ta : Word) (d : Byte) : (s.noteDevice ta d).mem = s.mem := rfl
@[simp] theorem State.run_noteDevice (s : State) (ta : Word) (d : Byte) : (s.noteDevice ta d).run = s.run := rfl
@[simp] theorem State.log_noteDevice (s : State) (ta : Word) (d : Byte) : (s.noteDevice ta d).log = s.log := rfl
@[simp] theorem State.lastTa_noteDevice (s : State) (ta : Word) (d : Byte) : (s.noteDevice ta d).lastTa = some ta := rfl
@[simp] theorem State.lastDev_noteDevice (s : State) (ta : Word) (d : Byte) : (s.noteDevice ta d).lastDev = some d := rfl
@[simp] theorem State.devices_noteDevice (s : State) (ta : Word) (d : Byte) : (s.noteDevice ta d).devices = s.devices := rfl
@[simp] theorem State.env_noteDevice (s : State) (ta : Word) (d : Byte) : (s.noteDevice ta d).env = s.env := rfl

/-! ### noteTarget -/

@[simp] theorem State.regs_noteTarget (s : State) (ta : Option Word) : (s.noteTarget ta).regs = s.regs := by
  cases ta <;> rfl
@[simp] theorem State.facc_noteTarget (s : State) (ta : Option Word) : (s.noteTarget ta).facc = s.facc := by
  cases ta <;> rfl
@[simp] theorem State.cc_noteTarget (s : State) (ta : Option Word) : (s.noteTarget ta).cc = s.cc := by
  cases ta <;> rfl
@[simp] theorem State.mem_noteTarget (s : State) (ta : Option Word) : (s.noteTarget ta).mem = s.mem := by
  cases ta <;> rfl
@[simp] theorem State.run_noteTarget (s : State) (ta : Option Word) : (s.noteTarget ta).run = s.run := by
  cases ta <;> rfl
@[simp] theorem State.log_noteTarget (s : State) (ta : Option Word) : (s.noteTarget ta).log = s.log := by
  cases ta <;> rfl
@[simp] theorem State.lastTa_noteTarget (s : State) (ta : Option Word) : (s.noteTarget ta).lastTa = ta.or s.lastTa := by
  cases ta <;> rfl
@[simp] theorem State.lastDev_noteTarget (s : State) (ta : Option Word) : (s.noteTarget ta).lastDev = s.lastDev := by
  cases ta <;> rfl
@[simp] theorem State.devices_noteTarget (s : State) (ta : Option Word) : (s.noteTarget ta).devices = s.devices := by
  cases ta <;> rfl
@[simp] theorem State.env_noteTarget (s : State) (ta : Option Word) : (s.noteTarget ta).env = s.env := by
  cases ta <;> rfl

/-! ### retire -/

@[simp] theorem State.regs_retire (s : State) (m : Mnemonic) (npc : Word) :
    (s.retire m npc).regs = { s.regs with pc := npc } := by
  unfold State.retire
  by_cases h : npc = 0#32 <;> simp [h]
@[simp] theorem State.facc_retire (s : State) (m : Mnemonic) (npc : Word) :
    (s.retire m npc).facc = s.facc := by
  unfold State.retire
  by_cases h : npc = 0#32 <;> simp [h]
@[simp] theorem State.cc_retire (s : State) (m : Mnemonic) (npc : Word) :
    (s.retire m npc).cc = s.cc := by
  unfold State.retire
  by_cases h : npc = 0#32 <;> simp [h]
@[simp] theorem State.mem_retire (s : State) (m : Mnemonic) (npc : Word) :
    (s.retire m npc).mem = s.mem := by
  unfold State.retire
  by_cases h : npc = 0#32 <;> simp [h]
@[simp] theorem State.run_retire (s : State) (m : Mnemonic) (npc : Word) :
    (s.retire m npc).run = if npc = 0#32 then .halted else s.run := by
  unfold State.retire
  by_cases h : npc = 0#32 <;> simp [h]
@[simp] theorem State.log_retire (s : State) (m : Mnemonic) (npc : Word) :
    (s.retire m npc).log = s.log ++ [m] := by
  unfold State.retire
  by_cases h : npc = 0#32 <;> simp [h]
@[simp] theorem State.lastTa_retire (s : State) (m : Mnemonic) (npc : Word) :
    (s.retire m npc).lastTa = s.lastTa := by
  unfold State.retire
  by_cases h : npc = 0#32 <;> simp [h]
@[simp] theorem State.lastDev_retire (s : State) (m : Mnemonic) (npc : Word) :
    (s.retire m npc).lastDev = s.lastDev := by
  unfold State.retire
  by_cases h : npc = 0#32 <;> simp [h]
@[simp] theorem State.devices_retire (s : State) (m : Mnemonic) (npc : Word) :
    (s.retire m npc).devices = if npc = 0#32 then s.closeAll.devices else s.devices := by
  unfold State.retire
  by_cases h : npc = 0#32 <;> simp [h]
@[simp] theorem State.env_retire (s : State) (m : Mnemonic) (npc : Word) :
    (s.retire m npc).env = s.env := by
  unfold State.retire
  by_cases h : npc = 0#32 <;> simp [h]

/-- Two states are equal when their fields are. -/
theorem State.ext_fields {s t : State} (h1 : s.regs = t.regs) (h2 : s.facc = t.facc) (h3 : s.cc = t.cc) (h4 : s.mem = t.mem)
    (h5 : s.run = t.run) (h6 : s.log = t.log) (h7 : s.lastTa = t.lastTa) (h8 : s.lastDev = t.lastDev)
    (h9 : s.devices = t.devices) (h10 : s.env = t.env) : s = t := by
  cases s
  cases t
  simp only at h1 h2 h3 h4 h5 h6 h7 h8 h9 h10
  simp only [h1, h2, h3, h4, h5, h6, h7, h8, h9, h10]

end Sys2Proof.Machine
end

