-- ==== Sys2Proof/Laws/Ops.lean ====
section
/-! SUPPORT. One lemma per shared operation: the bounds check and the accesses, the operand forms, fault entry, retire and
the frame around a handler. They say everything the operation can answer. -/

namespace Sys2Proof.Machine

/-! ### The bounds check and the accesses -/

theorem State.checked_eq_ok {α : Type} {s : State} {addr : Word} {n : Nat} {v w : α} :
    s.checked addr n v = .ok w ↔ InMemory addr n ∧ v = w := by
  unfold State.checked
  by_cases h : InMemory addr n
  · rw [if_pos h, Except.ok.injEq]
    exact ⟨fun e => ⟨h, e⟩, fun e => e.2⟩
  · rw [if_neg h]
    exact ⟨fun e => (nomatch e), fun e => absurd e.1 h⟩

theorem State.checked_eq_error {α : Type} {s : State} {addr : Word} {n : Nat} {v : α} {f : Fault} :
    s.checked addr n v = .error f ↔ ¬ InMemory addr n ∧ f = .outOfRangeMemory addr n s.regs.pc := by
  unfold State.checked
  by_cases h : InMemory addr n
  · rw [if_pos h]
    exact ⟨fun e => (nomatch e), fun e => absurd h e.1⟩
  · rw [if_neg h, Except.error.injEq]
    exact ⟨fun e => ⟨h, e.symm⟩, fun e => e.2.symm⟩

theorem State.memRead_eq_ok {s : State} {addr : Word} {n : Nat} {v : Word} :
    s.memRead addr n = .ok v ↔ InMemory addr n ∧ BitVec.ofNat 32 (beNat (s.mem.bytesAt addr.toNat n)) = v :=
  State.checked_eq_ok

theorem State.memRead_eq_error {s : State} {addr : Word} {n : Nat} {f : Fault} :
    s.memRead addr n = .error f ↔ ¬ InMemory addr n ∧ f = .outOfRangeMemory addr n s.regs.pc :=
  State.checked_eq_error

theorem State.memByte_eq_ok {s : State} {addr : Word} {v : Byte} :
    s.memByte addr = .ok v ↔ InMemory addr 1 ∧ s.mem.read addr.toNat = v :=
  State.checked_eq_ok

theorem State.memByte_eq_error {s : State} {addr : Word} {f : Fault} :
    s.memByte addr = .error f ↔ ¬ InMemory addr 1 ∧ f = .outOfRangeMemory addr 1 s.regs.pc :=
  State.checked_eq_error

theorem State.memBytes_eq_ok {s : State} {addr : Word} {n : Nat} {v : List Byte} :
    s.memBytes addr n = .ok v ↔ InMemory addr n ∧ s.mem.bytesAt addr.toNat n = v :=
  State.checked_eq_ok

theorem State.memBytes_eq_error {s : State} {addr : Word} {n : Nat} {f : Fault} :
    s.memBytes addr n = .error f ↔ ¬ InMemory addr n ∧ f = .outOfRangeMemory addr n s.regs.pc :=
  State.checked_eq_error

theorem State.memWrite_eq_ok {s t : State} {addr : Word} {n : Nat} {v : Word} :
    s.memWrite addr n v = .ok t ↔
      InMemory addr n ∧ { s with mem := s.mem.writeBytes addr.toNat (beBytes n v.toNat) } = t :=
  State.checked_eq_ok

theorem State.memWrite_eq_error {s : State} {addr : Word} {n : Nat} {v : Word} {f : Fault} :
    s.memWrite addr n v = .error f ↔ ¬ InMemory addr n ∧ f = .outOfRangeMemory addr n s.regs.pc :=
  State.checked_eq_error

/-- A completed store keeps the canonical form of memory. -/
theorem State.memWrite_keeps_wf {s t : State} {addr : Word} {n : Nat} {v : Word} (h : s.memWrite addr n v = .ok t)
    (hm : s.mem.wf = true) : t.mem.wf = true := by
  obtain ⟨hin, rfl⟩ := State.memWrite_eq_ok.1 h
  rw [inMemory_iff] at hin
  exact Memory.writeBytes_wf (by simpa using hin) hm

/-! ### Operand forms -/

/-- A register field names a register exactly when it is at most 8. -/
theorem State.regIndex_eq_ok {s : State} {r : BitVec 4} {reg : Reg} :
    s.regIndex r = .ok reg ↔ Reg.ofIndex r.toNat = some reg := by
  unfold State.regIndex
  cases Reg.ofIndex r.toNat <;> simp

theorem State.regIndex_eq_error {s : State} {r : BitVec 4} {f : Fault} :
    s.regIndex r = .error f ↔ Reg.ofIndex r.toNat = none ∧ f = .outOfRangeRegister r s.regs.pc := by
  unfold State.regIndex
  cases Reg.ofIndex r.toNat <;> simp [eq_comm]

theorem Reg.ofIndex_eq_none {k : Nat} : Reg.ofIndex k = none ↔ 8 < k := by
  simp only [Reg.ofIndex, List.getElem?_eq_none_iff, List.length_cons, List.length_nil]
  omega

/-- Everything `TargetAddress()` can answer with. -/
theorem targetAddress_eq_ok {o : Operand} {next ta : Word} {s : State} :
    targetAddress o next s = .ok ta ↔
      o.isImmediate = false ∧
        ((o.isIndirect = true ∧ s.memRead (baseAddress o next s) 3 = .ok ta) ∨
          (o.isIndirect = false ∧ baseAddress o next s = ta)) := by
  unfold targetAddress
  cases himm : o.isImmediate <;> cases hind : o.isIndirect <;> simp

/-- Every fault of `TargetAddress()`. -/
theorem targetAddress_eq_error {o : Operand} {next : Word} {s : State} {f : Fault} :
    targetAddress o next s = .error f ↔
      (o.isImmediate = true ∧ f = .undefinedAddressing s.regs.pc) ∨
        (o.isImmediate = false ∧ o.isIndirect = true ∧ ¬ InMemory (baseAddress o next s) 3 ∧
          f = .outOfRangeMemory (baseAddress o next s) 3 s.regs.pc) := by
  unfold targetAddress
  cases himm : o.isImmediate <;> cases hind : o.isIndirect <;> simp [State.memRead_eq_error, eq_comm (a := f)]

/-- Everything `OperandValue(k)` can answer with. -/
theorem operandValue_eq_ok {k : Nat} {o : Operand} {next v : Word} {s : State} {ta : Option Word} :
    operandValue k o next s = .ok (v, ta) ↔
      (o.isImmediate = true ∧ v = o.raw ∧ ta = none) ∨
        ∃ a, targetAddress o next s = .ok a ∧ s.memRead a k = .ok v ∧ ta = some a := by
  by_cases himm : o.isImmediate = true
  · have h : ∀ a, targetAddress o next s ≠ .ok a := by
      intro a h
      rw [targetAddress_eq_ok] at h
      simp_all
    simp [operandValue, himm, h, eq_comm]
  · simp only [operandValue, himm]
    cases ht : targetAddress o next s with
    | error f => simp
    | ok a =>
      cases hr : s.memRead a k with
      | error f => simp [hr]
      | ok w => simp [hr, eq_comm]

/-- Every fault of `OperandValue(k)`. -/
theorem operandValue_eq_error {k : Nat} {o : Operand} {next : Word} {s : State} {f : Fault} :
    operandValue k o next s = .error f ↔
      o.isImmediate = false ∧
        (targetAddress o next s = .error f ∨ ∃ a, targetAddress o next s = .ok a ∧ s.memRead a k = .error f) := by
  by_cases himm : o.isImmediate = true
  · simp [operandValue, himm]
  · simp only [operandValue, himm]
    cases ht : targetAddress o next s with
    | error g => simp
    | ok a =>
      cases hr : s.memRead a k with
      | error g => simp [hr]
      | ok w => simp [hr]

/-! ### Fault entry, retire, and the frame around a handler -/

@[simp] theorem State.settle_error (s : State) (m : Mnemonic) (f : Fault) : s.settle m (.error f) = s.raise f := rfl

@[simp] theorem State.settle_ok (s t : State) (m : Mnemonic) (npc : Word) : s.settle m (.ok (t, npc)) = t.retire m npc := rfl

theorem execute_eq (m : Mnemonic) (len : Nat) (h : Word → State → Except Fault (State × Word)) (s : State) :
    execute m len h s = .next (s.settle m (h (s.nextPc len) s)) := rfl

theorem State.retire_of_ne (s : State) (m : Mnemonic) {npc : Word} (h : npc ≠ 0#32) :
    s.retire m npc = { s with log := s.log ++ [m], regs := { s.regs with pc := npc } } := by
  simp [State.retire, h]

theorem State.retire_zero (s : State) (m : Mnemonic) :
    s.retire m 0#32 =
      { s with
        log := s.log ++ [m], regs := { s.regs with pc := 0#32 }
        devices := Sparse.map Device.unused Device.close s.devices, run := .halted } := by
  simp [State.retire, State.closeAll]

/-! ### Closing the devices -/

@[simp] theorem Device.close_unused : Device.unused.close = Device.unused := rfl

@[simp] theorem Device.close_close (d : Device) : d.close.close = d.close := rfl

@[simp] theorem Device.readOpen_close (d : Device) : d.close.readOpen = false := rfl

@[simp] theorem Device.writeOpen_close (d : Device) : d.close.writeOpen = false := rfl

@[simp] theorem Device.input_close (d : Device) : d.close.input = [] := rfl

@[simp] theorem Device.cursor_close (d : Device) : d.close.cursor = 0 := rfl

@[simp] theorem Device.output_close (d : Device) : d.close.output = d.output := rfl

/-- What a device is after `DevCloseAll()`. -/
theorem State.device_closeAll {s : State} (d : Byte) (h : Sparse.wf Device.unused 256 s.devices = true) :
    s.closeAll.device d = (s.device d).close :=
  Sparse.get_map Device.unused rfl d.toNat h

/-- Every listed device is closed after `DevCloseAll()`. -/
theorem State.closed_of_mem_closeAll {s : State} {e : Nat × Device} (h : e ∈ s.closeAll.devices) :
    ∃ d : Device, e.2 = d.close := by
  obtain ⟨v, _, hv, _⟩ := Sparse.mem_map Device.unused h
  exact ⟨v, hv⟩

/-- The device read after one was replaced. -/
theorem State.device_setDevice_self {s : State} (d : Byte) (dev : Device)
    (h : Sparse.wf Device.unused 256 s.devices = true) : (s.setDevice d dev).device d = dev :=
  Sparse.get_set_self _ _ _ h

theorem State.device_setDevice_of_ne (s : State) {d d' : Byte} (dev : Device) (h : d' ≠ d) :
    (s.setDevice d dev).device d' = s.device d' :=
  Sparse.get_set_of_ne _ _ _ fun e => h (BitVec.eq_of_toNat_eq e)

/-- Replacing a device keeps the canonical form of the device table. -/
theorem State.setDevice_keeps_wf {s : State} (d : Byte) (dev : Device)
    (h : Sparse.wf Device.unused 256 s.devices = true) : Sparse.wf Device.unused 256 (s.setDevice d dev).devices = true :=
  Sparse.set_wf _ _ d.isLt h

/-- Closing the devices keeps the canonical form of the device table. -/
theorem State.closeAll_keeps_wf {s : State} (h : Sparse.wf Device.unused 256 s.devices = true) :
    Sparse.wf Device.unused 256 s.closeAll.devices = true :=
  Sparse.map_wf _ _ h

end Sys2Proof.Machine
end

