-- ==== Sys2Proof/Laws/Devices.lean ====
section
/-! SUPPORT. Everything the device transactions can answer, and the device identifier. -/

namespace Sys2Proof.Machine

/-- Everything the device identifier can be. -/
theorem deviceId_eq_ok {o : Operand} {next ta : Word} {s : State} {d : Byte} :
    deviceId o next s = .ok (d, ta) ↔ targetAddress o next s = .ok ta ∧ s.memByte ta = .ok d := by
  unfold deviceId
  cases ht : targetAddress o next s with
  | error f => simp
  | ok a =>
    simp only [Except.ok.injEq]
    cases hb : s.memByte a with
    | error f =>
      refine ⟨fun e => (nomatch e), ?_⟩
      rintro ⟨rfl, h⟩
      simp [hb] at h
    | ok b =>
      simp only [Except.ok.injEq, Prod.mk.injEq]
      constructor
      · rintro ⟨rfl, rfl⟩
        exact ⟨rfl, hb⟩
      · rintro ⟨rfl, h⟩
        rw [hb, Except.ok.injEq] at h
        exact ⟨h, rfl⟩

/-- Every fault of reading the device identifier. -/
theorem deviceId_eq_error {o : Operand} {next : Word} {s : State} {f : Fault} :
    deviceId o next s = .error f ↔
      targetAddress o next s = .error f ∨ ∃ ta, targetAddress o next s = .ok ta ∧ s.memByte ta = .error f := by
  unfold deviceId
  cases ht : targetAddress o next s with
  | error f => simp
  | ok a =>
    simp only [Except.ok.injEq, reduceCtorEq, false_or]
    cases hb : s.memByte a <;> simp [hb]

/-- Opening for reading: the handle was open, or the environment lets it be opened at the start of its input. -/
theorem State.openForRead_eq_ok {s : State} {d : Byte} {dev : Device} :
    s.openForRead d = .ok dev ↔
      ((s.device d).readOpen = true ∧ dev = s.device d) ∨
        ((s.device d).readOpen = false ∧ s.env.canRead d = true ∧
          dev = { s.device d with readOpen := true, input := s.env.input d, cursor := 0 }) := by
  unfold State.openForRead
  cases h1 : (s.device d).readOpen <;> cases h2 : s.env.canRead d <;> simp [h1, eq_comm (a := dev)]

theorem State.openForRead_eq_error {s : State} {d : Byte} {f : Fault} :
    s.openForRead d = .error f ↔
      (s.device d).readOpen = false ∧ s.env.canRead d = false ∧ f = .deviceError d s.regs.pc := by
  unfold State.openForRead
  cases h1 : (s.device d).readOpen <;> cases h2 : s.env.canRead d <;> simp [h1, eq_comm (a := f)]

/-- Opening for writing: the handle was open, or the environment lets it be opened. -/
theorem State.openForWrite_eq_ok {s : State} {d : Byte} {dev : Device} :
    s.openForWrite d = .ok dev ↔
      ((s.device d).writeOpen = true ∧ dev = s.device d) ∨
        ((s.device d).writeOpen = false ∧ s.env.canWrite d = true ∧
          dev = { s.device d with
                  writeOpen := true, output := if s.env.truncates d = true then [] else (s.device d).output }) := by
  unfold State.openForWrite
  cases h1 : (s.device d).writeOpen <;> cases h2 : s.env.canWrite d <;> simp [h1, eq_comm (a := dev)]

theorem State.openForWrite_eq_error {s : State} {d : Byte} {f : Fault} :
    s.openForWrite d = .error f ↔
      (s.device d).writeOpen = false ∧ s.env.canWrite d = false ∧ f = .deviceError d s.regs.pc := by
  unfold State.openForWrite
  cases h1 : (s.device d).writeOpen <;> cases h2 : s.env.canWrite d <;> simp [h1, eq_comm (a := f)]

/-- Everything `DevRead` can answer: the byte at the cursor, which advances, or 0 at the end, where it stays. -/
theorem State.devRead_eq_ok {s t : State} {d v : Byte} :
    s.devRead d = .ok (v, t) ↔
      ∃ dev, s.openForRead d = .ok dev ∧
        ((dev.input[dev.cursor]? = some v ∧
            t = { s.setDevice d { dev with cursor := dev.cursor + 1 } with env := s.env.tick }) ∨
          (dev.input[dev.cursor]? = none ∧ v = 0#8 ∧ t = { s.setDevice d dev with env := s.env.tick })) := by
  unfold State.devRead
  cases ho : s.openForRead d with
  | error f => simp
  | ok dev =>
    simp only [Except.ok.injEq, exists_eq_left']
    cases hb : dev.input[dev.cursor]? <;>
      simp only [Except.ok.injEq, Prod.mk.injEq, Option.some.injEq, reduceCtorEq, false_and, or_false, false_or, true_and,
        eq_comm (a := v), eq_comm (a := t)]

theorem State.devRead_eq_error {s : State} {d : Byte} {f : Fault} :
    s.devRead d = .error f ↔ s.openForRead d = .error f := by
  unfold State.devRead
  cases ho : s.openForRead d with
  | error f => simp
  | ok dev => cases hb : dev.input[dev.cursor]? <;> simp [hb]

/-- Everything `DevWrite` can answer: the byte is appended. -/
theorem State.devWrite_eq_ok {s t : State} {d v : Byte} :
    s.devWrite d v = .ok t ↔
      ∃ dev, s.openForWrite d = .ok dev ∧
        t = { s.setDevice d { dev with output := dev.output ++ [v] } with env := s.env.tick } := by
  unfold State.devWrite
  cases ho : s.openForWrite d <;> simp [eq_comm (a := t)]

theorem State.devWrite_eq_error {s : State} {d v : Byte} {f : Fault} :
    s.devWrite d v = .error f ↔ s.openForWrite d = .error f := by
  unfold State.devWrite
  cases ho : s.openForWrite d <;> simp

end Sys2Proof.Machine
end

