-- ==== Sys2Proof/Laws/Handlers.lean ====
section
/-! SUPPORT. Everything each handler can answer, the handler of each instruction, and what every instruction has in common. -/

namespace Sys2Proof.Machine

/-! ### The handlers -/

theorem loadWord_eq_ok {r : Reg} {o : Operand} {next npc : Word} {s t : State} :
    loadWord r o next s = .ok (t, npc) ↔
      ∃ v ta, operandValue 3 o next s = .ok (v, ta) ∧ t = (s.setReg r v).noteTarget ta ∧ npc = next := by
  unfold loadWord
  cases h : operandValue 3 o next s with
  | error f => simp
  | ok p =>
    obtain ⟨v, ta⟩ := p
    simp [eq_comm (a := t), eq_comm (a := npc)]

theorem loadByte_eq_ok {o : Operand} {next npc : Word} {s t : State} :
    loadByte o next s = .ok (t, npc) ↔
      ∃ v ta, operandValue 1 o next s = .ok (v, ta) ∧
        t = (s.setReg .a (withLowByte (s.reg .a) (v.setWidth 8))).noteTarget ta ∧ npc = next := by
  unfold loadByte
  cases h : operandValue 1 o next s with
  | error f => simp
  | ok p =>
    obtain ⟨v, ta⟩ := p
    simp [eq_comm (a := t), eq_comm (a := npc)]

theorem storeBytes_eq_ok {r : Reg} {k : Nat} {o : Operand} {next npc : Word} {s t : State} :
    storeBytes r k o next s = .ok (t, npc) ↔
      ∃ ta u, targetAddress o next s = .ok ta ∧ s.memWrite ta k (s.reg r) = .ok u ∧ t = u.noteTarget (some ta) ∧
        npc = next := by
  unfold storeBytes
  cases h : targetAddress o next s with
  | error f => simp
  | ok ta =>
    simp only [Except.ok.injEq]
    cases hw : s.memWrite ta k (s.reg r) <;> simp [hw, eq_comm (a := t), eq_comm (a := npc)]

theorem compareWord_eq_ok {o : Operand} {next npc : Word} {s t : State} :
    compareWord o next s = .ok (t, npc) ↔
      ∃ v ta, operandValue 3 o next s = .ok (v, ta) ∧ t = { s with cc := compareSigned s.regs.a v }.noteTarget ta ∧ npc = next := by
  unfold compareWord
  cases h : operandValue 3 o next s with
  | error f => simp
  | ok p =>
    obtain ⟨v, ta⟩ := p
    simp [eq_comm (a := t), eq_comm (a := npc)]

theorem compareRegs_eq_ok {f : Format2} {next npc : Word} {s t : State} :
    compareRegs f next s = .ok (t, npc) ↔
      ∃ r1 r2, s.regIndex f.r1 = .ok r1 ∧ s.regIndex f.r2 = .ok r2 ∧
        t = { s with cc := compareSigned (s.reg r1) (s.reg r2) } ∧ npc = next := by
  unfold compareRegs
  cases h : s.regIndex f.r1 with
  | error e => simp
  | ok r1 =>
    simp only [Except.ok.injEq]
    cases h2 : s.regIndex f.r2 <;> simp [eq_comm (a := t), eq_comm (a := npc)]

theorem branchIf_eq_ok {want : CC} {o : Operand} {next npc : Word} {s t : State} :
    branchIf want o next s = .ok (t, npc) ↔
      ∃ ta, targetAddress o next s = .ok ta ∧ t = s.noteTarget (some ta) ∧
        npc = if s.cc = want then ta else next := by
  unfold branchIf
  cases h : targetAddress o next s <;> simp [eq_comm (a := t), eq_comm (a := npc)]

theorem jump_eq_ok {o : Operand} {next npc : Word} {s t : State} :
    jump o next s = .ok (t, npc) ↔
      ∃ ta, targetAddress o next s = .ok ta ∧ t = s.noteTarget (some ta) ∧ npc = ta := by
  unfold jump
  cases h : targetAddress o next s with
  | error f => simp
  | ok ta =>
    simp only [Except.ok.injEq, Prod.mk.injEq]
    constructor
    · rintro ⟨rfl, rfl⟩
      exact ⟨ta, rfl, rfl, rfl⟩
    · rintro ⟨a, rfl, rfl, rfl⟩
      exact ⟨rfl, rfl⟩

theorem call_eq_ok {o : Operand} {next npc : Word} {s t : State} :
    call o next s = .ok (t, npc) ↔
      ∃ ta, targetAddress o next s = .ok ta ∧ t = (s.setReg .l next).noteTarget (some ta) ∧ npc = ta := by
  unfold call
  cases h : targetAddress o next s with
  | error f => simp
  | ok ta =>
    simp only [Except.ok.injEq, Prod.mk.injEq]
    constructor
    · rintro ⟨rfl, rfl⟩
      exact ⟨ta, rfl, rfl, rfl⟩
    · rintro ⟨a, rfl, rfl, rfl⟩
      exact ⟨rfl, rfl⟩

theorem returnThroughL_eq_ok {next npc : Word} {s t : State} :
    returnThroughL next s = .ok (t, npc) ↔ t = s ∧ npc = s.reg .l := by
  simp [returnThroughL, eq_comm (a := t), eq_comm (a := npc)]

theorem incrementCompare_eq_ok {f : Format2} {next npc : Word} {s t : State} :
    incrementCompare f next s = .ok (t, npc) ↔
      ∃ r, s.regIndex f.r1 = .ok r ∧ npc = next ∧
        t = { s.setReg .x (s.reg .x + 1#32) with
              cc := compareSigned (s.reg .x + 1#32) ((s.setReg .x (s.reg .x + 1#32)).reg r) } := by
  unfold incrementCompare
  cases h : s.regIndex f.r1 <;> simp [eq_comm (a := t), eq_comm (a := npc), and_comm]

theorem clearReg_eq_ok {f : Format2} {next npc : Word} {s t : State} :
    clearReg f next s = .ok (t, npc) ↔ ∃ r, s.regIndex f.r1 = .ok r ∧ t = s.setReg r 0#32 ∧ npc = next := by
  unfold clearReg
  cases h : s.regIndex f.r1 <;> simp [eq_comm (a := t), eq_comm (a := npc)]

theorem testDevice_eq_ok {o : Operand} {next npc : Word} {s t : State} :
    testDevice o next s = .ok (t, npc) ↔
      ∃ d ta, deviceId o next s = .ok (d, ta) ∧ npc = next ∧
        t = { (s.devTest d).2 with cc := ccOfReady (s.devTest d).1 }.noteDevice ta d := by
  unfold testDevice
  cases h : deviceId o next s with
  | error f => simp
  | ok p =>
    obtain ⟨d, ta⟩ := p
    simp [eq_comm (a := t), eq_comm (a := npc), and_comm]

theorem readDevice_eq_ok {o : Operand} {next npc : Word} {s t : State} :
    readDevice o next s = .ok (t, npc) ↔
      ∃ d ta v u, deviceId o next s = .ok (d, ta) ∧ s.devRead d = .ok (v, u) ∧ npc = next ∧
        t = (u.setReg .a (withLowByte (s.reg .a) v)).noteDevice ta d := by
  unfold readDevice
  cases h : deviceId o next s with
  | error f => simp
  | ok p =>
    obtain ⟨d, ta⟩ := p
    simp only [Except.ok.injEq, Prod.mk.injEq]
    cases h2 : s.devRead d with
    | error f =>
      refine ⟨fun e => (nomatch e), ?_⟩
      rintro ⟨d', ta', v, u, ⟨rfl, rfl⟩, h3, _⟩
      rw [h2] at h3
      cases h3
    | ok q =>
      obtain ⟨v, u⟩ := q
      simp only [Except.ok.injEq, Prod.mk.injEq]
      constructor
      · rintro ⟨rfl, rfl⟩
        exact ⟨d, ta, v, u, ⟨rfl, rfl⟩, h2, rfl, rfl⟩
      · rintro ⟨d', ta', v', u', ⟨rfl, rfl⟩, h3, rfl, rfl⟩
        rw [h2, Except.ok.injEq, Prod.mk.injEq] at h3
        rw [h3.1, h3.2]
        exact ⟨rfl, rfl⟩

theorem writeDevice_eq_ok {o : Operand} {next npc : Word} {s t : State} :
    writeDevice o next s = .ok (t, npc) ↔
      ∃ d ta u, deviceId o next s = .ok (d, ta) ∧ s.devWrite d ((s.reg .a).setWidth 8) = .ok u ∧ npc = next ∧
        t = u.noteDevice ta d := by
  unfold writeDevice
  cases h : deviceId o next s with
  | error f => simp
  | ok p =>
    obtain ⟨d, ta⟩ := p
    simp only [Except.ok.injEq, Prod.mk.injEq]
    cases h2 : s.devWrite d ((s.reg .a).setWidth 8) with
    | error f =>
      refine ⟨fun e => (nomatch e), ?_⟩
      rintro ⟨d', ta', u, ⟨rfl, rfl⟩, h3, _⟩
      rw [h2] at h3
      cases h3
    | ok u =>
      simp only [Except.ok.injEq, Prod.mk.injEq]
      constructor
      · rintro ⟨rfl, rfl⟩
        exact ⟨d, ta, u, ⟨rfl, rfl⟩, h2, rfl, rfl⟩
      · rintro ⟨d', ta', u', ⟨rfl, rfl⟩, h3, rfl, rfl⟩
        rw [h2, Except.ok.injEq] at h3
        rw [h3]
        exact ⟨rfl, rfl⟩

/-! ### The handler of each instruction -/

/-- The handler that an instruction's meaning runs. -/
def handlerOf : Instr → Word → State → Except Fault (State × Word)
  | .lda f => loadWord .a (operand3 f)
  | .ldaExt f => loadWord .a (operand4 f)
  | .sta f => storeBytes .a 3 (operand3 f)
  | .staExt f => storeBytes .a 3 (operand4 f)
  | .stx f => storeBytes .x 3 (operand3 f)
  | .stxExt f => storeBytes .x 3 (operand4 f)
  | .stl f => storeBytes .l 3 (operand3 f)
  | .stlExt f => storeBytes .l 3 (operand4 f)
  | .comp f => compareWord (operand3 f)
  | .compExt f => compareWord (operand4 f)
  | .jeq f => branchIf .eq (operand3 f)
  | .jeqExt f => branchIf .eq (operand4 f)
  | .jlt f => branchIf .lt (operand3 f)
  | .jltExt f => branchIf .lt (operand4 f)
  | .j f => jump (operand3 f)
  | .jExt f => jump (operand4 f)
  | .jsub f => call (operand3 f)
  | .jsubExt f => call (operand4 f)
  | .rsub _ => returnThroughL
  | .rsubExt _ => returnThroughL
  | .ldch f => loadByte (operand3 f)
  | .ldchExt f => loadByte (operand4 f)
  | .stch f => storeBytes .a 1 (operand3 f)
  | .stchExt f => storeBytes .a 1 (operand4 f)
  | .ldt f => loadWord .t (operand3 f)
  | .ldtExt f => loadWord .t (operand4 f)
  | .compr f => compareRegs f
  | .clear f => clearReg f
  | .tixr f => incrementCompare f
  | .rd f => readDevice (operand3 f)
  | .rdExt f => readDevice (operand4 f)
  | .wd f => writeDevice (operand3 f)
  | .wdExt f => writeDevice (operand4 f)
  | .td f => testDevice (operand3 f)
  | .tdExt f => testDevice (operand4 f)

/-- Every meaning is its handler inside the shared frame. -/
theorem exec_eq_settle (i : Instr) (s : State) :
    exec i s = .next (s.settle i.mnemonic (handlerOf i (s.nextPc i.length) s)) := by
  cases i <;> rfl

/-- What an instruction leaves when it answers: a fault taken in the state before it, or its handler's result retired. -/
theorem exec_cases {i : Instr} {s t : State} (h : exec i s = .next t) :
    (∃ f, handlerOf i (s.nextPc i.length) s = .error f ∧ t = s.raise f) ∨
      ∃ u npc, handlerOf i (s.nextPc i.length) s = .ok (u, npc) ∧ t = u.retire i.mnemonic npc := by
  rw [exec_eq_settle] at h
  cases hr : handlerOf i (s.nextPc i.length) s with
  | error f =>
    rw [hr] at h
    exact .inl ⟨f, rfl, by simpa using h.symm⟩
  | ok p =>
    obtain ⟨u, npc⟩ := p
    rw [hr] at h
    exact .inr ⟨u, npc, rfl, by simpa using h.symm⟩

/-- A step in RUNNING is the fetch's fault or the meaning of the fetched instruction; in any other run state it is
idle. -/
theorem step_cases {s t : State} (h : step s = .next t) :
    (s.run ≠ .running ∧ t = s) ∨
      (s.run = .running ∧ ((∃ f, fetch s = .error f ∧ t = s.raise f) ∨ ∃ i, fetch s = .ok i ∧ exec i s = .next t)) := by
  unfold step at h
  cases hr : s.run with
  | running =>
    rw [hr] at h
    refine .inr ⟨rfl, ?_⟩
    cases hf : fetch s with
    | error f =>
      rw [hf] at h
      exact .inl ⟨f, rfl, by simpa using h.symm⟩
    | ok i =>
      rw [hf] at h
      exact .inr ⟨i, rfl, h⟩
  | unloaded =>
    rw [hr] at h
    exact .inl ⟨by simp, by simpa using h.symm⟩
  | halted =>
    rw [hr] at h
    exact .inl ⟨by simp, by simpa using h.symm⟩
  | faulted f =>
    rw [hr] at h
    exact .inl ⟨by simp, by simpa using h.symm⟩

end Sys2Proof.Machine
end

