-- ==== Sys2Proof/Laws/Faults.lean ====
section
/-! SUPPORT. Which faults a handler can raise, and what every handler leaves alone. -/

namespace Sys2Proof.Machine

/-- A fault that a handler can raise at an address: any but the fetch's `InvalidOpcode`. -/
def IsHandlerFault (pc : Word) (f : Fault) : Prop :=
  (∃ a n, f = .outOfRangeMemory a n pc) ∨ (∃ r, f = .outOfRangeRegister r pc) ∨ (∃ d, f = .deviceError d pc) ∨
    f = .undefinedAddressing pc

theorem IsHandlerFault.pc0_eq {pc : Word} {f : Fault} (h : IsHandlerFault pc f) : f.pc0 = pc := by
  rcases h with ⟨a, n, rfl⟩ | ⟨r, rfl⟩ | ⟨d, rfl⟩ | rfl <;> rfl

theorem IsHandlerFault.ne_invalidOpcode {pc pc' : Word} {f : Fault} {b : Byte} (h : IsHandlerFault pc f) :
    f ≠ .invalidOpcode pc' b := by
  rcases h with ⟨a, n, rfl⟩ | ⟨r, rfl⟩ | ⟨d, rfl⟩ | rfl <;> simp

theorem targetAddress_fault {o : Operand} {next : Word} {s : State} {f : Fault} (h : targetAddress o next s = .error f) :
    IsHandlerFault s.regs.pc f := by
  rcases targetAddress_eq_error.1 h with ⟨_, rfl⟩ | ⟨_, _, _, rfl⟩
  · exact .inr (.inr (.inr rfl))
  · exact .inl ⟨_, _, rfl⟩

theorem operandValue_fault {k : Nat} {o : Operand} {next : Word} {s : State} {f : Fault}
    (h : operandValue k o next s = .error f) : IsHandlerFault s.regs.pc f := by
  obtain ⟨_, h | ⟨a, _, h⟩⟩ := operandValue_eq_error.1 h
  · exact targetAddress_fault h
  · exact .inl ⟨_, _, (State.memRead_eq_error.1 h).2⟩

theorem deviceId_fault {o : Operand} {next : Word} {s : State} {f : Fault} (h : deviceId o next s = .error f) :
    IsHandlerFault s.regs.pc f := by
  rcases deviceId_eq_error.1 h with h | ⟨ta, _, h⟩
  · exact targetAddress_fault h
  · exact .inl ⟨_, _, (State.memByte_eq_error.1 h).2⟩

/-- Every fault of a handler names the instruction at PC, and none is `InvalidOpcode`. -/
theorem handler_fault {i : Instr} {next : Word} {s : State} {f : Fault} (h : handlerOf i next s = .error f) :
    IsHandlerFault s.regs.pc f := by
  have hlw : ∀ r o, loadWord r o next s = .error f → IsHandlerFault s.regs.pc f := by
    intro r o h
    unfold loadWord at h
    split at h
    · next hv => cases h; exact operandValue_fault hv
    · cases h
  have hlb : ∀ o, loadByte o next s = .error f → IsHandlerFault s.regs.pc f := by
    intro o h
    unfold loadByte at h
    split at h
    · next hv => cases h; exact operandValue_fault hv
    · cases h
  have hcw : ∀ o, compareWord o next s = .error f → IsHandlerFault s.regs.pc f := by
    intro o h
    unfold compareWord at h
    split at h
    · next hv => cases h; exact operandValue_fault hv
    · cases h
  have hst : ∀ r k o, storeBytes r k o next s = .error f → IsHandlerFault s.regs.pc f := by
    intro r k o h
    unfold storeBytes at h
    split at h
    · next hv => cases h; exact targetAddress_fault hv
    · split at h
      · next hv => cases h; exact .inl ⟨_, _, (State.memWrite_eq_error.1 hv).2⟩
      · cases h
  have hbr : ∀ w o, branchIf w o next s = .error f → IsHandlerFault s.regs.pc f := by
    intro w o h
    unfold branchIf at h
    split at h
    · next hv => cases h; exact targetAddress_fault hv
    · cases h
  have hj : ∀ o, jump o next s = .error f → IsHandlerFault s.regs.pc f := by
    intro o h
    unfold jump at h
    split at h
    · next hv => cases h; exact targetAddress_fault hv
    · cases h
  have hc : ∀ o, call o next s = .error f → IsHandlerFault s.regs.pc f := by
    intro o h
    unfold call at h
    split at h
    · next hv => cases h; exact targetAddress_fault hv
    · cases h
  have hreg : ∀ r, s.regIndex r = .error f → IsHandlerFault s.regs.pc f := by
    intro r h
    exact .inr (.inl ⟨_, (State.regIndex_eq_error.1 h).2⟩)
  have hcr : ∀ g, compareRegs g next s = .error f → IsHandlerFault s.regs.pc f := by
    intro g h
    unfold compareRegs at h
    split at h
    · next hv => cases h; exact hreg _ hv
    · split at h
      · next hv => cases h; exact hreg _ hv
      · cases h
  have hcl : ∀ g, clearReg g next s = .error f → IsHandlerFault s.regs.pc f := by
    intro g h
    unfold clearReg at h
    split at h
    · next hv => cases h; exact hreg _ hv
    · cases h
  have htx : ∀ g, incrementCompare g next s = .error f → IsHandlerFault s.regs.pc f := by
    intro g h
    unfold incrementCompare at h
    split at h
    · next hv => cases h; exact hreg _ hv
    · cases h
  have htd : ∀ o, testDevice o next s = .error f → IsHandlerFault s.regs.pc f := by
    intro o h
    unfold testDevice at h
    split at h
    · next hv => cases h; exact deviceId_fault hv
    · cases h
  have hrd : ∀ o, readDevice o next s = .error f → IsHandlerFault s.regs.pc f := by
    intro o h
    unfold readDevice at h
    split at h
    · next hv => cases h; exact deviceId_fault hv
    · split at h
      · next hv => cases h; exact .inr (.inr (.inl ⟨_, (State.openForRead_eq_error.1 (State.devRead_eq_error.1 hv)).2.2⟩))
      · cases h
  have hwd : ∀ o, writeDevice o next s = .error f → IsHandlerFault s.regs.pc f := by
    intro o h
    unfold writeDevice at h
    split at h
    · next hv => cases h; exact deviceId_fault hv
    · split at h
      · next hv => cases h; exact .inr (.inr (.inl ⟨_, (State.openForWrite_eq_error.1 (State.devWrite_eq_error.1 hv)).2.2⟩))
      · cases h
  cases i with
  | rsub g => cases h
  | rsubExt g => cases h
  | _ g => first
    | exact hlw _ _ h | exact hlb _ h | exact hcw _ h | exact hst _ _ _ h | exact hbr _ _ h | exact hj _ h | exact hc _ h
    | exact hcr _ h | exact hcl _ h | exact htx _ h | exact htd _ h | exact hrd _ h | exact hwd _ h

/-- What every handler leaves alone. -/
theorem handler_frame {i : Instr} {next npc : Word} {s t : State} (h : handlerOf i next s = .ok (t, npc)) :
    t.run = s.run ∧ t.log = s.log ∧ t.facc = s.facc := by
  cases i with
  | rsub g => obtain ⟨rfl, -⟩ := returnThroughL_eq_ok (next := next).1 h; simp
  | rsubExt g => obtain ⟨rfl, -⟩ := returnThroughL_eq_ok (next := next).1 h; simp
  | lda g => obtain ⟨v, ta, -, rfl, -⟩ := loadWord_eq_ok.1 h; simp
  | ldaExt g => obtain ⟨v, ta, -, rfl, -⟩ := loadWord_eq_ok.1 h; simp
  | ldt g => obtain ⟨v, ta, -, rfl, -⟩ := loadWord_eq_ok.1 h; simp
  | ldtExt g => obtain ⟨v, ta, -, rfl, -⟩ := loadWord_eq_ok.1 h; simp
  | ldch g => obtain ⟨v, ta, -, rfl, -⟩ := loadByte_eq_ok.1 h; simp
  | ldchExt g => obtain ⟨v, ta, -, rfl, -⟩ := loadByte_eq_ok.1 h; simp
  | comp g => obtain ⟨v, ta, -, rfl, -⟩ := compareWord_eq_ok.1 h; simp
  | compExt g => obtain ⟨v, ta, -, rfl, -⟩ := compareWord_eq_ok.1 h; simp
  | jeq g => obtain ⟨ta, -, rfl, -⟩ := branchIf_eq_ok.1 h; simp
  | jeqExt g => obtain ⟨ta, -, rfl, -⟩ := branchIf_eq_ok.1 h; simp
  | jlt g => obtain ⟨ta, -, rfl, -⟩ := branchIf_eq_ok.1 h; simp
  | jltExt g => obtain ⟨ta, -, rfl, -⟩ := branchIf_eq_ok.1 h; simp
  | j g => obtain ⟨ta, -, rfl, -⟩ := jump_eq_ok.1 h; simp
  | jExt g => obtain ⟨ta, -, rfl, -⟩ := jump_eq_ok.1 h; simp
  | jsub g => obtain ⟨ta, -, rfl, -⟩ := call_eq_ok.1 h; simp
  | jsubExt g => obtain ⟨ta, -, rfl, -⟩ := call_eq_ok.1 h; simp
  | compr g => obtain ⟨r1, r2, -, -, rfl, -⟩ := compareRegs_eq_ok.1 h; simp
  | clear g => obtain ⟨r, -, rfl, -⟩ := clearReg_eq_ok.1 h; simp
  | tixr g => obtain ⟨r, -, -, rfl⟩ := incrementCompare_eq_ok.1 h; simp
  | td g => obtain ⟨d, ta, -, -, rfl⟩ := testDevice_eq_ok.1 h; simp [State.devTest]
  | tdExt g => obtain ⟨d, ta, -, -, rfl⟩ := testDevice_eq_ok.1 h; simp [State.devTest]
  | rd g =>
    obtain ⟨d, ta, v, u, -, hr, -, rfl⟩ := readDevice_eq_ok.1 h
    obtain ⟨dev, -, ⟨-, rfl⟩ | ⟨-, -, rfl⟩⟩ := State.devRead_eq_ok.1 hr <;> simp
  | rdExt g =>
    obtain ⟨d, ta, v, u, -, hr, -, rfl⟩ := readDevice_eq_ok.1 h
    obtain ⟨dev, -, ⟨-, rfl⟩ | ⟨-, -, rfl⟩⟩ := State.devRead_eq_ok.1 hr <;> simp
  | wd g =>
    obtain ⟨d, ta, u, -, hr, -, rfl⟩ := writeDevice_eq_ok.1 h
    obtain ⟨dev, -, rfl⟩ := State.devWrite_eq_ok.1 hr; simp
  | wdExt g =>
    obtain ⟨d, ta, u, -, hr, -, rfl⟩ := writeDevice_eq_ok.1 h
    obtain ⟨dev, -, rfl⟩ := State.devWrite_eq_ok.1 hr; simp
  | _ g =>
    obtain ⟨ta, u, -, hw, rfl, -⟩ := storeBytes_eq_ok.1 h
    obtain ⟨-, rfl⟩ := State.memWrite_eq_ok.1 hw
    simp

end Sys2Proof.Machine
end

