-- ==== Sys2Proof/Laws/Fetch.lean ====
section
/-! SUPPORT. Everything the fetch can answer (`40_step_and_addressing.md` R82 to R86). -/

namespace Sys2Proof.Machine

theorem fetchRest_eq_ok {s : State} {k : Nat} {rest : List Byte} :
    fetchRest s k = .ok rest ↔
      (k ≤ 2 ∧ rest = []) ∨
        (2 < k ∧ InMemory (s.regs.pc + 2#32) (k - 2) ∧ s.mem.bytesAt (s.regs.pc + 2#32).toNat (k - 2) = rest) := by
  unfold fetchRest
  by_cases h : k ≤ 2
  · rw [if_pos h, Except.ok.injEq]
    constructor
    · rintro rfl
      exact .inl ⟨h, rfl⟩
    · rintro (⟨_, rfl⟩ | ⟨hk, _⟩)
      · rfl
      · omega
  · rw [if_neg h, State.memBytes_eq_ok]
    constructor
    · exact fun e => .inr ⟨by omega, e⟩
    · rintro (⟨hk, _⟩ | ⟨_, e⟩)
      · omega
      · exact e

/-- A fetch that succeeds read its bytes inside memory and assembled them under the entry of byte 0. -/
theorem fetch_eq_ok {s : State} {i : Instr} :
    fetch s = .ok i ↔
      ∃ e rest, InMemory s.regs.pc 1 ∧ lookup (s.mem.read s.regs.pc.toNat) = some e ∧ InMemory (s.regs.pc + 1#32) 1 ∧
        fetchRest s (resolvedFormat e (s.mem.read (s.regs.pc + 1#32).toNat)) = .ok rest ∧
        i = assemble e.mnemonic (s.mem.read s.regs.pc.toNat) (s.mem.read (s.regs.pc + 1#32).toNat) rest := by
  unfold fetch
  cases h0 : s.memByte s.regs.pc with
  | error f =>
    refine ⟨fun h => (nomatch h), ?_⟩
    rintro ⟨e, rest, hin, _⟩
    exact absurd hin (State.memByte_eq_error.1 h0).1
  | ok b0 =>
    obtain ⟨hin0, rfl⟩ := State.memByte_eq_ok.1 h0
    simp only
    cases hl : lookup (s.mem.read s.regs.pc.toNat) with
    | none =>
      refine ⟨fun h => (nomatch h), ?_⟩
      rintro ⟨e, rest, _, h, _⟩
      cases h
    | some e =>
      simp only [Option.some.injEq]
      cases h1 : s.memByte (s.regs.pc + 1#32) with
      | error f =>
        refine ⟨fun h => (nomatch h), ?_⟩
        rintro ⟨e, rest, _, _, hin, _⟩
        exact absurd hin (State.memByte_eq_error.1 h1).1
      | ok b1 =>
        obtain ⟨hin1, rfl⟩ := State.memByte_eq_ok.1 h1
        simp only
        cases hr : fetchRest s (resolvedFormat e (s.mem.read (s.regs.pc + 1#32).toNat)) with
        | error f =>
          refine ⟨fun h => (nomatch h), ?_⟩
          rintro ⟨e', rest, _, rfl, _, h, _⟩
          rw [hr] at h
          cases h
        | ok rest =>
          constructor
          · intro h
            exact ⟨e, rest, hin0, rfl, hin1, hr, (Except.ok.inj h).symm⟩
          · rintro ⟨e', rest', _, rfl, _, h, rfl⟩
            rw [hr, Except.ok.injEq] at h
            rw [h]

/-- Every fault of the fetch names the instruction at PC. -/
theorem fetch_fault_pc0 {s : State} {f : Fault} (h : fetch s = .error f) : f.pc0 = s.regs.pc := by
  unfold fetch at h
  cases h0 : s.memByte s.regs.pc with
  | error g =>
    rw [h0] at h
    obtain rfl : g = f := by simpa using h
    rw [(State.memByte_eq_error.1 h0).2]
    rfl
  | ok b0 =>
    rw [h0] at h
    simp only at h
    cases hl : lookup b0 with
    | none =>
      rw [hl] at h
      obtain rfl := (Except.error.inj h)
      rfl
    | some e =>
      rw [hl] at h
      simp only at h
      cases h1 : s.memByte (s.regs.pc + 1#32) with
      | error g =>
        rw [h1] at h
        obtain rfl : g = f := by simpa using h
        rw [(State.memByte_eq_error.1 h1).2]
        rfl
      | ok b1 =>
        rw [h1] at h
        simp only at h
        cases hr : fetchRest s (resolvedFormat e b1) with
        | error g =>
          rw [hr] at h
          obtain rfl : g = f := by simpa using h
          unfold fetchRest at hr
          split at hr
          · cases hr
          · rw [(State.memBytes_eq_error.1 hr).2]
            rfl
        | ok rest =>
          rw [hr] at h
          cases h

/-- A small offset from an address inside memory does not wrap. -/
theorem toNat_add_of_inMemory {addr : Word} {n k : Nat} (h : InMemory addr n) (hk : k ≤ 65536) :
    (addr + BitVec.ofNat 32 k).toNat = addr.toNat + k := by
  rw [inMemory_iff] at h
  simp only [Config.memSize] at h
  rw [BitVec.toNat_add, BitVec.toNat_ofNat, Nat.mod_eq_of_lt (a := k) (by omega), Nat.mod_eq_of_lt (by omega)]

/-- A fetched instruction lies inside memory as a whole. -/
theorem inMemory_of_fetch {s : State} {i : Instr} (h : fetch s = .ok i) : s.regs.pc.toNat + i.length ≤ Config.memSize := by
  obtain ⟨e, rest, hin0, hl, hin1, hr, rfl⟩ := fetch_eq_ok.1 h
  rw [length_assemble _ _ hl]
  have h1 := hin1
  rw [inMemory_iff, toNat_add_of_inMemory (k := 1) hin0 (by omega)] at h1
  rcases fetchRest_eq_ok.1 hr with ⟨hk, _⟩ | ⟨hk, hin2, _⟩
  · omega
  · rw [inMemory_iff, toNat_add_of_inMemory (k := 2) hin0 (by omega)] at hin2
    omega

end Sys2Proof.Machine
end

