-- ==== Sys2Proof/Laws/PerInstr.lean ====
section
/-! SUPPORT. The family of lemmas over the constructors of Instr. -/

namespace Sys2Proof.Laws

/-- An instruction is encoded in as many bytes as its format number says (`30_encoding.md` R50). -/
def EncodedLength.Statement (i : Instr) : Prop := (encode i).length = i.length

theorem EncodedLength.lda (f : Format3) : EncodedLength.Statement (.lda f) := rfl

theorem EncodedLength.ldaExt (f : Format4) : EncodedLength.Statement (.ldaExt f) := rfl

theorem EncodedLength.sta (f : Format3) : EncodedLength.Statement (.sta f) := rfl

theorem EncodedLength.staExt (f : Format4) : EncodedLength.Statement (.staExt f) := rfl

theorem EncodedLength.stx (f : Format3) : EncodedLength.Statement (.stx f) := rfl

theorem EncodedLength.stxExt (f : Format4) : EncodedLength.Statement (.stxExt f) := rfl

theorem EncodedLength.stl (f : Format3) : EncodedLength.Statement (.stl f) := rfl

theorem EncodedLength.stlExt (f : Format4) : EncodedLength.Statement (.stlExt f) := rfl

theorem EncodedLength.comp (f : Format3) : EncodedLength.Statement (.comp f) := rfl

theorem EncodedLength.compExt (f : Format4) : EncodedLength.Statement (.compExt f) := rfl

theorem EncodedLength.jeq (f : Format3) : EncodedLength.Statement (.jeq f) := rfl

theorem EncodedLength.jeqExt (f : Format4) : EncodedLength.Statement (.jeqExt f) := rfl

theorem EncodedLength.jlt (f : Format3) : EncodedLength.Statement (.jlt f) := rfl

theorem EncodedLength.jltExt (f : Format4) : EncodedLength.Statement (.jltExt f) := rfl

theorem EncodedLength.j (f : Format3) : EncodedLength.Statement (.j f) := rfl

theorem EncodedLength.jExt (f : Format4) : EncodedLength.Statement (.jExt f) := rfl

theorem EncodedLength.jsub (f : Format3) : EncodedLength.Statement (.jsub f) := rfl

theorem EncodedLength.jsubExt (f : Format4) : EncodedLength.Statement (.jsubExt f) := rfl

theorem EncodedLength.rsub (f : Format3) : EncodedLength.Statement (.rsub f) := rfl

theorem EncodedLength.rsubExt (f : Format4) : EncodedLength.Statement (.rsubExt f) := rfl

theorem EncodedLength.ldch (f : Format3) : EncodedLength.Statement (.ldch f) := rfl

theorem EncodedLength.ldchExt (f : Format4) : EncodedLength.Statement (.ldchExt f) := rfl

theorem EncodedLength.stch (f : Format3) : EncodedLength.Statement (.stch f) := rfl

theorem EncodedLength.stchExt (f : Format4) : EncodedLength.Statement (.stchExt f) := rfl

theorem EncodedLength.ldt (f : Format3) : EncodedLength.Statement (.ldt f) := rfl

theorem EncodedLength.ldtExt (f : Format4) : EncodedLength.Statement (.ldtExt f) := rfl

theorem EncodedLength.compr (f : Format2) : EncodedLength.Statement (.compr f) := rfl

theorem EncodedLength.clear (f : Format2) : EncodedLength.Statement (.clear f) := rfl

theorem EncodedLength.tixr (f : Format2) : EncodedLength.Statement (.tixr f) := rfl

theorem EncodedLength.rd (f : Format3) : EncodedLength.Statement (.rd f) := rfl

theorem EncodedLength.rdExt (f : Format4) : EncodedLength.Statement (.rdExt f) := rfl

theorem EncodedLength.wd (f : Format3) : EncodedLength.Statement (.wd f) := rfl

theorem EncodedLength.wdExt (f : Format4) : EncodedLength.Statement (.wdExt f) := rfl

theorem EncodedLength.td (f : Format3) : EncodedLength.Statement (.td f) := rfl

theorem EncodedLength.tdExt (f : Format4) : EncodedLength.Statement (.tdExt f) := rfl

end Sys2Proof.Laws
end

