-- ==== Sys2Proof/Laws/Words.lean ====
section
/-! SUPPORT. The numbers that bytes and words spell: concatenated bit vectors, the word at an address, and bytes written and
read back. -/

namespace Sys2Proof.Machine

/-- The number of a concatenation. -/
theorem toNat_append_eq {m n : Nat} (x : BitVec m) (y : BitVec n) : (x ++ y).toNat = x.toNat * 2 ^ n + y.toNat := by
  rw [BitVec.toNat_append, ← Nat.shiftLeft_add_eq_or_of_lt y.isLt, Nat.shiftLeft_eq]

/-- The number of a byte's low four bits. -/
theorem toNat_low_nibble (b : Byte) : (b.extractLsb' 0 4).toNat = b.toNat % 16 := by
  simp [BitVec.extractLsb'_toNat]

/-- The number of the word at an address. -/
theorem toNat_wordAt (m : Memory) (a : Nat) :
    (wordAt m a).toNat = (m.read a).toNat * 65536 + (m.read (a + 1)).toNat * 256 + (m.read (a + 2)).toNat := by
  simp only [wordAt, toNat_append_eq]
  simp only [BitVec.toNat_ofNat]
  omega

/-- Three bytes read as a number are the word at their address. -/
theorem ofNat_beNat_three (m : Memory) (a : Nat) : BitVec.ofNat 32 (beNat (m.bytesAt a 3)) = wordAt m a := by
  apply BitVec.eq_of_toNat_eq
  rw [BitVec.toNat_ofNat, beNat_three, toNat_wordAt]
  have h0 := (m.read a).isLt
  have h1 := (m.read (a + 1)).isLt
  have h2 := (m.read (a + 2)).isLt
  omega

/-- One byte read as a number is the byte. -/
theorem ofNat_beNat_one (m : Memory) (a : Nat) : BitVec.ofNat 32 (beNat (m.bytesAt a 1)) = (m.read a).setWidth 32 := by
  apply BitVec.eq_of_toNat_eq
  simp [Memory.bytesAt, beNat]

/-- The low byte replaced, said with masks (`43_load_store.md` R130 (d)). -/
theorem withLowByte_eq (w : Word) (v : Byte) : withLowByte w v = (w &&& 0xFFFFFF00#32) ||| v.setWidth 32 := by
  apply BitVec.eq_of_getLsbD_eq
  intro k hk
  have hc : ∀ k : Fin 32, (0xFFFFFF00#32).getLsbD k = !decide (k.val < 8) := by decide
  have hc' := hc ⟨k, hk⟩
  simp only at hc'
  simp only [withLowByte, BitVec.getLsbD_append, BitVec.getLsbD_or, BitVec.getLsbD_and, hc', BitVec.getLsbD_setWidth,
    BitVec.getLsbD_extractLsb']
  by_cases h : k < 8
  · simp [h, hk]
  · simp [h, show k - 8 < 24 by omega, show 8 + (k - 8) = k by omega, hk, BitVec.getLsbD_of_ge v k (by omega)]

/-- The low byte of a word, zero-extended. -/
theorem setWidth_low_byte (w : Word) : (w.setWidth 8).setWidth 32 = w &&& 0xFF#32 := by
  apply BitVec.eq_of_getLsbD_eq
  intro k hk
  have hc : ∀ k : Fin 32, (0xFF#32).getLsbD k = decide (k.val < 8) := by decide
  have hc' := hc ⟨k, hk⟩
  simp only at hc'
  simp only [BitVec.getLsbD_and, hc', BitVec.getLsbD_setWidth]
  by_cases h : k < 8 <;> simp [h, hk]

/-- The k-th of `n` bytes of a number holds its bits from `8 (n - k - 1)` on. -/
theorem getElem_beBytes (v : Word) {n k : Nat} (h : k < (beBytes n v.toNat).length) :
    (beBytes n v.toNat)[k] = v.extractLsb' (8 * (n - k - 1)) 8 := by
  induction n generalizing k with
  | zero => simp at h
  | succ n ih =>
    cases k with
    | zero =>
      apply BitVec.eq_of_toNat_eq
      simp only [beBytes, List.getElem_cons_zero, BitVec.toNat_ofNat, BitVec.extractLsb'_toNat, Nat.shiftRight_eq_div_pow]
      rw [Nat.pow_mul]
      simp
    | succ k =>
      simp only [beBytes, List.getElem_cons_succ]
      rw [ih]
      congr 2
      omega

/-- The number that the bytes of a number spell is its residue at that width. -/
theorem beNat_beBytes (n v : Nat) : beNat (beBytes n v) = v % 256 ^ n := by
  induction n with
  | zero => simp [beBytes, beNat, Nat.mod_one]
  | succ n ih =>
    simp only [beBytes, beNat, length_beBytes, ih, BitVec.toNat_ofNat]
    rw [show 256 ^ (n + 1) = 256 ^ n * 256 from pow_succ 256 n, Nat.mod_mul (a := 256 ^ n), Nat.mul_comm (256 ^ n),
      Nat.add_comm]

/-- What was written to a field of memory is what it reads. -/
theorem Memory.bytesAt_writeBytes {m : Memory} {a : Nat} {bs : List Byte} (h : a + bs.length ≤ Config.memSize)
    (hm : m.wf = true) : (m.writeBytes a bs).bytesAt a bs.length = bs := by
  apply List.ext_getElem?
  intro k
  by_cases hk : k < bs.length
  · rw [Memory.getElem?_bytesAt _ _ hk, Memory.read_writeBytes_at h hm hk, List.getElem?_eq_getElem hk]
  · rw [List.getElem?_eq_none (by simp; omega), List.getElem?_eq_none (by omega)]

end Sys2Proof.Machine
end

