-- ==== Sys2Proof/Tests/Slice0.lean ====
section
/-! SUPPORT. The model's own tests: the smoke test of the static checks, words written out from the encodings of
`30_encoding.md`, one step of each instruction with the results that the spec's rules and `95_test_vectors.md` give, and a
witness for the hypotheses of every statement. -/

namespace Sys2Proof.Tests

open Sys2Proof.Machine

/-! ### WellFormed: what each check refuses, and what it lets pass -/

/-- Format 3 fields with the flags n and i given, the others clear. -/
def f3 (n i : Bool) (disp : BitVec 12) : Format3 := { n := n, i := i, x := false, b := false, p := false, disp := disp }

/-- Format 4 fields with the flags n and i given, the others clear. -/
def f4 (n i : Bool) (addr : BitVec 20) : Format4 := { n := n, i := i, x := false, b := false, p := false, addr := addr }

/-- Format 2 fields. -/
def f2 (r1 r2 : BitVec 4) : Format2 := { ignored := 0#2, r1 := r1, r2 := r2 }

theorem test_smoke_compr_r1 : (Instr.compr (f2 9#4 0#4)).wellFormed = false := by decide
theorem test_smoke_compr_r2 : (Instr.compr (f2 8#4 15#4)).wellFormed = false := by decide
theorem test_smoke_compr_legal : (Instr.compr (f2 8#4 8#4)).wellFormed = true := by decide
theorem test_smoke_clear_r1 : (Instr.clear (f2 9#4 0#4)).wellFormed = false := by decide
theorem test_smoke_clear_ignores_r2 : (Instr.clear (f2 8#4 15#4)).wellFormed = true := by decide
theorem test_smoke_tixr_r1 : (Instr.tixr (f2 15#4 0#4)).wellFormed = false := by decide
theorem test_smoke_tixr_ignores_r2 : (Instr.tixr (f2 0#4 9#4)).wellFormed = true := by decide

/-- The immediate pattern is refused on each of the eleven mnemonics of R100, in both formats. -/
theorem test_smoke_immediate_addresses :
    (∀ i ∈ [Instr.sta (f3 false true 5#12), .stl (f3 false true 5#12), .stx (f3 false true 5#12), .stch (f3 false true 5#12),
      .j (f3 false true 5#12), .jeq (f3 false true 5#12), .jlt (f3 false true 5#12), .jsub (f3 false true 5#12),
      .td (f3 false true 5#12), .rd (f3 false true 5#12), .wd (f3 false true 5#12)], i.wellFormed = false) ∧
    (∀ i ∈ [Instr.staExt (f4 false true 5#20), .stlExt (f4 false true 5#20), .stxExt (f4 false true 5#20),
      .stchExt (f4 false true 5#20), .jExt (f4 false true 5#20), .jeqExt (f4 false true 5#20), .jltExt (f4 false true 5#20),
      .jsubExt (f4 false true 5#20), .tdExt (f4 false true 5#20), .rdExt (f4 false true 5#20),
      .wdExt (f4 false true 5#20)], i.wellFormed = false) := by decide

/-- The immediate pattern passes where it has a meaning (R94, R122), and the indirect one passes on a store. -/
theorem test_smoke_legal_patterns :
    ∀ i ∈ [Instr.lda (f3 false true 5#12), .ldtExt (f4 false true 5#20), .ldch (f3 false true 5#12),
      .comp (f3 false true 5#12), .rsub (f3 false true 0#12), .sta (f3 true false 5#12), .jExt (f4 true true 5#20),
      .td (f3 false false 5#12)], i.wellFormed = true := by decide

/-! ### Decoding: words written out bit by bit from R53, R54, R55 and the binary column of R57 -/

theorem test_decode_lda :
    decode [0b00000011#8, 0b00101000#8, 0b10000001#8] =
      .ok (.lda ⟨true, true, false, false, true, 0b100010000001#12⟩, []) ∧
    decode [0b00000011#8, 0b00111000#8, 0b10000001#8, 0b00000111#8] =
      .ok (.ldaExt ⟨true, true, false, false, true, 0b10001000000100000111#20⟩, []) := by
  decide

theorem test_decode_sta :
    decode [0b00001110#8, 0b10001101#8, 0b10100110#8] =
      .ok (.sta ⟨true, false, true, false, false, 0b110110100110#12⟩, []) ∧
    decode [0b00001110#8, 0b10011101#8, 0b10100110#8, 0b01100010#8] =
      .ok (.staExt ⟨true, false, true, false, false, 0b11011010011001100010#20⟩, []) := by
  decide

theorem test_decode_stx :
    decode [0b00010000#8, 0b11100010#8, 0b11001011#8] =
      .ok (.stx ⟨false, false, true, true, true, 0b001011001011#12⟩, []) ∧
    decode [0b00010000#8, 0b11110010#8, 0b11001011#8, 0b10111101#8] =
      .ok (.stxExt ⟨false, false, true, true, true, 0b00101100101110111101#20⟩, []) := by
  decide

theorem test_decode_stl :
    decode [0b00010101#8, 0b01000111#8, 0b11110000#8] =
      .ok (.stl ⟨false, true, false, true, false, 0b011111110000#12⟩, []) ∧
    decode [0b00010101#8, 0b01010111#8, 0b11110000#8, 0b00011000#8] =
      .ok (.stlExt ⟨false, true, false, true, false, 0b01111111000000011000#20⟩, []) := by
  decide

theorem test_decode_comp :
    decode [0b00101011#8, 0b10101100#8, 0b00010101#8] =
      .ok (.comp ⟨true, true, true, false, true, 0b110000010101#12⟩, []) ∧
    decode [0b00101011#8, 0b10111100#8, 0b00010101#8, 0b01110011#8] =
      .ok (.compExt ⟨true, true, true, false, true, 0b11000001010101110011#20⟩, []) := by
  decide

theorem test_decode_jeq :
    decode [0b00110010#8, 0b00000001#8, 0b00111010#8] =
      .ok (.jeq ⟨true, false, false, false, false, 0b000100111010#12⟩, []) ∧
    decode [0b00110010#8, 0b00010001#8, 0b00111010#8, 0b11001110#8] =
      .ok (.jeqExt ⟨true, false, false, false, false, 0b00010011101011001110#20⟩, []) := by
  decide

theorem test_decode_jlt :
    decode [0b00111000#8, 0b01100110#8, 0b01011111#8] =
      .ok (.jlt ⟨false, false, false, true, true, 0b011001011111#12⟩, []) ∧
    decode [0b00111000#8, 0b01110110#8, 0b01011111#8, 0b00101001#8] =
      .ok (.jltExt ⟨false, false, false, true, true, 0b01100101111100101001#20⟩, []) := by
  decide

theorem test_decode_j :
    decode [0b00111101#8, 0b11001011#8, 0b10000100#8] =
      .ok (.j ⟨false, true, true, true, false, 0b101110000100#12⟩, []) ∧
    decode [0b00111101#8, 0b11011011#8, 0b10000100#8, 0b10000100#8] =
      .ok (.jExt ⟨false, true, true, true, false, 0b10111000010010000100#20⟩, []) := by
  decide

theorem test_decode_jsub :
    decode [0b01001011#8, 0b00100000#8, 0b10101001#8] =
      .ok (.jsub ⟨true, true, false, false, true, 0b000010101001#12⟩, []) ∧
    decode [0b01001011#8, 0b00110000#8, 0b10101001#8, 0b11011111#8] =
      .ok (.jsubExt ⟨true, true, false, false, true, 0b00001010100111011111#20⟩, []) := by
  decide

theorem test_decode_rsub :
    decode [0b01001110#8, 0b10000101#8, 0b11001110#8] =
      .ok (.rsub ⟨true, false, true, false, false, 0b010111001110#12⟩, []) ∧
    decode [0b01001110#8, 0b10010101#8, 0b11001110#8, 0b00111010#8] =
      .ok (.rsubExt ⟨true, false, true, false, false, 0b01011100111000111010#20⟩, []) := by
  decide

theorem test_decode_ldch :
    decode [0b01010000#8, 0b11101010#8, 0b11110011#8] =
      .ok (.ldch ⟨false, false, true, true, true, 0b101011110011#12⟩, []) ∧
    decode [0b01010000#8, 0b11111010#8, 0b11110011#8, 0b10010101#8] =
      .ok (.ldchExt ⟨false, false, true, true, true, 0b10101111001110010101#20⟩, []) := by
  decide

theorem test_decode_stch :
    decode [0b01010101#8, 0b01001111#8, 0b00011000#8] =
      .ok (.stch ⟨false, true, false, true, false, 0b111100011000#12⟩, []) ∧
    decode [0b01010101#8, 0b01011111#8, 0b00011000#8, 0b11110000#8] =
      .ok (.stchExt ⟨false, true, false, true, false, 0b11110001100011110000#20⟩, []) := by
  decide

theorem test_decode_ldt :
    decode [0b01110111#8, 0b10100100#8, 0b00111101#8] =
      .ok (.ldt ⟨true, true, true, false, true, 0b010000111101#12⟩, []) ∧
    decode [0b01110111#8, 0b10110100#8, 0b00111101#8, 0b01001011#8] =
      .ok (.ldtExt ⟨true, true, true, false, true, 0b01000011110101001011#20⟩, []) := by
  decide

theorem test_decode_rd :
    decode [0b11011010#8, 0b00001001#8, 0b01100010#8] =
      .ok (.rd ⟨true, false, false, false, false, 0b100101100010#12⟩, []) ∧
    decode [0b11011010#8, 0b00011001#8, 0b01100010#8, 0b10100110#8] =
      .ok (.rdExt ⟨true, false, false, false, false, 0b10010110001010100110#20⟩, []) := by
  decide

theorem test_decode_wd :
    decode [0b11011100#8, 0b01101110#8, 0b10000111#8] =
      .ok (.wd ⟨false, false, false, true, true, 0b111010000111#12⟩, []) ∧
    decode [0b11011100#8, 0b01111110#8, 0b10000111#8, 0b00000001#8] =
      .ok (.wdExt ⟨false, false, false, true, true, 0b11101000011100000001#20⟩, []) := by
  decide

theorem test_decode_td :
    decode [0b11100001#8, 0b11000011#8, 0b10101100#8] =
      .ok (.td ⟨false, true, true, true, false, 0b001110101100#12⟩, []) ∧
    decode [0b11100001#8, 0b11010011#8, 0b10101100#8, 0b01011100#8] =
      .ok (.tdExt ⟨false, true, true, true, false, 0b00111010110001011100#20⟩, []) := by
  decide

theorem test_decode_compr :
    decode [0b10100000#8, 0b01010100#8, 0xAA#8] = .ok (.compr ⟨0b00#2, 0b0101#4, 0b0100#4⟩, [0xAA#8]) := by
  decide

theorem test_decode_clear :
    decode [0b10110110#8, 0b00111111#8, 0xAA#8] = .ok (.clear ⟨0b10#2, 0b0011#4, 0b1111#4⟩, [0xAA#8]) := by
  decide

theorem test_decode_tixr :
    decode [0b10111001#8, 0b10000010#8, 0xAA#8] = .ok (.tixr ⟨0b01#2, 0b1000#4, 0b0010#4⟩, [0xAA#8]) := by
  decide

/-- Base opcodes that are not in the catalog are rejected by name, whatever follows (R63); so are bytes that end early. -/
theorem test_decode_rejects :
    decode [0x04#8, 0x00#8, 0x00#8] = .error (.invalidOpcode 0x04#8) ∧ decode [0xFF#8] = .error (.invalidOpcode 0xFF#8) ∧
      decode [] = .error .truncated ∧ decode [0x03#8] = .error .truncated ∧ decode [0x03#8, 0x00#8] = .error .truncated ∧
      decode [0x03#8, 0x10#8, 0x00#8] = .error .truncated := by
  decide

/-- The host's numbering: the whole instruction is one big-endian number (log 9). -/
theorem test_table_words :
    decodeTableWord 24 0x3F2FF5 = some (.j ⟨true, true, false, false, true, 0xFF5#12⟩) ∧
      decodeTableWord 32 0x75101000 = some (.ldtExt ⟨false, true, false, false, false, 0x01000#20⟩) ∧
      decodeTableWord 16 0xB850 = some (.tixr ⟨0#2, 5#4, 0#4⟩) ∧ decodeTableWord 24 0x040000 = none := by
  decide

/-! ### One step of each instruction -/

/-- A RUNNING core at an address, with bytes from there on. -/
def core (pc : Word) (bytes : List Byte) : State :=
  State.clean (Memory.writeBytes [] pc.toNat bytes) pc .running [] { scripts := [], asked := 0 }

/-- More bytes in memory. -/
def poke (s : State) (a : Nat) (bytes : List Byte) : State := { s with mem := s.mem.writeBytes a bytes }

/-- The state after one step. -/
def after (s : State) : State := (stepCommand s).1

/-- A register before the step. -/
def put (s : State) (r : Reg) (v : Word) : State := s.setReg r v

/-- The flag before the step. -/
def flag (s : State) (c : CC) : State := { s with cc := c }

/-- A device of the environment with one coming answer to `DevTest`, an input, and handles that can be opened. -/
def script (s : State) (d : Byte) (ready : Bool) (input : List Byte) : State :=
  { s with
    env :=
      { scripts := [{ id := d, ready := [ready], canRead := true, input := input, canWrite := true, truncates := false }]
        asked := 0 } }

/-- R131: a word is loaded zero-extended. -/
theorem test_lda :
    (after (poke (core 0x1000#32 [0x03#8, 0x09#8, 0x00#8]) 0x900 [0xAB#8, 0xCD#8, 0xEF#8])).regs.a = 0x00ABCDEF#32 := by decide

/-- R131, R172: a word that starts at 65534 is outside memory; A keeps its value. -/
theorem test_lda_faults :
    let t := after (put (core 0x1000#32 [0x03#8, 0x10#8, 0xFF#8, 0xFE#8]) .a 7#32)
    t.run = .faulted (.outOfRangeMemory 0xFFFE#32 3 0x1000#32) ∧ t.regs.a = 7#32 ∧ t.regs.pc = 0x1000#32 ∧ t.log = [] := by
  decide

/-- R132: `+LDT #4096`. -/
theorem test_ldt :
    let t := after (core 0x1000#32 [0x75#8, 0x10#8, 0x10#8, 0x00#8])
    t.regs.t = 0x1000#32 ∧ t.regs.pc = 0x1004#32 ∧ t.log = [.ldt] ∧ t.lastTa = none := by decide

/-- R133: a byte from memory; bits 31:8 of A stay. -/
theorem test_ldch :
    let t := after (put (core 0x1000#32 [0x53#8, 0x20#8, 0x00#8, 0xAB#8]) .a 0x12345678#32)
    t.regs.a = 0x123456AB#32 ∧ t.lastTa = some 0x1003#32 := by decide

/-- R133: of an immediate the low 8 bits. -/
theorem test_ldch_immediate :
    (after (put (core 0x1000#32 [0x51#8, 0x0F#8, 0xCD#8]) .a 0x12345678#32)).regs.a = 0x123456CD#32 := by decide

/-- R134: A[23:0], most significant byte first. -/
theorem test_sta :
    let t := after (put (core 0x1000#32 [0x0F#8, 0x20#8, 0x00#8]) .a 0x12345678#32)
    t.mem.bytesAt 0x1002 5 = [0x00#8, 0x34#8, 0x56#8, 0x78#8, 0x00#8] := by decide

/-- R134: a store at 65534 faults and writes no byte. -/
theorem test_sta_faults :
    let t := after (put (core 0x1000#32 [0x0F#8, 0x10#8, 0xFF#8, 0xFE#8]) .a 0x12345678#32)
    t.run = .faulted (.outOfRangeMemory 0xFFFE#32 3 0x1000#32) ∧ t.mem.bytesAt 0xFFFE 2 = [0#8, 0#8] := by decide

/-- R135. -/
theorem test_stl :
    (after (put (core 0x1000#32 [0x17#8, 0x20#8, 0x00#8]) .l 0x2007#32)).mem.bytesAt 0x1003 3 = [0x00#8, 0x20#8, 0x07#8] := by
  decide

/-- R136. -/
theorem test_stx :
    (after (put (core 0x1000#32 [0x13#8, 0x20#8, 0x00#8]) .x 0x0ABCDE#32)).mem.bytesAt 0x1003 3 = [0x0A#8, 0xBC#8, 0xDE#8] := by
  decide

/-- R136: X is both the index and what is stored. -/
theorem test_stx_indexed :
    (after (put (core 0x1000#32 [0x13#8, 0x89#8, 0x00#8]) .x 2#32)).mem.bytesAt 0x902 3 = [0x00#8, 0x00#8, 0x02#8] := by decide

/-- R137: PC-relative and indexed; one byte. -/
theorem test_stch :
    let t := after (put (put (core 0x1008#32 [0x57#8, 0xA0#8, 0x0B#8]) .a 0x12345678#32) .x 2#32)
    t.mem.bytesAt 0x1017 3 = [0#8, 0x78#8, 0#8] := by decide

/-- R110. -/
theorem test_comp :
    (after (put (core 0x1000#32 [0x29#8, 0x00#8, 0x05#8]) .a 5#32)).cc = .eq ∧
      (after (put (core 0x1000#32 [0x29#8, 0x00#8, 0x05#8]) .a 3#32)).cc = .lt := by decide

/-- R110: A is signed, the memory word is not. -/
theorem test_comp_signed :
    (after (put (core 0x1000#32 [0x29#8, 0x00#8, 0x00#8]) .a 0xFFFFFFFF#32)).cc = .lt ∧
      (after (poke (core 0x1000#32 [0x2B#8, 0x09#8, 0x00#8]) 0x900 [0xFF#8, 0xFF#8, 0xFF#8])).cc = .lt := by decide

/-- R111: register A against register S. -/
theorem test_compr :
    let t := after (put (put (core 0x1000#32 [0xA0#8, 0x04#8]) .a 3#32) .s 5#32)
    t.cc = .lt ∧ t.regs.pc = 0x1002#32 := by decide

/-- R111, R14: register 7 reads as the address of the instruction. -/
theorem test_compr_pc : (after (put (core 0x1000#32 [0xA0#8, 0x70#8]) .a 0x1000#32)).cc = .eq := by decide

/-- R112. -/
theorem test_jeq :
    (after (flag (core 0x1000#32 [0x33#8, 0x20#8, 0x10#8]) .eq)).regs.pc = 0x1013#32 ∧
      (after (flag (core 0x1000#32 [0x33#8, 0x20#8, 0x10#8]) .lt)).regs.pc = 0x1003#32 := by decide

/-- R113: a negative displacement; GT falls through. -/
theorem test_jlt :
    (after (flag (core 0x1000#32 [0x3B#8, 0x2F#8, 0xF5#8]) .lt)).regs.pc = 0x0FF8#32 ∧
      (after (flag (core 0x1000#32 [0x3B#8, 0x2F#8, 0xF5#8]) .gt)).regs.pc = 0x1003#32 := by decide

/-- R120, R90: an indirect jump through a zero word ends the program. -/
theorem test_j_terminates :
    let t := after (core 0x1000#32 [0x3E#8, 0x20#8, 0x00#8, 0x00#8, 0x00#8, 0x00#8])
    t.regs.pc = 0#32 ∧ t.log = [.j] ∧ t.run = .halted := by decide

/-- R120, R15: a target below 0 is not checked by the jump; the next fetch faults there. -/
theorem test_j_unchecked :
    let t := after (core 0#32 [0x3F#8, 0x28#8, 0x01#8])
    t.regs.pc.toInt = -2044 ∧ t.run = .running ∧
      (after t).run = .faulted (.outOfRangeMemory t.regs.pc 1 t.regs.pc) := by decide

/-- R121, format 4. -/
theorem test_jsub_ext :
    let t := after (core 0x1000#32 [0x4B#8, 0x10#8, 0x20#8, 0x00#8])
    t.regs.l = 0x1004#32 ∧ t.regs.pc = 0x2000#32 := by decide

/-- R121, format 3. -/
theorem test_jsub :
    let t := after (core 0x1000#32 [0x4B#8, 0x20#8, 0x10#8])
    t.regs.l = 0x1003#32 ∧ t.regs.pc = 0x1013#32 := by decide

/-- R122. -/
theorem test_rsub : (after (put (core 0x1000#32 [0x4F#8, 0x00#8, 0x00#8]) .l 0x1234#32)).regs.pc = 0x1234#32 := by decide

/-- R122: L = 0 ends the program; the immediate pattern does not fault. -/
theorem test_rsub_halts : (after (core 0x1000#32 [0x4D#8, 0x00#8, 0x00#8])).run = .halted := by decide

/-- R160: the index reaches the limit. -/
theorem test_tixr :
    let t := after (put (put (core 0x1000#32 [0xB8#8, 0x50#8]) .x 2#32) .t 3#32)
    t.regs.x = 3#32 ∧ t.cc = .eq := by decide

/-- R160: the increment wraps. -/
theorem test_tixr_wraps :
    let t := after (put (core 0x1000#32 [0xB8#8, 0x50#8]) .x 0x7FFFFFFF#32)
    t.regs.x = 0x80000000#32 ∧ t.cc = .lt := by decide

/-- R161: `r2` is ignored. -/
theorem test_clear :
    let t := after (put (core 0x1000#32 [0xB4#8, 0x0F#8]) .a 77#32)
    t.regs.a = 0#32 ∧ t.regs.pc = 0x1002#32 := by decide

/-- R161: `CLEAR PC` does nothing; a field of 9 faults. -/
theorem test_clear_pc :
    (after (core 0x1000#32 [0xB4#8, 0x70#8])).regs.pc = 0x1002#32 ∧
      (after (core 0x1000#32 [0xB4#8, 0x90#8])).run = .faulted (.outOfRangeRegister 9#4 0x1000#32) := by decide

/-- R150: ready is LT. -/
theorem test_td :
    let t := after (script (poke (core 0x3004#32 [0xE3#8, 0x20#8, 0x14#8]) 0x301B [0xF1#8]) 0xF1#8 true [])
    t.cc = .lt ∧ t.regs.pc = 0x3007#32 ∧ t.lastDev = some 0xF1#8 := by decide

/-- R150: not ready is EQ. -/
theorem test_td_not_ready :
    (after (script (poke (core 0x3004#32 [0xE3#8, 0x20#8, 0x14#8]) 0x301B [0xF1#8]) 0xF1#8 false [])).cc = .eq := by decide

/-- R151: the next input byte. -/
theorem test_rd :
    let t := after (script (poke (core 0x300A#32 [0xDB#8, 0x20#8, 0x0E#8]) 0x301B [0xF1#8]) 0xF1#8 true [0x48#8])
    t.regs.a = 0x48#32 ∧ t.regs.pc = 0x300D#32 := by decide

/-- R151: at the end of the input, 0. -/
theorem test_rd_exhausted :
    (after (put (script (poke (core 0x300A#32 [0xDB#8, 0x20#8, 0x0E#8]) 0x301B [0xF1#8]) 0xF1#8 true [])
      .a 0x123456FF#32)).regs.a = 0x12345600#32 := by decide

/-- R152. -/
theorem test_wd :
    let t := after (put (script (poke (core 0x3012#32 [0xDF#8, 0x20#8, 0x07#8]) 0x301C [0x05#8]) 0x05#8 true []) .a 0x48#32)
    (t.device 0x05#8).output = [0x48#8] ∧ t.regs.pc = 0x3015#32 := by decide

/-! ### The load -/

/-- R200 to R209, `95_test_vectors.md` S2: the word at VALUEB's reference is relocated. -/
theorem test_load_relocates :
    (load ["HPROGA 001000000007".toList, "DENTRYA001000".toList, "T00100007031000004F0000".toList,
      "M00100105+VALUEB".toList, "E001000".toList, "HPROGB 001000000006".toList, "DVALUEB001000".toList,
      "T0010000600002A000010".toList, "M00100306+ENTRYA".toList, "E".toList] State.reset).2.mem.bytesAt 0x1000 13 =
      [0x03#8, 0x10#8, 0x10#8, 0x07#8, 0x4F#8, 0x00#8, 0x00#8, 0x00#8, 0x00#8, 0x2A#8, 0x00#8, 0x10#8, 0x10#8] := by
  decide

/-- R210: a malformed line fails the load. -/
theorem test_load_fails : (load ["X".toList] State.reset).2.run = .unloaded := by decide

/-- `State.reset` is what the load of a program with no Text record leaves, in a machine whose devices are closed (log 2). -/
theorem test_reset_is_a_load :
    (load ["HEMPTY 000000000000".toList, "E".toList] State.reset).2 = { State.reset with env := State.reset.env.tick } := rfl

/-! ### Witnesses: states and operands that meet the hypotheses of the statements, clause by clause -/

/-- Format 3 fields with flag x set. -/
def f3x (disp : BitVec 12) : Format3 := { n := true, i := true, x := true, b := false, p := false, disp := disp }

/-- A core with a large index, so that a format 3 operand reaches the top of memory; the device named at 65535 is `05`. -/
def top : State := put (poke (core 0x1000#32 []) 0xFFFF [0x05#8]) .x 0xF000#32

/-- The same, in an environment that lets no handle of `05` be opened. -/
def topClosed : State :=
  { top with
    env :=
      { scripts := [{ id := 0x05#8, ready := [], canRead := false, input := [], canWrite := false, truncates := false }]
        asked := 0 } }

/-- A step that reads a device, from a state that meets every invariant (`StepKeeps…`), and the state after it meets them. -/
theorem witness_invariants :
    let s := script (poke (core 0x300A#32 [0xDB#8, 0x20#8, 0x0E#8]) 0x301B [0xF1#8]) 0xF1#8 true [0x48#8]
    (s.memoryCanonical && s.devicesCanonical && s.runConsistent && s.registersReachable) = true ∧ step s = .next (after s) ∧
      ((after s).memoryCanonical && (after s).devicesCanonical && (after s).runConsistent &&
        (after s).registersReachable) = true ∧ (after s).devices ≠ [] :=
  ⟨by decide, rfl, by decide, by decide⟩

/-- `StepRunsDecodedInstruction`: an instruction of each length that ends at the last byte of memory. -/
theorem witness_step_runs_decoded :
    (core 0xFFFD#32 [0x03#8, 0x09#8, 0x00#8]).run = .running ∧
      decode (core 0xFFFD#32 [0x03#8, 0x09#8, 0x00#8]).window = .ok (.lda (f3 true true 0x900#12), []) ∧
      decode (core 0xFFFC#32 [0x03#8, 0x10#8, 0x09#8, 0x00#8]).window = .ok (.ldaExt (f4 true true 0x900#20), []) ∧
      decode (core 0xFFFE#32 [0xB8#8, 0x50#8]).window = .ok (.tixr (f2 5#4 0#4), []) := by decide

/-- `StepIsIdleOutsideRunning`, `RetiringHaltsExactlyAtZero` (third clause): a halted core. -/
theorem witness_not_running : (after (core 0x1000#32 [0x4F#8, 0x00#8, 0x00#8])).run = .halted := by decide

/-- `StepIsAtomic`, `EveryStepAnswersNext`: a step that completes and a step that faults. -/
theorem witness_both_outcomes :
    (core 0x1000#32 [0x01#8, 0x00#8, 0x05#8]).run = .running ∧
      (after (core 0x1000#32 [0x01#8, 0x00#8, 0x05#8])).log = [.lda] ∧
      (after (core 0x1000#32 [0x0D#8, 0x00#8, 0x05#8])).run = .faulted (.undefinedAddressing 0x1000#32) := by decide

/-- `FetchFaultsInOrder`: PC just outside memory at both ends, and each straddling instruction. -/
theorem witness_fetch_faults :
    ¬ InMemory 65536#32 1 ∧ ¬ InMemory 0xFFFFFFFF#32 1 ∧
      (∃ e, lookup ((core 65535#32 [0xB4#8]).mem.read 65535) = some e) ∧
      (∃ e, lookup ((core 65534#32 [0x03#8, 0x00#8]).mem.read 65534) = some e ∧
        resolvedFormat e ((core 65534#32 [0x03#8, 0x00#8]).mem.read 65535) = 3) ∧
      (∃ e, lookup ((core 65533#32 [0x03#8, 0x10#8]).mem.read 65533) = some e ∧
        resolvedFormat e ((core 65533#32 [0x03#8, 0x10#8]).mem.read 65534) = 4) ∧
      (∃ e, lookup ((core 65534#32 [0x03#8, 0x10#8]).mem.read 65534) = some e ∧
        resolvedFormat e ((core 65534#32 [0x03#8, 0x10#8]).mem.read 65535) = 4) :=
  ⟨by decide, by decide, ⟨_, rfl⟩, ⟨_, rfl, rfl⟩, ⟨_, rfl, rfl⟩, ⟨_, rfl, rfl⟩⟩

/-- `UncataloguedOpcodeFaults`: an illegal byte 0 at the last address is `InvalidOpcode` and not `OutOfRange` (R83), and a
legal one there is `OutOfRange`. -/
theorem witness_uncatalogued :
    (after (core 65535#32 [0x04#8])).run = .faulted (.invalidOpcode 65535#32 0x04#8) ∧
      (after (core 65535#32 [0xB4#8])).run = .faulted (.outOfRangeMemory 65536#32 1 65535#32) ∧ InMemory 65535#32 1 := by decide

/-- `FetchReadsMemoryAtPcOnly`: two different memories that agree on the four bytes at PC. -/
theorem witness_fetch_agrees :
    let s := core 0x1000#32 [0x03#8, 0x09#8, 0x00#8]
    let t := poke s 0x1004 [0xFF#8]
    s.regs.pc = t.regs.pc ∧ (∀ k, k < 4 → s.mem.read (0x1000 + k) = t.mem.read (0x1000 + k)) ∧ s.mem ≠ t.mem := by decide

/-- `RetiringHaltsExactlyAtZero`: an instruction that retires 0, one that does not, and a program that starts at 0. -/
theorem witness_retiring :
    exec (.rsub (f3 true true 0#12)) (core 0x1000#32 []) = .next ((core 0x1000#32 []).retire .rsub 0#32) ∧
      exec (.rsub (f3 true true 0#12)) (put (core 0x1000#32 []) .l 3#32) =
        .next ((put (core 0x1000#32 []) .l 3#32).retire .rsub 3#32) ∧
      fetch (core 0#32 [0x01#8, 0x00#8, 0x05#8]) = .ok (.lda (f3 false true 5#12)) :=
  ⟨rfl, rfl, by decide⟩

/-- `RunToCompletionIteratesStep`: two instructions, the second of which ends the program (k = 1). -/
theorem witness_run_to_completion :
    (stepCommand (core 0#32 [0x01#8, 0x00#8, 0x05#8, 0x4F#8, 0x00#8, 0x00#8])).2 = true ∧
    ((runToCompletion 3 (core 0#32 [0x01#8, 0x00#8, 0x05#8, 0x4F#8, 0x00#8, 0x00#8])).map fun t => (t.run, t.log)) =
      some (.halted, [.lda, .rsub]) := by decide

/-- `MemReadIsBigEndianAndChecked`, `MemWriteIsBigEndianAndChecked`: the accesses at the top of memory and just above it,
and a negative address. -/
theorem witness_access_bounds :
    (InMemory 65535#32 1 ∧ InMemory 65534#32 2 ∧ InMemory 65533#32 3 ∧ InMemory 0#32 3) ∧
      ¬ InMemory 65536#32 1 ∧ ¬ InMemory 65535#32 2 ∧ ¬ InMemory 65534#32 3 ∧ ¬ InMemory 0xFFFFFFFF#32 1 ∧
      top.memoryCanonical = true := by decide

/-- `FieldsAreReadByTheThreshold`: the two displacements at the threshold (R59). -/
theorem witness_threshold :
    (operand3 (f3 true true 0x800#12)).offset.toInt = 2048 ∧ (operand3 (f3 true true 0x801#12)).offset.toInt = -2047 := by decide

/-- `TargetAddressFollowsTheFlags` and the clauses of the instruction statements that name a target: in both formats the
highest legal word and byte, and the lowest illegal ones. -/
theorem witness_targets :
    (targetAddress (operand3 (f3x 0xFFD#12)) (top.nextPc 3) top = .ok 0xFFFD#32) ∧ InMemory 0xFFFD#32 3 ∧
      (targetAddress (operand3 (f3x 0xFFE#12)) (top.nextPc 3) top = .ok 0xFFFE#32) ∧ ¬ InMemory 0xFFFE#32 3 ∧
      (targetAddress (operand3 (f3x 0xFFF#12)) (top.nextPc 3) top = .ok 0xFFFF#32) ∧ InMemory 0xFFFF#32 1 ∧
      (targetAddress (operand4 (f4 true true 0xFFFD#20)) (top.nextPc 4) top = .ok 0xFFFD#32) ∧
      (targetAddress (operand4 (f4 true true 0xFFFE#20)) (top.nextPc 4) top = .ok 0xFFFE#32) ∧
      (targetAddress (operand4 (f4 true true 0xFFFF#20)) (top.nextPc 4) top = .ok 0xFFFF#32) ∧
      (targetAddress (operand4 (f4 true true 0x10000#20)) (top.nextPc 4) top = .ok 0x10000#32) ∧ ¬ InMemory 0x10000#32 1 := by
  decide

/-- The lowest illegal byte address in format 3. -/
theorem witness_byte_target_out :
    (targetAddress (operand3 (f3x 0xFFF#12)) (top.nextPc 3) (put top .x 0xF001#32) = .ok 0x10000#32) ∧ ¬ InMemory 0x10000#32 1 := by
  decide

/-- `FaultsWithTarget`: an indirect pattern whose pointer is outside memory, in both formats. -/
theorem witness_pointer_fault :
    (operand3 { f3x 0xFFE#12 with i := false }).isImmediate = false ∧
      (targetAddress (operand3 { f3x 0xFFE#12 with i := false }) (top.nextPc 3) top =
        .error (.outOfRangeMemory 0xFFFE#32 3 0x1000#32)) ∧
      (operand4 (f4 true false 0xFFFE#20)).isImmediate = false ∧
      (targetAddress (operand4 (f4 true false 0xFFFE#20)) (top.nextPc 4) top =
        .error (.outOfRangeMemory 0xFFFE#32 3 0x1000#32)) ∧
      (targetAddress (operand4 (f4 true false 0xFFFD#20)) (top.nextPc 4) top = .ok 0x000005#32) := by
  decide

/-- The immediate clauses, in both formats. -/
theorem witness_immediate :
    (operand3 (f3 false true 5#12)).isImmediate = true ∧ (operand4 (f4 false true 5#20)).isImmediate = true ∧
      (f3 false true 5#12).n = false ∧ (f3 false true 5#12).i = true := by decide

/-- `OperandValueIsRawOrRead`: a read that succeeds and one that fails. -/
theorem witness_operand_value :
    top.memRead 0xFFFD#32 3 = .ok 5#32 ∧ top.memRead 0xFFFE#32 3 = .error (.outOfRangeMemory 0xFFFE#32 3 0x1000#32) := by decide

/-- `JeqBranchesOnEqual`, `JltBranchesOnLess`: each value of the flag. -/
theorem witness_flags : (flag top .eq).cc = .eq ∧ (flag top .lt).cc = .lt ∧ (flag top .gt).cc = .gt := by decide

/-- The register fields of format 2: the largest legal value and the smallest illegal one
(`RegisterIndicesFollowTheTable` too). -/
theorem witness_register_fields :
    Reg.ofIndex (f2 8#4 0#4).r1.toNat = some .sw ∧ Reg.ofIndex (f2 8#4 0#4).r2.toNat = some .a ∧
      Reg.ofIndex (f2 1#4 7#4).r1.toNat = some .x ∧ (f2 9#4 0#4).r1.toNat > 8 ∧ (f2 8#4 9#4).r2.toNat > 8 := by decide

/-- `RdReadsOneByte`, `WdAppendsOneByte`, `TdSetsFlagFromReadiness`: a device whose handles can be opened, one whose handles
are open, and one whose handles cannot be opened. -/
theorem witness_devices :
    let s := script top 0x05#8 true [1#8]
    let opened := s.setDevice 0x05#8 { readOpen := true, input := [1#8], cursor := 1, writeOpen := true, output := [] }
    (top.mem.read 0xFFFF = 0x05#8 ∧ s.env.canRead 0x05#8 = true ∧ s.env.canWrite 0x05#8 = true ∧
      s.env.ready 0x05#8 = true ∧ s.devicesCanonical = true) ∧
      ((opened.device 0x05#8).readOpen = true ∧ (opened.device 0x05#8).writeOpen = true ∧
        opened.devicesCanonical = true) ∧
      ((topClosed.device 0x05#8).readOpen = false ∧ topClosed.env.canRead 0x05#8 = false ∧
        (topClosed.device 0x05#8).writeOpen = false ∧ topClosed.env.canWrite 0x05#8 = false) := by decide

/-- `RegisterBIsNeverRead`, `FlagIsReadByBranchesOnly`, `TraceAndAccumulatorAreNeverRead`, `StateChangesOnlyAsTabled`: an
instruction that is none of the excluded ones and answers a next state. -/
theorem witness_noninterference :
    (Instr.lda (f3 false true 5#12)).length ≠ 2 ∧ (Instr.lda (f3 false true 5#12)).mnemonic ≠ .jeq ∧
      (Instr.lda (f3 false true 5#12)).mnemonic ≠ .jlt ∧
      exec (.lda (f3 false true 5#12)) top = .next (top.setReg .a 5#32 |>.retire .lda 0x1003#32) :=
  ⟨by decide, by decide, by decide, rfl⟩

/-- The load statements: a load that succeeds from a state whose device table is canonical, and one that fails
(`FailedLoadLeavesUnloaded`). -/
theorem witness_loads :
    State.reset.devicesCanonical = true ∧
      (load ["HP     001000000003".toList, "T001000034F0000".toList, "E".toList] State.reset).1.toOption =
        some { name := "P     ".toList, start := 0x1000, length := 3, entry := 0x1000 } ∧
      (load ["T001000".toList] State.reset).1 = .error (.parseError "T001000".toList) := by decide

/-- `LoadLeavesTheCleanState`, its last three clauses: the addresses next to the only field a program writes; an entry from the
End record, and a start used where that record has none. -/
theorem witness_load_fields :
    let lines := ["HP     001000000006".toList, "T001000034F0000".toList, "E001003".toList]
    Claims.placements 0 0 (lines.filterMap parseRecord) = [(0x1000, 3)] ∧
      Claims.firstStart (lines.filterMap parseRecord) = some 0x1000 ∧
      Claims.firstEndAddress (lines.filterMap parseRecord) = some 0x1003 ∧
      Claims.firstEndAddress (["E".toList].filterMap parseRecord) = none ∧
      (load lines State.reset).2.regs.pc = 0x1003#32 ∧ (load lines State.reset).2.mem.read 0x1000 = 0x4F#8 ∧
      (load lines State.reset).2.mem.read 0x0FFF = 0#8 ∧ (load lines State.reset).2.mem.read 0x1003 = 0#8 := by decide

/-- `ShutdownLeavesOnlyTheEnvironment`: two cores that differ and share their devices and environment. -/
theorem witness_shutdown :
    top.devicesCanonical = true ∧ (put top .a 1#32).devices = top.devices ∧ (put top .a 1#32).env = top.env ∧
      put top .a 1#32 ≠ top := by decide

/-- `TextRecordPlacesItsBytes`: a payload that ends at the last byte of memory, and one that ends just above it. -/
theorem witness_text_bounds :
    LoadState.start.mem.wf = true ∧ 65534 + LoadState.start.csLen + [1#8, 2#8].length ≤ 65536 ∧
      65535 + LoadState.start.csLen + [1#8, 2#8].length > 65536 := by decide

/-- `ModifyRelocatesTheField`: an odd field length, the last bytes of memory, both signs. -/
theorem witness_modify :
    let plus : PendingModify := { addr := 65533, digits := 5, negative := false, symbol := "B".toList }
    plus.addr + plus.width ≤ 65536 ∧ SymbolTable.resolve [("B".toList, 2)] plus.symbol = .ok 2 ∧
      (plus.apply [("B".toList, 2)] top.mem).map (fun m => Memory.bytesAt m 65533 3) = .ok [0#8, 0#8, 7#8] ∧
      ({ plus with negative := true }.apply [("B".toList, 6)] top.mem).map (fun m => Memory.bytesAt m 65533 3) =
        .ok [0xFF#8, 0xFF#8, 0xFF#8] := by decide

end Sys2Proof.Tests
end

/-! PROOFS. The statements of `10_state.md`: the register file, what an instruction may change, what it never reads, and the
state a load leaves. -/

/-! ### Registers by index -/

namespace Sys2Proof.Proofs

open Sys2Proof.Machine

/-- Settles O29: the table read off `Reg.ofIndex`, and the read and write laws of the register file. -/
theorem registerIndicesFollowTheTable : Obligations.RegisterIndicesFollowTheTable := by
  unfold Obligations.RegisterIndicesFollowTheTable
  refine ⟨⟨rfl, rfl, rfl, rfl, rfl, rfl, rfl, rfl, rfl, fun k hk => Reg.ofIndex_eq_none.2 hk⟩,
    fun s => ⟨rfl, rfl, rfl, rfl, rfl, rfl, rfl, rfl, rfl⟩, fun s r v => ?_⟩
  exact ⟨State.reg_setReg_self s r v, fun r' h => State.reg_setReg_of_ne s v h, rfl⟩

end Sys2Proof.Proofs

/-! ### What an instruction may change -/

namespace Sys2Proof.Machine

/-- The mnemonics that write a register (`10_state.md` R13). The PC is left out of the claims below: every instruction
writes it when it retires. -/
def writers : Reg → List Mnemonic
  | .a => [.lda, .ldch, .rd, .clear]
  | .x => [.tixr, .clear]
  | .l => [.jsub, .clear]
  | .t => [.ldt, .clear]
  | .b | .s | .f | .pc | .sw => [.clear]

theorem clear_mem_writers (r : Reg) : .clear ∈ writers r := by cases r <;> decide

/-- The registers of `t` differ from those of `s` only where the mnemonic is a writer, and by 0 where it is `CLEAR`. -/
def RegsChangeAsTabled (m : Mnemonic) (s t : State) : Prop :=
  ∀ r, r ≠ .pc → t.reg r ≠ s.reg r → m ∈ writers r ∧ (m = .clear → t.reg r = 0#32)

theorem RegsChangeAsTabled.of_eq {m : Mnemonic} {s t : State} (h : t.regs = s.regs) : RegsChangeAsTabled m s t :=
  fun r _ hne => absurd (congrArg (Regs.get · r) h) hne

theorem RegsChangeAsTabled.of_set {m : Mnemonic} {s t : State} {r : Reg} {v : Word} (hm : m ∈ writers r)
    (hv : m = .clear → v = 0#32) (h : t.regs = s.regs.set r v) : RegsChangeAsTabled m s t := by
  intro r' _ hne
  have hread : t.reg r' = (s.setReg r v).reg r' := congrArg (Regs.get · r') h
  by_cases hr : r' = r
  · subst hr
    rw [hread, State.reg_setReg_self]
    exact ⟨hm, hv⟩
  · rw [hread, State.reg_setReg_of_ne s v hr] at hne
    exact absurd rfl hne

/-- What an instruction may change between two states (`10_state.md` section 1). -/
structure ChangesAsTabled (m : Mnemonic) (s t : State) : Prop where
  regs : RegsChangeAsTabled m s t
  cc : t.cc = s.cc ∨ m ∈ [.comp, .compr, .tixr, .td]
  mem : t.mem = s.mem ∨ m ∈ [.sta, .stl, .stx, .stch]
  lastDev : t.lastDev = s.lastDev ∨ m ∈ [.td, .rd, .wd]
  facc : t.facc = s.facc

/-- A state that differs in nothing differs as tabled. -/
theorem ChangesAsTabled.refl (m : Mnemonic) (s : State) : ChangesAsTabled m s s :=
  ⟨.of_eq rfl, .inl rfl, .inl rfl, .inl rfl, rfl⟩

/-- A completed `DevRead` changes the devices and the environment only. -/
theorem State.devRead_frame {s t : State} {d v : Byte} (h : s.devRead d = .ok (v, t)) :
    t = { s with devices := t.devices, env := t.env } := by
  obtain ⟨dev, -, ⟨-, rfl⟩ | ⟨-, -, rfl⟩⟩ := State.devRead_eq_ok.1 h <;> rfl

/-- A completed `DevWrite` changes the devices and the environment only. -/
theorem State.devWrite_frame {s t : State} {d v : Byte} (h : s.devWrite d v = .ok t) :
    t = { s with devices := t.devices, env := t.env } := by
  obtain ⟨dev, -, rfl⟩ := State.devWrite_eq_ok.1 h
  rfl

/-- Writing a register of the mnemonic's column is a tabled change. -/
theorem ChangesAsTabled.setReg {m : Mnemonic} (s : State) {r : Reg} (v : Word) (hm : m ∈ writers r)
    (hv : m = .clear → v = 0#32) : ChangesAsTabled m s (s.setReg r v) :=
  ⟨.of_set hm hv rfl, .inl rfl, .inl rfl, .inl rfl, rfl⟩

/-- Noting the target address changes nothing the table speaks of. -/
theorem ChangesAsTabled.noteTarget {m : Mnemonic} {s u : State} (h : ChangesAsTabled m s u) (ta : Option Word) :
    ChangesAsTabled m s (u.noteTarget ta) := by
  cases ta with
  | none => exact h
  | some a => exact { h with }

/-- A handler's result differs from the state before it as tabled. -/
theorem handler_changesAsTabled {i : Instr} {next npc : Word} {s u : State} (h : handlerOf i next s = .ok (u, npc)) :
    ChangesAsTabled i.mnemonic s u := by
  cases i with
  | lda g | ldaExt g | ldt g | ldtExt g =>
    obtain ⟨v, ta, -, rfl, -⟩ := loadWord_eq_ok.1 h
    exact (ChangesAsTabled.setReg s _ (by simp [Instr.mnemonic, writers]) (by nofun)).noteTarget ta
  | ldch g | ldchExt g =>
    obtain ⟨v, ta, -, rfl, -⟩ := loadByte_eq_ok.1 h
    exact (ChangesAsTabled.setReg s _ (by simp [Instr.mnemonic, writers]) (by nofun)).noteTarget ta
  | jsub g | jsubExt g =>
    obtain ⟨ta, -, rfl, -⟩ := call_eq_ok.1 h
    exact (ChangesAsTabled.setReg s _ (by simp [Instr.mnemonic, writers]) (by nofun)).noteTarget (some ta)
  | clear g =>
    obtain ⟨r, -, rfl, -⟩ := clearReg_eq_ok.1 h
    exact .setReg s _ (clear_mem_writers r) fun _ => rfl
  | tixr g =>
    obtain ⟨r, -, -, rfl⟩ := incrementCompare_eq_ok.1 h
    refine ⟨.of_set (r := .x) ?_ nofun rfl, .inr ?_, .inl rfl, .inl rfl, rfl⟩ <;> simp [Instr.mnemonic, writers]
  | sta g | staExt g | stl g | stlExt g | stx g | stxExt g | stch g | stchExt g =>
    obtain ⟨ta, w, -, hw, rfl, -⟩ := storeBytes_eq_ok.1 h
    obtain ⟨-, rfl⟩ := State.memWrite_eq_ok.1 hw
    refine ChangesAsTabled.noteTarget ?_ (some ta)
    exact ⟨.of_eq rfl, .inl rfl, .inr (by simp [Instr.mnemonic]), .inl rfl, rfl⟩
  | comp g | compExt g =>
    obtain ⟨v, ta, -, rfl, -⟩ := compareWord_eq_ok.1 h
    refine ChangesAsTabled.noteTarget ?_ ta
    exact ⟨.of_eq rfl, .inr (by simp [Instr.mnemonic]), .inl rfl, .inl rfl, rfl⟩
  | compr g =>
    obtain ⟨r1, r2, -, -, rfl, -⟩ := compareRegs_eq_ok.1 h
    exact ⟨.of_eq rfl, .inr (by simp [Instr.mnemonic]), .inl rfl, .inl rfl, rfl⟩
  | jeq g | jeqExt g | jlt g | jltExt g =>
    obtain ⟨ta, -, rfl, -⟩ := branchIf_eq_ok.1 h
    exact (ChangesAsTabled.refl _ s).noteTarget (some ta)
  | j g | jExt g =>
    obtain ⟨ta, -, rfl, -⟩ := jump_eq_ok.1 h
    exact (ChangesAsTabled.refl _ s).noteTarget (some ta)
  | rsub g | rsubExt g =>
    obtain ⟨rfl, -⟩ := returnThroughL_eq_ok (next := next).1 h
    exact .refl _ _
  | td g | tdExt g =>
    obtain ⟨d, ta, -, -, rfl⟩ := testDevice_eq_ok.1 h
    refine ⟨.of_eq rfl, .inr ?_, .inl rfl, .inr ?_, rfl⟩ <;> simp [Instr.mnemonic]
  | rd g | rdExt g =>
    obtain ⟨d, ta, v, w, -, hr, -, rfl⟩ := readDevice_eq_ok.1 h
    rw [State.devRead_frame hr]
    refine ⟨.of_set (r := .a) ?_ nofun rfl, .inl rfl, .inl rfl, .inr ?_, rfl⟩ <;> simp [Instr.mnemonic, writers]
  | wd g | wdExt g =>
    obtain ⟨d, ta, w, -, hw, -, rfl⟩ := writeDevice_eq_ok.1 h
    rw [State.devWrite_frame hw]
    exact ⟨.of_eq rfl, .inl rfl, .inl rfl, .inr (by simp [Instr.mnemonic]), rfl⟩

/-- Fault entry changes nothing the table speaks of. -/
theorem ChangesAsTabled.raise (m : Mnemonic) (s : State) (f : Fault) : ChangesAsTabled m s (s.raise f) :=
  { ChangesAsTabled.refl m s with }

theorem State.reg_retire_of_ne_pc (s : State) (m : Mnemonic) (npc : Word) {r : Reg} (h : r ≠ .pc) :
    (s.retire m npc).reg r = s.reg r := by
  rw [State.reg, State.regs_retire]
  cases r with
  | pc => exact absurd rfl h
  | _ => rfl

/-- Retiring changes nothing the table speaks of. -/
theorem ChangesAsTabled.retire {m : Mnemonic} {s u : State} (h : ChangesAsTabled m s u) (m' : Mnemonic) (npc : Word) :
    ChangesAsTabled m s (u.retire m' npc) where
  regs r hr := by
    rw [State.reg_retire_of_ne_pc u m' npc hr]
    exact h.regs r hr
  cc := by simpa using h.cc
  mem := by simpa using h.mem
  lastDev := by simpa using h.lastDev
  facc := by simpa using h.facc

theorem exec_changesAsTabled {i : Instr} {s t : State} (h : exec i s = .next t) : ChangesAsTabled i.mnemonic s t := by
  rcases exec_cases h with ⟨f, -, rfl⟩ | ⟨u, npc, hu, rfl⟩
  · exact .raise _ s f
  · exact (handler_changesAsTabled hu).retire _ npc

/-- A register that `CLEAR` alone writes changes only to 0. -/
theorem RegsChangeAsTabled.cleared {m : Mnemonic} {s t : State} (h : RegsChangeAsTabled m s t) {r : Reg} (hr : r ≠ .pc)
    (hw : writers r = [.clear]) (hne : t.reg r ≠ s.reg r) : m = .clear ∧ t.reg r = 0#32 := by
  obtain ⟨hm, hzero⟩ := h r hr hne
  rw [hw, List.mem_singleton] at hm
  exact ⟨hm, hzero hm⟩

end Sys2Proof.Machine

namespace Sys2Proof.Proofs

open Sys2Proof.Machine

/-- Settles O52: every handler changes the state as tabled, and neither retiring nor a fault adds to it. -/
theorem stateChangesOnlyAsTabled : Obligations.StateChangesOnlyAsTabled := by
  unfold Obligations.StateChangesOnlyAsTabled
  intro i s t h
  obtain ⟨hregs, hcc, hmem, hdev, hfacc⟩ := exec_changesAsTabled h
  exact ⟨fun hne => (hregs .a nofun hne).1, fun hne => (hregs .x nofun hne).1, fun hne => (hregs .l nofun hne).1,
    fun hne => (hregs .t nofun hne).1, hregs.cleared (r := .b) nofun rfl, hregs.cleared (r := .s) nofun rfl,
    hregs.cleared (r := .f) nofun rfl, hregs.cleared (r := .sw) nofun rfl, hcc.resolve_left, hmem.resolve_left,
    hdev.resolve_left, hfacc⟩

end Sys2Proof.Proofs

/-! ### What an instruction never reads -/

namespace Sys2Proof.Machine

/-- New values for the flag, LOG, LAST_TA, LAST_DEV and the floating accumulator; `none` keeps the state's own. -/
structure Overlay where
  cc : Option CC
  log : Option (List Mnemonic)
  lastTa : Option (Option Word)
  lastDev : Option (Option Byte)
  facc : Option (BitVec Config.faccWidth)

/-- The state with the values of an overlay laid over its own. -/
def State.overlay (s : State) (v : Overlay) : State :=
  { s with
    cc := v.cc.getD s.cc
    log := v.log.getD s.log
    lastTa := v.lastTa.getD s.lastTa
    lastDev := v.lastDev.getD s.lastDev
    facc := v.facc.getD s.facc }

/-- What is left of an overlay after an instruction: a field among CC, LAST_TA and LAST_DEV that is not kept was written, and
no longer shows the overlay's value. -/
def Overlay.keep (v : Overlay) (keepsCc keepsTa keepsDev : Bool) : Overlay :=
  { v with
    cc := if keepsCc then v.cc else none
    lastTa := if keepsTa then v.lastTa else none
    lastDev := if keepsDev then v.lastDev else none }

/-- The overlay after an instruction that completes: LOG gains its mnemonic. -/
def Overlay.logged (v : Overlay) (m : Mnemonic) : Overlay := { v with log := v.log.map (· ++ [m]) }

/-- The overlay of CC alone. -/
def Overlay.flag (c : CC) : Overlay := { cc := some c, log := none, lastTa := none, lastDev := none, facc := none }

/-- The overlay of every field but CC. -/
def Overlay.trace (log : List Mnemonic) (ta : Option Word) (dev : Option Byte) (facc : BitVec Config.faccWidth) : Overlay :=
  { cc := none, log := some log, lastTa := some ta, lastDev := some dev, facc := some facc }

theorem getD_ite_none {α : Type} (keeps : Bool) (x y : α) :
    (if keeps then some x else none).getD y = if keeps then x else y := by
  cases keeps <;> rfl

/-- What the overlay of CC leaves after an instruction that completes. -/
theorem State.overlay_flag_done (t : State) (c : CC) (keepsCc keepsTa keepsDev : Bool) (m : Mnemonic) :
    t.overlay (((Overlay.flag c).keep keepsCc keepsTa keepsDev).logged m) =
      { t with cc := if keepsCc then c else t.cc } := by
  simp [State.overlay, Overlay.flag, Overlay.keep, Overlay.logged, getD_ite_none]

/-- What the overlay of the other four leaves after an instruction that completes. -/
theorem State.overlay_trace_done (t : State) (log : List Mnemonic) (ta : Option Word) (dev : Option Byte)
    (facc : BitVec Config.faccWidth) (keepsCc keepsTa keepsDev : Bool) (m : Mnemonic) :
    t.overlay (((Overlay.trace log ta dev facc).keep keepsCc keepsTa keepsDev).logged m) =
      { t with
        log := log ++ [m]
        lastTa := if keepsTa then ta else t.lastTa
        lastDev := if keepsDev then dev else t.lastDev
        facc := facc } := by
  simp [State.overlay, Overlay.trace, Overlay.keep, Overlay.logged, getD_ite_none]

/-- A handler's answer with an overlay laid over the state it gives. -/
def overlayResult (v : Overlay) : Except Fault (State × Word) → Except Fault (State × Word)
  | .error f => .error f
  | .ok (t, npc) => .ok (t.overlay v, npc)

/-! #### The operations on an overlaid state -/

theorem targetAddress_overlay (o : Operand) (next : Word) (s : State) (v : Overlay) :
    targetAddress o next (s.overlay v) = targetAddress o next s := rfl

theorem operandValue_overlay (k : Nat) (o : Operand) (next : Word) (s : State) (v : Overlay) :
    operandValue k o next (s.overlay v) = operandValue k o next s := rfl

theorem deviceId_overlay (o : Operand) (next : Word) (s : State) (v : Overlay) :
    deviceId o next (s.overlay v) = deviceId o next s := rfl

theorem State.regIndex_overlay (s : State) (v : Overlay) (r : BitVec 4) : (s.overlay v).regIndex r = s.regIndex r := rfl

theorem State.memWrite_overlay (s : State) (v : Overlay) (addr : Word) (n : Nat) (w : Word) :
    (s.overlay v).memWrite addr n w = (s.memWrite addr n w).map (·.overlay v) := by
  unfold State.memWrite State.checked
  split <;> rfl

theorem State.devRead_overlay (s : State) (v : Overlay) (d : Byte) :
    (s.overlay v).devRead d = (s.devRead d).map fun p => (p.1, p.2.overlay v) := by
  have hopen : (s.overlay v).openForRead d = s.openForRead d := rfl
  unfold State.devRead
  rw [hopen]
  cases s.openForRead d with
  | error f => rfl
  | ok dev => cases hb : dev.input[dev.cursor]? <;> simp only [hb] <;> rfl

theorem State.devWrite_overlay (s : State) (v : Overlay) (d b : Byte) :
    (s.overlay v).devWrite d b = (s.devWrite d b).map (·.overlay v) := by
  have hopen : (s.overlay v).openForWrite d = s.openForWrite d := rfl
  unfold State.devWrite
  rw [hopen]
  cases s.openForWrite d <;> rfl

/-- Noting the address an operand resolved writes LAST_TA, except where the operand is immediate. -/
theorem noteTarget_overlayResult {k : Nat} {o : Operand} {next w : Word} {s : State} {ta : Option Word}
    (h : operandValue k o next s = .ok (w, ta)) (t : State) (v : Overlay) :
    .ok ((t.overlay v).noteTarget ta, next) =
      overlayResult (v.keep true o.isImmediate true) (.ok (t.noteTarget ta, next)) := by
  rcases operandValue_eq_ok.1 h with ⟨himm, -, rfl⟩ | ⟨a, hta, -, rfl⟩
  · rw [himm]
    rfl
  · rw [(targetAddress_eq_ok.1 hta).1]
    rfl

/-! #### The handlers on an overlaid state -/

theorem loadWord_overlay (r : Reg) (o : Operand) (next : Word) (s : State) (v : Overlay) :
    loadWord r o next (s.overlay v) = overlayResult (v.keep true o.isImmediate true) (loadWord r o next s) := by
  unfold loadWord
  rw [operandValue_overlay]
  cases h : operandValue 3 o next s with
  | error f => rfl
  | ok p =>
    obtain ⟨w, ta⟩ := p
    exact noteTarget_overlayResult h (s.setReg r w) v

theorem loadByte_overlay (o : Operand) (next : Word) (s : State) (v : Overlay) :
    loadByte o next (s.overlay v) = overlayResult (v.keep true o.isImmediate true) (loadByte o next s) := by
  unfold loadByte
  rw [operandValue_overlay]
  cases h : operandValue 1 o next s with
  | error f => rfl
  | ok p =>
    obtain ⟨w, ta⟩ := p
    exact noteTarget_overlayResult h (s.setReg .a (withLowByte (s.reg .a) (w.setWidth 8))) v

theorem compareWord_overlay (o : Operand) (next : Word) (s : State) (v : Overlay) :
    compareWord o next (s.overlay v) = overlayResult (v.keep false o.isImmediate true) (compareWord o next s) := by
  unfold compareWord
  rw [operandValue_overlay]
  cases h : operandValue 3 o next s with
  | error f => rfl
  | ok p =>
    obtain ⟨w, ta⟩ := p
    exact noteTarget_overlayResult h { s with cc := compareSigned s.regs.a w } (v.keep false true true)

theorem storeBytes_overlay (r : Reg) (k : Nat) (o : Operand) (next : Word) (s : State) (v : Overlay) :
    storeBytes r k o next (s.overlay v) = overlayResult (v.keep true false true) (storeBytes r k o next s) := by
  unfold storeBytes
  rw [targetAddress_overlay]
  cases targetAddress o next s with
  | error f => rfl
  | ok ta =>
    have hw : (s.overlay v).memWrite ta k ((s.overlay v).reg r) = (s.memWrite ta k (s.reg r)).map (·.overlay v) :=
      State.memWrite_overlay s v ta k (s.reg r)
    simp only [hw]
    cases s.memWrite ta k (s.reg r) <;> rfl

/-- The branches are the only handlers that read CC: an overlay that keeps it does not change where they go. -/
theorem branchIf_overlay (want : CC) (o : Operand) (next : Word) (s : State) {v : Overlay} (hcc : v.cc = none) :
    branchIf want o next (s.overlay v) = overlayResult (v.keep true false true) (branchIf want o next s) := by
  have hs : (s.overlay v).cc = s.cc := by simp [State.overlay, hcc]
  unfold branchIf
  rw [targetAddress_overlay, hs]
  cases targetAddress o next s <;> rfl

theorem jump_overlay (o : Operand) (next : Word) (s : State) (v : Overlay) :
    jump o next (s.overlay v) = overlayResult (v.keep true false true) (jump o next s) := by
  unfold jump
  rw [targetAddress_overlay]
  cases targetAddress o next s <;> rfl

theorem call_overlay (o : Operand) (next : Word) (s : State) (v : Overlay) :
    call o next (s.overlay v) = overlayResult (v.keep true false true) (call o next s) := by
  unfold call
  rw [targetAddress_overlay]
  cases targetAddress o next s <;> rfl

theorem returnThroughL_overlay (next : Word) (s : State) (v : Overlay) :
    returnThroughL next (s.overlay v) = overlayResult (v.keep true true true) (returnThroughL next s) := rfl

theorem compareRegs_overlay (f : Format2) (next : Word) (s : State) (v : Overlay) :
    compareRegs f next (s.overlay v) = overlayResult (v.keep false true true) (compareRegs f next s) := by
  unfold compareRegs
  simp only [State.regIndex_overlay]
  cases s.regIndex f.r1 with
  | error e => rfl
  | ok r1 => cases s.regIndex f.r2 <;> rfl

theorem clearReg_overlay (f : Format2) (next : Word) (s : State) (v : Overlay) :
    clearReg f next (s.overlay v) = overlayResult (v.keep true true true) (clearReg f next s) := by
  unfold clearReg
  rw [State.regIndex_overlay]
  cases s.regIndex f.r1 <;> rfl

theorem incrementCompare_overlay (f : Format2) (next : Word) (s : State) (v : Overlay) :
    incrementCompare f next (s.overlay v) = overlayResult (v.keep false true true) (incrementCompare f next s) := by
  unfold incrementCompare
  rw [State.regIndex_overlay]
  cases s.regIndex f.r1 <;> rfl

theorem testDevice_overlay (o : Operand) (next : Word) (s : State) (v : Overlay) :
    testDevice o next (s.overlay v) = overlayResult (v.keep false false false) (testDevice o next s) := by
  unfold testDevice
  rw [deviceId_overlay]
  cases deviceId o next s <;> rfl

theorem readDevice_overlay (o : Operand) (next : Word) (s : State) (v : Overlay) :
    readDevice o next (s.overlay v) = overlayResult (v.keep true false false) (readDevice o next s) := by
  unfold readDevice
  rw [deviceId_overlay]
  cases deviceId o next s with
  | error f => rfl
  | ok p =>
    simp only [State.devRead_overlay]
    cases s.devRead p.1 <;> rfl

theorem writeDevice_overlay (o : Operand) (next : Word) (s : State) (v : Overlay) :
    writeDevice o next (s.overlay v) = overlayResult (v.keep true false false) (writeDevice o next s) := by
  unfold writeDevice
  rw [deviceId_overlay]
  cases deviceId o next s with
  | error f => rfl
  | ok p =>
    simp only [State.devWrite_overlay]
    have hreg : (s.overlay v).reg .a = s.reg .a := rfl
    rw [hreg]
    cases s.devWrite p.1 ((s.reg .a).setWidth 8) <;> rfl

/-! #### The instructions on an overlaid state -/

/-- Every handler does the same over an overlay, and keeps or overwrites each of CC, LAST_TA and LAST_DEV whatever it was;
only those of `JEQ` and `JLT` read one of the overlaid fields, CC. -/
theorem handler_overlay (i : Instr) : ∃ keepsCc keepsTa keepsDev : Bool, ∀ (next : Word) (s : State) (v : Overlay),
    (i.mnemonic = .jeq ∨ i.mnemonic = .jlt → v.cc = none) →
      handlerOf i next (s.overlay v) = overlayResult (v.keep keepsCc keepsTa keepsDev) (handlerOf i next s) := by
  cases i with
  | lda g | ldaExt g | ldt g | ldtExt g => exact ⟨_, _, _, fun next s v _ => loadWord_overlay _ _ next s v⟩
  | ldch g | ldchExt g => exact ⟨_, _, _, fun next s v _ => loadByte_overlay _ next s v⟩
  | sta g | staExt g | stl g | stlExt g | stx g | stxExt g | stch g | stchExt g =>
    exact ⟨_, _, _, fun next s v _ => storeBytes_overlay _ _ _ next s v⟩
  | comp g | compExt g => exact ⟨_, _, _, fun next s v _ => compareWord_overlay _ next s v⟩
  | compr g => exact ⟨_, _, _, fun next s v _ => compareRegs_overlay _ next s v⟩
  | jeq g | jeqExt g => exact ⟨_, _, _, fun next s v hv => branchIf_overlay _ _ next s (hv (.inl rfl))⟩
  | jlt g | jltExt g => exact ⟨_, _, _, fun next s v hv => branchIf_overlay _ _ next s (hv (.inr rfl))⟩
  | j g | jExt g => exact ⟨_, _, _, fun next s v _ => jump_overlay _ next s v⟩
  | jsub g | jsubExt g => exact ⟨_, _, _, fun next s v _ => call_overlay _ next s v⟩
  | rsub g | rsubExt g => exact ⟨_, _, _, fun next s v _ => returnThroughL_overlay next s v⟩
  | clear g => exact ⟨_, _, _, fun next s v _ => clearReg_overlay _ next s v⟩
  | tixr g => exact ⟨_, _, _, fun next s v _ => incrementCompare_overlay _ next s v⟩
  | td g | tdExt g => exact ⟨_, _, _, fun next s v _ => testDevice_overlay _ next s v⟩
  | rd g | rdExt g => exact ⟨_, _, _, fun next s v _ => readDevice_overlay _ next s v⟩
  | wd g | wdExt g => exact ⟨_, _, _, fun next s v _ => writeDevice_overlay _ next s v⟩

theorem State.retire_overlay (s : State) (v : Overlay) (m : Mnemonic) (npc : Word) :
    (s.overlay v).retire m npc = (s.retire m npc).overlay (v.logged m) := by
  obtain ⟨cc, log, ta, dev, facc⟩ := v
  by_cases h : npc = 0#32
  · subst h
    cases log <;> rfl
  · rw [State.retire_of_ne _ m h, State.retire_of_ne _ m h]
    cases log <;> rfl

/-- What an overlay does to the outcome of an instruction: a fault leaves them all, and a completed instruction
keeps or overwrites each of CC, LAST_TA and LAST_DEV and appends its mnemonic to LOG. -/
theorem exec_overlay {i : Instr} {s t : State} (h : exec i s = .next t) :
    (∀ v : Overlay, (i.mnemonic = .jeq ∨ i.mnemonic = .jlt → v.cc = none) →
      exec i (s.overlay v) = .next (t.overlay v)) ∨
    ∃ keepsCc keepsTa keepsDev : Bool, ∀ v : Overlay, (i.mnemonic = .jeq ∨ i.mnemonic = .jlt → v.cc = none) →
      exec i (s.overlay v) = .next (t.overlay ((v.keep keepsCc keepsTa keepsDev).logged i.mnemonic)) := by
  obtain ⟨keepsCc, keepsTa, keepsDev, hhandler⟩ := handler_overlay i
  have hexec : ∀ v : Overlay, (i.mnemonic = .jeq ∨ i.mnemonic = .jlt → v.cc = none) →
      exec i (s.overlay v) = .next ((s.overlay v).settle i.mnemonic
        (overlayResult (v.keep keepsCc keepsTa keepsDev) (handlerOf i (s.nextPc i.length) s))) := by
    intro v hv
    rw [exec_eq_settle, ← hhandler _ s v hv]
    rfl
  rcases exec_cases h with ⟨f, hf, rfl⟩ | ⟨u, npc, hu, rfl⟩
  · left
    intro v hv
    rw [hexec v hv, hf]
    rfl
  · right
    refine ⟨keepsCc, keepsTa, keepsDev, fun v hv => ?_⟩
    rw [hexec v hv, hu, ← State.retire_overlay]
    rfl

end Sys2Proof.Machine

namespace Sys2Proof.Proofs

open Sys2Proof.Machine

/-- Settles O53: an overlay of CC alone is still there after the instruction, or is overwritten. -/
theorem flagIsReadByBranchesOnly : Obligations.FlagIsReadByBranchesOnly := by
  unfold Obligations.FlagIsReadByBranchesOnly
  intro i s t hjeq hjlt h
  have hnot {p : Prop} : i.mnemonic = .jeq ∨ i.mnemonic = .jlt → p := fun hb => absurd hb (not_or.2 ⟨hjeq, hjlt⟩)
  rcases exec_overlay h with hfault | ⟨keepsCc, keepsTa, keepsDev, hdone⟩
  · exact .inl fun c => hfault (.flag c) hnot
  · have hexec (c : CC) : exec i { s with cc := c } = .next { t with cc := if keepsCc then c else t.cc } := by
      rw [← State.overlay_flag_done t c keepsCc keepsTa keepsDev i.mnemonic]
      exact hdone (.flag c) hnot
    cases keepsCc with
    | true => exact .inl hexec
    | false => exact .inr hexec

/-- Settles O54: an overlay of the four fields is still there after the instruction, but for what it wrote. -/
theorem traceAndAccumulatorAreNeverRead : Obligations.TraceAndAccumulatorAreNeverRead := by
  unfold Obligations.TraceAndAccumulatorAreNeverRead
  intro i s t h
  rcases exec_overlay h with hfault | ⟨keepsCc, keepsTa, keepsDev, hdone⟩
  · refine ⟨[], true, true, .inl rfl, fun log ta dev facc => ?_⟩
    rw [List.append_nil]
    exact hfault (.trace log ta dev facc) fun _ => rfl
  · refine ⟨[i.mnemonic], keepsTa, keepsDev, .inr rfl, fun log ta dev facc => ?_⟩
    rw [← State.overlay_trace_done t log ta dev facc keepsCc keepsTa keepsDev i.mnemonic]
    exact hdone (.trace log ta dev facc) fun _ => rfl

end Sys2Proof.Proofs

/-! ### The state a load leaves -/

namespace Sys2Proof.Machine

open Sys2Proof.Claims

/-- The main pass over the records themselves: from one load state to another, record by record. -/
inductive ReadsRecords : LoadState → List Record → LoadState → Prop where
  | nil (l : LoadState) : ReadsRecords l [] l
  | cons {l l₁ l' : LoadState} {r : Record} {rs : List Record} (hr : l.record r = .ok l₁)
      (hrs : ReadsRecords l₁ rs l') : ReadsRecords l (r :: rs) l'

/-- A main pass that succeeds has parsed every line, and read the records. -/
theorem LoadState.readsRecords_of_mainPass {lines : List (List Char)} {l l' : LoadState} (h : l.mainPass lines = .ok l') :
    ReadsRecords l (lines.filterMap parseRecord) l' := by
  induction lines generalizing l with
  | nil =>
    cases h
    exact .nil _
  | cons line lines ih =>
    rw [LoadState.mainPass] at h
    cases hp : parseRecord line with
    | none => simp [hp] at h
    | some r =>
      simp only [hp] at h
      rw [List.filterMap_cons_some hp]
      cases hr : l.record r with
      | error e => simp [hr] at h
      | ok l₁ =>
        rw [hr] at h
        exact .cons hr (ih h)

/-! #### What each record does -/

theorem LoadState.record_header_eq_ok {l l' : LoadState} {name : List Char} {start length : Nat} :
    l.record (.header name start length) = .ok l' ↔
      ∃ symbols, l.symbols.define name (start + l.csLen) = .ok symbols ∧
        l' = { l with
          symbols := symbols, sectionLen := length, first := l.first.or (some (name, start + l.csLen)) } := by
  unfold LoadState.record
  cases hd : l.symbols.define name (start + l.csLen) <;> simp [hd, eq_comm (a := l')]

theorem LoadState.record_define_eq_ok {l l' : LoadState} {pairs : List (List Char × Nat)} :
    l.record (.define pairs) = .ok l' ↔
      ∃ symbols, l.symbols.defineAll l.csLen pairs = .ok symbols ∧ l' = { l with symbols := symbols } := by
  unfold LoadState.record
  cases hd : l.symbols.defineAll l.csLen pairs <;> simp [hd, eq_comm (a := l')]

theorem LoadState.record_text_eq_ok {l l' : LoadState} {start : Nat} {payload : List Byte} :
    l.record (.text start payload) = .ok l' ↔
      Placeable (start + l.csLen) payload.length ∧ l' = { l with mem := l.mem.writeBytes (start + l.csLen) payload } := by
  unfold LoadState.record
  by_cases h : Placeable (start + l.csLen) payload.length <;> simp [h, eq_comm (a := l')]

theorem LoadState.record_modify_eq_ok {l l' : LoadState} {addr digits : Nat} {negative : Bool} {symbol : List Char} :
    l.record (.modify addr digits negative symbol) = .ok l' ↔
      l' = { l with pending := l.pending ++ [⟨addr + l.csLen, digits, negative, symbol⟩] } := by
  simp [LoadState.record, eq_comm (a := l')]

theorem LoadState.record_endRecord_eq_ok {l l' : LoadState} {address : Option Nat} :
    l.record (.endRecord address) = .ok l' ↔
      l' = { l with
        csLen := l.csLen + l.sectionLen, sectionLen := 0
        entry := if l.ended then l.entry else address, ended := true } := by
  simp [LoadState.record, eq_comm (a := l')]

/-! #### The start and the entry -/

/-- The first section starts where the first Header says: CSLEN is still 0 there. -/
theorem ReadsRecords.first_eq {l l' : LoadState} {rs : List Record} (h : ReadsRecords l rs l')
    (hzero : l.first = none → l.csLen = 0 ∧ l.sectionLen = 0) :
    l'.first.map (·.2) = (l.first.map (·.2)).or (firstStart rs) := by
  induction h with
  | nil l => simp [firstStart]
  | @cons l l₁ l' r rs hr hrs ih =>
    cases r with
    | header name start length =>
      obtain ⟨symbols, -, rfl⟩ := LoadState.record_header_eq_ok.1 hr
      rw [ih (by simp)]
      cases hfirst : l.first with
      | none => simp [firstStart, (hzero hfirst).1]
      | some p => simp
    | define pairs =>
      obtain ⟨symbols, -, rfl⟩ := LoadState.record_define_eq_ok.1 hr
      exact ih hzero
    | text start payload =>
      obtain ⟨-, rfl⟩ := LoadState.record_text_eq_ok.1 hr
      exact ih hzero
    | modify addr digits negative symbol =>
      obtain rfl := LoadState.record_modify_eq_ok.1 hr
      exact ih hzero
    | endRecord address =>
      obtain rfl := LoadState.record_endRecord_eq_ok.1 hr
      refine ih fun hnone => ⟨?_, rfl⟩
      obtain ⟨hcs, hlen⟩ := hzero hnone
      simp [hcs, hlen]

/-- The entry is that of the first End record, and no later one replaces it. -/
theorem ReadsRecords.entry_eq {l l' : LoadState} {rs : List Record} (h : ReadsRecords l rs l')
    (hnone : l.ended = false → l.entry = none) : l'.entry = if l.ended then l.entry else firstEndAddress rs := by
  induction h with
  | nil l =>
    cases hended : l.ended with
    | false => exact hnone hended
    | true => rfl
  | @cons l l₁ l' r rs hr hrs ih =>
    cases r with
    | header name start length =>
      obtain ⟨symbols, -, rfl⟩ := LoadState.record_header_eq_ok.1 hr
      exact ih hnone
    | define pairs =>
      obtain ⟨symbols, -, rfl⟩ := LoadState.record_define_eq_ok.1 hr
      exact ih hnone
    | text start payload =>
      obtain ⟨-, rfl⟩ := LoadState.record_text_eq_ok.1 hr
      exact ih hnone
    | modify addr digits negative symbol =>
      obtain rfl := LoadState.record_modify_eq_ok.1 hr
      exact ih hnone
    | endRecord address =>
      obtain rfl := LoadState.record_endRecord_eq_ok.1 hr
      exact ih nofun

/-! #### The bytes that no record writes -/

/-- An address lies in none of some fields of memory. -/
def OutsideAll (a : Nat) (fields : List (Nat × Nat)) : Prop := ∀ field ∈ fields, a < field.1 ∨ field.1 + field.2 ≤ a

theorem outsideAll_cons {a : Nat} {field : Nat × Nat} {fields : List (Nat × Nat)} :
    OutsideAll a (field :: fields) ↔ (a < field.1 ∨ field.1 + field.2 ≤ a) ∧ OutsideAll a fields :=
  List.forall_mem_cons

/-- The field of memory that a pending Modify record rewrites. -/
def PendingModify.field (p : PendingModify) : Nat × Nat := (p.addr, p.width)

/-- The main pass leaves a byte outside every field alone, and the fields it defers are among them. -/
theorem ReadsRecords.outside {l l' : LoadState} {rs : List Record} (h : ReadsRecords l rs l') {a : Nat}
    (hout : OutsideAll a (placements l.csLen l.sectionLen rs)) (hpend : OutsideAll a (l.pending.map PendingModify.field)) :
    l'.mem.read a = l.mem.read a ∧ OutsideAll a (l'.pending.map PendingModify.field) := by
  induction h with
  | nil l => exact ⟨rfl, hpend⟩
  | @cons l l₁ l' r rs hr hrs ih =>
    cases r with
    | header name start length =>
      obtain ⟨symbols, -, rfl⟩ := LoadState.record_header_eq_ok.1 hr
      exact ih hout hpend
    | define pairs =>
      obtain ⟨symbols, -, rfl⟩ := LoadState.record_define_eq_ok.1 hr
      exact ih hout hpend
    | text start payload =>
      obtain ⟨-, rfl⟩ := LoadState.record_text_eq_ok.1 hr
      obtain ⟨hfield, hrest⟩ := outsideAll_cons.1 hout
      obtain ⟨hmem, hp⟩ := ih hrest hpend
      exact ⟨hmem.trans (Memory.read_writeBytes_of_out _ _ _ hfield), hp⟩
    | modify addr digits negative symbol =>
      obtain rfl := LoadState.record_modify_eq_ok.1 hr
      obtain ⟨hfield, hrest⟩ := outsideAll_cons.1 hout
      refine ih hrest ?_
      rw [List.map_append]
      exact List.forall_mem_append.2 ⟨hpend, List.forall_mem_singleton.2 hfield⟩
    | endRecord address =>
      obtain rfl := LoadState.record_endRecord_eq_ok.1 hr
      exact ih hout hpend

theorem PendingModify.apply_read_of_out {p : PendingModify} {symbols : SymbolTable} {m m' : Memory}
    (h : p.apply symbols m = .ok m') {a : Nat} (hout : a < p.addr ∨ p.addr + p.width ≤ a) : m'.read a = m.read a := by
  unfold PendingModify.apply at h
  split at h
  · cases hs : symbols.resolve p.symbol with
    | error e => simp [hs] at h
    | ok addr =>
      simp only [hs, Except.ok.injEq] at h
      subst h
      exact Memory.read_writeBytes_of_out _ _ _ (by simpa using hout)
  · cases h

/-- The Modify pass leaves a byte outside every pending field alone. -/
theorem modifyPass_read_of_out {symbols : SymbolTable} {ps : List PendingModify} {m m' : Memory}
    (h : modifyPass symbols ps m = .ok m') {a : Nat} (hout : OutsideAll a (ps.map PendingModify.field)) :
    m'.read a = m.read a := by
  induction ps generalizing m with
  | nil =>
    cases h
    rfl
  | cons p ps ih =>
    obtain ⟨hfield, hrest⟩ := outsideAll_cons.1 hout
    rw [modifyPass] at h
    cases hp : p.apply symbols m with
    | error e => simp [hp] at h
    | ok m₁ =>
      rw [hp] at h
      exact (ih h hrest).trans (PendingModify.apply_read_of_out hp hfield)

/-! #### The command -/

/-- Everything a successful loader gives: the main pass from a clean start, the Modify pass, and a first section. -/
theorem loadImage_ok_cases {lines : List (List Char)} {md : Metadata} {mem : Memory} (h : loadImage lines = .ok (md, mem)) :
    ∃ l, ReadsRecords .start (lines.filterMap parseRecord) l ∧ modifyPass l.symbols l.pending l.mem = .ok mem ∧
      l.first = some (md.name, md.start) ∧ md.entry = l.entry.getD md.start := by
  unfold loadImage at h
  split at h
  · cases h
  · next l hmain =>
    split at h
    · cases h
    · next hmod =>
      split at h
      · cases h
      · next hfirst =>
        cases h
        exact ⟨l, LoadState.readsRecords_of_mainPass hmain, hmod, hfirst, rfl⟩

/-- A successful load leaves the clean state, around what the loader gives. -/
theorem load_ok_cases {lines : List (List Char)} {s t : State} {md : Metadata} (h : load lines s = (.ok md, t)) :
    ∃ mem, loadImage lines = .ok (md, mem) ∧
      t = State.clean mem (BitVec.ofNat 32 md.entry) .running s.closeAll.devices s.env.tick := by
  unfold load at h
  split at h
  · cases h
  · next mem himage =>
    cases h
    exact ⟨mem, himage, rfl⟩

/-- A canonical device table reads closed devices after `DevCloseAll`. -/
theorem State.closed_device_closeAll {s : State} (h : s.devicesCanonical = true) (d : Byte) :
    (s.closeAll.device d).closed = true := by
  have hwf : Sparse.wf Device.unused 256 s.devices = true := (Bool.and_eq_true_iff.1 h).1
  rw [State.device_closeAll d hwf]
  rfl

end Sys2Proof.Machine

namespace Sys2Proof.Proofs

open Sys2Proof.Machine

/-- Settles O55: the state is clean as `load` writes it out, and the start, the entry and the unwritten bytes follow the
records through both passes. -/
theorem loadLeavesTheCleanState : Obligations.LoadLeavesTheCleanState := by
  unfold Obligations.LoadLeavesTheCleanState
  intro lines s t md hdevices h
  obtain ⟨mem, himage, rfl⟩ := load_ok_cases h
  obtain ⟨l, hreads, hmodify, hfirst, hentry⟩ := loadImage_ok_cases himage
  refine ⟨rfl, rfl, rfl, rfl, rfl, rfl, rfl, State.closed_device_closeAll hdevices, ?_, ?_, fun a hout => ?_⟩
  · have hstart := hreads.first_eq fun _ => ⟨rfl, rfl⟩
    rw [hfirst] at hstart
    exact hstart.symm
  · rw [hentry, hreads.entry_eq fun _ => rfl]
    rfl
  · obtain ⟨hmain, hpending⟩ := hreads.outside hout (List.forall_mem_nil _)
    exact (modifyPass_read_of_out hmodify hpending).trans hmain

end Sys2Proof.Proofs

/-! PROOFS. The statements of `20_memory.md`: the two access primitives, and the coherence of the fetch with memory. -/

/-! ### The access primitives -/

namespace Sys2Proof.Machine

/-- The bounds check with its bound written out (`20_memory.md` R31). -/
theorem inMemory_iff_toInt {addr : Word} {n : Nat} :
    InMemory addr n ↔ 0 ≤ addr.toInt ∧ addr.toInt + n ≤ 65536 :=
  Iff.rfl

theorem not_inMemory_iff_toInt {addr : Word} {n : Nat} :
    ¬ InMemory addr n ↔ addr.toInt < 0 ∨ addr.toInt + n > 65536 := by
  rw [inMemory_iff_toInt]
  omega

/-- Two bytes read as a number are the half word at their address. -/
theorem ofNat_beNat_two (m : Memory) (a : Nat) :
    BitVec.ofNat 32 (beNat (m.bytesAt a 2)) = (0#16 ++ m.read a ++ m.read (a + 1) : BitVec 32) := by
  apply BitVec.eq_of_toNat_eq
  have hhigh := (m.read a).isLt
  have hlow := (m.read (a + 1)).isLt
  simp only [toNat_append_eq, BitVec.toNat_ofNat, Memory.bytesAt, beNat, List.length_cons, List.length_nil]
  omega

/-- A number written inside memory is read back byte by byte, its most significant byte first (`20_memory.md` R32). -/
theorem Memory.read_writeBytes_beBytes {m : Memory} {a n k : Nat} (v : Word) (h : a + n ≤ Config.memSize)
    (hm : m.wf = true) (hk : k < n) :
    (m.writeBytes a (beBytes n v.toNat)).read (a + k) = v.extractLsb' (8 * (n - k - 1)) 8 := by
  rw [Memory.read_writeBytes_at (by simpa using h) hm (by simpa using hk), getElem_beBytes]

end Sys2Proof.Machine

namespace Sys2Proof.Proofs

open Sys2Proof.Machine

/-- Settles O22: inside memory the bytes spell the concatenation, for each length; outside, the check refuses. -/
theorem memReadIsBigEndianAndChecked : Obligations.MemReadIsBigEndianAndChecked := by
  unfold Obligations.MemReadIsBigEndianAndChecked
  intro s addr
  refine ⟨fun hlo hhi => ?_, fun hlo hhi => ?_, fun hlo hhi => ?_, fun n hout => ?_⟩
  · exact State.memRead_eq_ok.2 ⟨inMemory_iff_toInt.2 ⟨hlo, hhi⟩, ofNat_beNat_one s.mem addr.toNat⟩
  · exact State.memRead_eq_ok.2 ⟨inMemory_iff_toInt.2 ⟨hlo, hhi⟩, ofNat_beNat_two s.mem addr.toNat⟩
  · exact State.memRead_eq_ok.2 ⟨inMemory_iff_toInt.2 ⟨hlo, hhi⟩, ofNat_beNat_three s.mem addr.toNat⟩
  · exact State.memRead_eq_error.2 ⟨not_inMemory_iff_toInt.2 hout, rfl⟩

/-- Settles O23: the memory written is the `writeBytes` of the value's bytes, whose frame, canonical form and read-back
hold at every length. -/
theorem memWriteIsBigEndianAndChecked : Obligations.MemWriteIsBigEndianAndChecked := by
  unfold Obligations.MemWriteIsBigEndianAndChecked
  intro s addr n v _
  refine ⟨fun hout => State.memWrite_eq_error.2 ⟨not_inMemory_iff_toInt.2 hout, rfl⟩, fun hlo hhi => ?_⟩
  have hin : InMemory addr n := inMemory_iff_toInt.2 ⟨hlo, hhi⟩
  have hwrite : s.memWrite addr n v = .ok _ := State.memWrite_eq_ok.2 ⟨hin, rfl⟩
  refine ⟨s.mem.writeBytes addr.toNat (beBytes n v.toNat), hwrite, fun a ha => ?_, fun hm => ⟨?_, fun k hk => ?_⟩⟩
  · exact Memory.read_writeBytes_of_out _ _ _ (by simpa using ha)
  · exact State.memWrite_keeps_wf hwrite hm
  · exact Memory.read_writeBytes_beBytes v ((inMemory_iff addr n).1 hin) hm hk

end Sys2Proof.Proofs

/-! ### The fetch -/

namespace Sys2Proof.Machine

/-- A read of bytes depends on those bytes only. -/
theorem Memory.bytesAt_congr {m m' : Memory} {a n : Nat} (h : ∀ k, k < n → m.read (a + k) = m'.read (a + k)) :
    m.bytesAt a n = m'.bytesAt a n := by
  apply List.ext_getElem?
  intro k
  by_cases hk : k < n
  · rw [Memory.getElem?_bytesAt _ _ hk, Memory.getElem?_bytesAt _ _ hk, h k hk]
  · rw [List.getElem?_eq_none (by simp; omega), List.getElem?_eq_none (by simp; omega)]

/-- The fault of an access names PC, so that what a check answers depends on PC and the result only. -/
theorem State.checked_congr {α : Type} {s t : State} (hpc : s.regs.pc = t.regs.pc) (addr : Word) (n : Nat) (v : α) :
    s.checked addr n v = t.checked addr n v := by
  unfold State.checked
  rw [hpc]

theorem State.memByte_congr {s t : State} {addr : Word} (hpc : s.regs.pc = t.regs.pc)
    (h : s.mem.read addr.toNat = t.mem.read addr.toNat) : s.memByte addr = t.memByte addr := by
  unfold State.memByte
  rw [h, State.checked_congr hpc]

theorem State.memBytes_congr {s t : State} {addr : Word} {n : Nat} (hpc : s.regs.pc = t.regs.pc)
    (h : ∀ k, k < n → s.mem.read (addr.toNat + k) = t.mem.read (addr.toNat + k)) :
    s.memBytes addr n = t.memBytes addr n := by
  unfold State.memBytes
  rw [Memory.bytesAt_congr h, State.checked_congr hpc]

theorem resolvedFormat_le_four (e : CatalogEntry) (b1 : Byte) : resolvedFormat e b1 ≤ 4 := by
  unfold resolvedFormat
  cases e.format with
  | one => simp
  | two => simp
  | threeFour => cases b1.getLsbD 4 <;> simp

/-- Two cores whose accesses for byte 0, byte 1 and the rest answer the same fetch the same. -/
theorem fetch_congr {s t : State} (hpc : s.regs.pc = t.regs.pc) (h0 : s.memByte s.regs.pc = t.memByte s.regs.pc)
    (h1 : s.memByte (s.regs.pc + 1#32) = t.memByte (s.regs.pc + 1#32))
    (hrest : ∀ format, format ≤ 4 → fetchRest s format = fetchRest t format) : fetch s = fetch t := by
  have hformat (e : CatalogEntry) (b1 : Byte) : fetchRest s (resolvedFormat e b1) = fetchRest t (resolvedFormat e b1) :=
    hrest _ (resolvedFormat_le_four e b1)
  unfold fetch
  rw [h0, h1, hpc]
  simp only [hformat]

/-- With PC outside memory the fetch faults on byte 0, whatever memory holds. -/
theorem fetch_of_not_inMemory {s : State} (h : ¬ InMemory s.regs.pc 1) :
    fetch s = .error (.outOfRangeMemory s.regs.pc 1 s.regs.pc) := by
  unfold fetch
  rw [State.memByte_eq_error.2 ⟨h, rfl⟩]

/-- The access for the bytes after byte 1 reads the bytes at PC + 2 and PC + 3 only. -/
theorem fetchRest_congr {s t : State} {format : Nat} (hpc : s.regs.pc = t.regs.pc) (hformat : format ≤ 4)
    (h : ∀ k, k < 2 →
      s.mem.read ((s.regs.pc + 2#32).toNat + k) = t.mem.read ((s.regs.pc + 2#32).toNat + k)) :
    fetchRest s format = fetchRest t format := by
  unfold fetchRest
  rw [← hpc, State.memBytes_congr hpc fun k hk => h k (by omega)]

end Sys2Proof.Machine

namespace Sys2Proof.Proofs

open Sys2Proof.Machine

/-- Settles O13: inside memory PC + 1 and PC + 2 do not wrap, so that each access reads bytes the two states share; outside
it, the fetch reads nothing. -/
theorem fetchReadsMemoryAtPcOnly : Obligations.FetchReadsMemoryAtPcOnly := by
  unfold Obligations.FetchReadsMemoryAtPcOnly
  intro s t hpc hbytes
  by_cases hin : InMemory s.regs.pc 1
  · have hpc1 := toNat_add_of_inMemory (k := 1) hin (by omega)
    have hpc2 := toNat_add_of_inMemory (k := 2) hin (by omega)
    refine fetch_congr hpc (State.memByte_congr hpc ?_) (State.memByte_congr hpc ?_) fun format hformat =>
      fetchRest_congr hpc hformat fun k hk => ?_
    · exact hbytes 0 (by omega)
    · rw [hpc1]
      exact hbytes 1 (by omega)
    · rw [hpc2, Nat.add_assoc]
      exact hbytes (2 + k) (by omega)
  · rw [fetch_of_not_inMemory hin, fetch_of_not_inMemory (hpc ▸ hin), hpc]

end Sys2Proof.Proofs

/-! PROOFS. The statements of `30_encoding.md`: how the fields are assembled and read, and words of the spec. -/

/-! ### The operand fields -/

namespace Sys2Proof.Machine

/-- The format 3 field is the low half of byte 1, then byte 2 (`30_encoding.md` R59). -/
theorem toNat_disp_format3Of (b0 b1 b2 : Byte) :
    (format3Of b0 b1 b2).disp.toNat = b1.toNat % 16 * 256 + b2.toNat := by
  simp only [format3Of, toNat_append_eq, toNat_low_nibble]
  omega

/-- The format 4 field is the low half of byte 1, then bytes 2 and 3 (`30_encoding.md` R60). -/
theorem toNat_addr_format4Of (b0 b1 b2 b3 : Byte) :
    (format4Of b0 b1 b2 b3).addr.toNat = b1.toNat % 16 * 65536 + b2.toNat * 256 + b3.toNat := by
  simp only [format4Of, toNat_append_eq, toNat_low_nibble]
  omega

/-- A handler receives the format 3 field unsigned. -/
@[simp] theorem toNat_raw_operand3 (f : Format3) : (operand3 f).raw.toNat = f.disp.toNat :=
  BitVec.toNat_setWidth_of_le (by decide)

/-- A handler receives the format 4 field unsigned. -/
@[simp] theorem toNat_raw_operand4 (f : Format4) : (operand4 f).raw.toNat = f.addr.toNat :=
  BitVec.toNat_setWidth_of_le (by decide)

/-- A field narrower than a word is not negative once zero-extended. -/
theorem toInt_setWidth_disp (d : BitVec 12) : (d.setWidth 32).toInt = d.toNat := by
  have hlt := d.isLt
  rw [BitVec.toInt_eq_toNat_of_lt] <;> rw [BitVec.toNat_setWidth_of_le (by decide)]
  omega

/-- A displacement up to the threshold is read as it stands. -/
theorem toInt_disp12_of_le {d : BitVec 12} (h : d.toNat ≤ 0x800) : (disp12 d).toInt = d.toNat := by
  rw [disp12, if_pos h, toInt_setWidth_disp]

/-- A displacement above the threshold is read as negative: the difference does not leave the signed range. -/
theorem toInt_disp12_of_gt {d : BitVec 12} (h : d.toNat > 0x800) : (disp12 d).toInt = (d.toNat : Int) - 0x1000 := by
  have hlt := d.isLt
  have hmodulus : (0x1000#32).toInt = 0x1000 := rfl
  rw [disp12, if_neg (Nat.not_le_of_gt h), BitVec.toInt_sub, toInt_setWidth_disp, hmodulus]
  exact Int.bmod_eq_of_le (by omega) (by omega)

end Sys2Proof.Machine

namespace Sys2Proof.Proofs

open Sys2Proof.Machine

/-- Settles O24: the numbers of the assembled fields, and the reading of a displacement on either side of the threshold. -/
theorem fieldsAreReadByTheThreshold : Obligations.FieldsAreReadByTheThreshold := by
  unfold Obligations.FieldsAreReadByTheThreshold
  refine ⟨fun b0 b1 b2 => ?_, fun f => ⟨toInt_disp12_of_le, toInt_disp12_of_gt⟩, fun b0 b1 b2 b3 => ⟨?_, rfl⟩⟩
  · rw [toNat_raw_operand3, toNat_disp_format3Of]
  · rw [toNat_raw_operand4, toNat_addr_format4Of]

end Sys2Proof.Proofs

/-! ### The decoder -/

namespace Sys2Proof

/-- A byte 0 outside the catalog is rejected, whatever follows (`30_encoding.md` R63). -/
theorem decode_of_lookup_eq_none {b0 : Byte} (bytes : List Byte) (h : lookup b0 = none) :
    decode (b0 :: bytes) = .error (.invalidOpcode b0) := by
  simp only [decode, h]

/-- The decoder takes as many bytes after byte 1 as the resolved format has, and leaves the others (`30_encoding.md` R56). -/
theorem decode_of_lookup_eq_some {b0 b1 : Byte} {e : CatalogEntry} (operand rest : List Byte) (h : lookup b0 = some e)
    (hlen : resolvedFormat e b1 = operand.length + 2) :
    decode (b0 :: b1 :: (operand ++ rest)) = .ok (assemble e.mnemonic b0 b1 operand, rest) := by
  simp [decode, h, hlen]

end Sys2Proof

namespace Sys2Proof.Proofs

/-- Settles O20: byte 0 selects the catalog entry, which with flag e fixes how many bytes the fields are read from. -/
theorem sampleWordsDecode : Obligations.SampleWordsDecode := by
  unfold Obligations.SampleWordsDecode
  have hj : lookup 0x3F#8 = some ⟨.j, 0x3C#8, .threeFour, 1⟩ := by decide
  have hlda : lookup 0x03#8 = some ⟨.lda, 0x00#8, .threeFour, 1⟩ := by decide
  have hldaIndirect : lookup 0x02#8 = some ⟨.lda, 0x00#8, .threeFour, 1⟩ := by decide
  have hstch : lookup 0x57#8 = some ⟨.stch, 0x54#8, .threeFour, 1⟩ := by decide
  have hldt : lookup 0x75#8 = some ⟨.ldt, 0x74#8, .threeFour, 1⟩ := by decide
  have hcompr : lookup 0xA0#8 = some ⟨.compr, 0xA0#8, .two, 2⟩ := by decide
  have hadd : lookup 0x1B#8 = none := by decide
  refine ⟨?_, ?_, ?_, ?_, ?_, ?_, ?_, ?_, ?_, ?_⟩
  · exact decode_of_lookup_eq_some [0xF5#8] [] hj rfl
  · exact decode_of_lookup_eq_some [0x00#8] [] hlda rfl
  · exact decode_of_lookup_eq_some [0x10#8] [] hj rfl
  · exact decode_of_lookup_eq_some [0x00#8] [] hldaIndirect rfl
  · exact decode_of_lookup_eq_some [0x10#8, 0x39#8] [] hstch rfl
  · exact decode_of_lookup_eq_some [0x10#8, 0x39#8] [] hstch rfl
  · exact decode_of_lookup_eq_some [0x10#8, 0x39#8] [] hstch rfl
  · exact decode_of_lookup_eq_some [0x10#8, 0x00#8] [] hldt rfl
  · exact decode_of_lookup_eq_some [] [] hcompr rfl
  · exact decode_of_lookup_eq_none _ hadd

end Sys2Proof.Proofs

/-! PROOFS. The statements of `40_step_and_addressing.md`: what a step and a run of steps can answer, the faults of the
fetch, the operand forms, and the register that no sum reads. -/

/-! ### The step and the retire stage -/

namespace Sys2Proof.Machine

theorem step_of_fetch_error {s : State} {f : Fault} (hrun : s.run = .running) (h : fetch s = .error f) :
    step s = .next (s.raise f) := by
  simp only [step, hrun, h]

theorem step_of_fetch_ok {s : State} {i : Instr} (hrun : s.run = .running) (h : fetch s = .ok i) : step s = exec i s := by
  simp only [step, hrun, h]

theorem step_of_run_ne_running {s : State} (hrun : s.run ≠ .running) : step s = .next s := by
  cases h : s.run with
  | running => exact absurd h hrun
  | unloaded | halted | faulted => simp only [step, h]

/-- No step refuses, and a fault is taken as a next state (`60_exceptions.md` R178). -/
theorem exists_step_eq_next (s : State) : ∃ t, step s = .next t := by
  by_cases hrun : s.run = .running
  · cases h : fetch s with
    | error f => exact ⟨_, step_of_fetch_error hrun h⟩
    | ok i => exact ⟨_, (step_of_fetch_ok hrun h).trans (exec_eq_settle i s)⟩
  · exact ⟨s, step_of_run_ne_running hrun⟩

theorem stepCommand_of_step {s t : State} (h : step s = .next t) : stepCommand s = (t, t.continues) := by
  simp only [stepCommand, h]

/-- A core reports that it does not continue exactly when it is not RUNNING (`40_step_and_addressing.md` R80). -/
theorem State.continues_eq_false {s : State} : s.continues = false ↔ s.run ≠ .running :=
  decide_eq_false_iff_not

/-- A step that takes a fault of the instruction at PC (`60_exceptions.md` R178). -/
theorem stepCommand_of_raise {s : State} {f : Fault} (h : step s = .next (s.raise f)) :
    stepCommand s = (s.raise f, false) :=
  stepCommand_of_step h

/-- A core that retires at 0 has every device closed (`40_step_and_addressing.md` R90). -/
theorem State.closed_of_mem_devices_retire_zero {s : State} {m : Mnemonic} {e : Nat × Device}
    (h : e ∈ (s.retire m 0#32).devices) : e.2.closed = true := by
  rw [State.devices_retire, if_pos rfl] at h
  obtain ⟨d, hd⟩ := State.closed_of_mem_closeAll h
  rw [hd]
  rfl

end Sys2Proof.Machine

namespace Sys2Proof.Proofs

open Sys2Proof.Machine

/-- Settles O10: the fetch and the handlers name PC in their faults, and a handler changes neither LOG nor RUN. -/
theorem stepIsAtomic : Obligations.StepIsAtomic := by
  unfold Obligations.StepIsAtomic
  intro s t hrun h
  obtain ⟨hidle, -⟩ | ⟨-, ⟨f, hf, rfl⟩ | ⟨i, hfetch, hexec⟩⟩ := step_cases h
  · exact absurd hrun hidle
  · exact .inl ⟨f, fetch_fault_pc0 hf, rfl, stepCommand_of_raise h⟩
  · rcases exec_cases hexec with ⟨f, hf, rfl⟩ | ⟨u, npc, hu, rfl⟩
    · exact .inl ⟨f, (handler_fault hf).pc0_eq, rfl, stepCommand_of_raise h⟩
    · obtain ⟨hurun, hulog, -⟩ := handler_frame hu
      rw [hrun] at hurun
      exact .inr ⟨i, u, npc, hfetch, hexec, hulog, hurun, rfl, by simp [hulog], by simp, by simp [hurun]⟩

/-- Settles O16: what completes is its handler's result retired, and a handler changes neither LOG nor RUN. -/
theorem retiringHaltsExactlyAtZero : Obligations.RetiringHaltsExactlyAtZero := by
  unfold Obligations.RetiringHaltsExactlyAtZero
  refine ⟨fun i s t hrun h => ?_, fun s i hrun _ hfetch => step_of_fetch_ok hrun hfetch,
    fun s hrun => step_of_run_ne_running (by simp [hrun])⟩
  rcases exec_cases h with ⟨f, -, rfl⟩ | ⟨u, npc, hu, rfl⟩
  · exact .inl ⟨f, rfl⟩
  · obtain ⟨hurun, hulog, -⟩ := handler_frame hu
    refine .inr ⟨by rw [State.log_retire, hulog], fun hpc => ?_, fun hpc => ?_⟩
    · obtain rfl : npc = 0#32 := by simpa using hpc
      exact ⟨by simp, State.continues_eq_false.2 (by simp), fun e => State.closed_of_mem_devices_retire_zero⟩
    · have hne : npc ≠ 0#32 := by simpa using hpc
      rw [State.run_retire, if_neg hne, hurun, hrun]

/-- Settles O14: the two branches of `retire`. -/
theorem retireWritesLogAndPc : Obligations.RetireWritesLogAndPc := by
  unfold Obligations.RetireWritesLogAndPc
  intro s m npc
  refine ⟨State.retire_of_ne s m, ?_⟩
  rintro rfl
  exact State.retire_zero s m

end Sys2Proof.Proofs

/-! ### Runs of steps -/

namespace Sys2Proof.Machine

theorem runToCompletion_succ {s s₁ : State} (h : step s = .next s₁) (n : Nat) :
    runToCompletion (n + 1) s = if s₁.continues then runToCompletion n s₁ else some s₁ := by
  rw [runToCompletion, stepCommand_of_step h]

theorem run_succ {s s₁ : State} (h : step s = .next s₁) (n : Nat) :
    Host.Core.run Sys2Proof.core (n + 1) s = Host.Core.run Sys2Proof.core n s₁ := by
  have hcore : Sys2Proof.core.step s = .next s₁ := h
  simp only [Host.Core.run, hcore]

/-- The step that ends a run is number `k + 1`: it reaches `t` and reports that it does not continue, which none of the `k`
before it does (`40_step_and_addressing.md` R91). -/
def StopsAfter (k : Nat) (s t : State) : Prop :=
  Host.Core.run Sys2Proof.core (k + 1) s = .next t ∧ t.continues = false ∧
    ∀ j, j < k → ∃ u : State, Host.Core.run Sys2Proof.core (j + 1) s = .next u ∧ u.continues = true

/-- The first step ends the run. -/
theorem stopsAfter_zero {s s₁ t : State} (h : step s = .next s₁) : StopsAfter 0 s t ↔ s₁ = t ∧ s₁.continues = false := by
  have hrun : Host.Core.run Sys2Proof.core 1 s = .next s₁ := run_succ h 0
  unfold StopsAfter
  rw [hrun]
  constructor
  · rintro ⟨heq, hstop, -⟩
    obtain rfl := Host.Outcome.next.inj heq
    exact ⟨rfl, hstop⟩
  · rintro ⟨rfl, hstop⟩
    exact ⟨rfl, hstop, nofun⟩

/-- A later step ends the run: the first one continues, and the run from there ends one step sooner. -/
theorem stopsAfter_succ {s s₁ t : State} (h : step s = .next s₁) (k : Nat) :
    StopsAfter (k + 1) s t ↔ s₁.continues = true ∧ StopsAfter k s₁ t := by
  have hrun : Host.Core.run Sys2Proof.core 1 s = .next s₁ := run_succ h 0
  unfold StopsAfter
  rw [run_succ h]
  constructor
  · rintro ⟨hlast, hstop, hgoes⟩
    obtain ⟨u, hu, hcont⟩ := hgoes 0 (Nat.succ_pos k)
    obtain rfl := Host.Outcome.next.inj (hrun.symm.trans hu)
    refine ⟨hcont, hlast, hstop, fun j hj => ?_⟩
    rw [← run_succ h]
    exact hgoes (j + 1) (Nat.succ_lt_succ hj)
  · rintro ⟨hcont, hlast, hstop, hgoes⟩
    refine ⟨hlast, hstop, fun j hj => ?_⟩
    cases j with
    | zero => exact ⟨s₁, hrun, hcont⟩
    | succ j =>
      rw [run_succ h]
      exact hgoes j (Nat.lt_of_succ_lt_succ hj)

theorem runToCompletion_eq_some {n : Nat} {s t : State} : runToCompletion n s = some t ↔ ∃ k, k < n ∧ StopsAfter k s t := by
  induction n generalizing s with
  | zero => simp [runToCompletion]
  | succ n ih =>
    obtain ⟨s₁, h⟩ := exists_step_eq_next s
    rw [runToCompletion_succ h, Nat.exists_lt_succ_left, stopsAfter_zero h]
    simp only [stopsAfter_succ h]
    cases hcont : s₁.continues with
    | true => simp [ih]
    | false => simp

end Sys2Proof.Machine

namespace Sys2Proof.Proofs

open Sys2Proof.Machine

/-- Settles O17: by induction on the bound, splitting off the first step. -/
theorem runToCompletionIteratesStep : Obligations.RunToCompletionIteratesStep := by
  unfold Obligations.RunToCompletionIteratesStep
  intro n s t
  exact runToCompletion_eq_some

end Sys2Proof.Proofs

/-! ### The faults of the fetch -/

namespace Sys2Proof

/-- The catalog has an entry exactly for the base opcodes it lists (`30_encoding.md` R63). -/
theorem lookup_eq_none_iff {b0 : Byte} : lookup b0 = none ↔ (b0 &&& 0xFC#8) ∉ catalog.map (·.base) := by
  simp [lookup, List.find?_eq_none]

end Sys2Proof

namespace Sys2Proof.Machine

theorem fetchRest_eq_error {s : State} {k : Nat} {f : Fault} :
    fetchRest s k = .error f ↔
      2 < k ∧ ¬ InMemory (s.regs.pc + 2#32) (k - 2) ∧ f = .outOfRangeMemory (s.regs.pc + 2#32) (k - 2) s.regs.pc := by
  unfold fetchRest
  by_cases hk : k ≤ 2
  · simp [hk]
  · rw [if_neg hk, State.memBytes_eq_error, and_iff_right (Nat.lt_of_not_le hk)]

/-- A byte 0 outside the catalog is refused before byte 1 is read (`40_step_and_addressing.md` R83). -/
theorem fetch_of_lookup_eq_none {s : State} (hin : InMemory s.regs.pc 1)
    (hlookup : lookup (s.mem.read s.regs.pc.toNat) = none) :
    fetch s = .error (.invalidOpcode s.regs.pc (s.mem.read s.regs.pc.toNat)) := by
  unfold fetch
  simp only [State.memByte_eq_ok.2 ⟨hin, rfl⟩, hlookup]

/-- Under a catalog entry the fetch goes on to byte 1, and from there to the rest (`40_step_and_addressing.md` R84 to R86). -/
theorem fetch_of_lookup_eq_some {s : State} {e : CatalogEntry} (hin : InMemory s.regs.pc 1)
    (hlookup : lookup (s.mem.read s.regs.pc.toNat) = some e) :
    fetch s = (s.memByte (s.regs.pc + 1#32)).bind fun b1 =>
      (fetchRest s (resolvedFormat e b1)).map (assemble e.mnemonic (s.mem.read s.regs.pc.toNat) b1) := by
  unfold fetch
  simp only [State.memByte_eq_ok.2 ⟨hin, rfl⟩, hlookup]
  cases s.memByte (s.regs.pc + 1#32) with
  | error f => rfl
  | ok b1 => cases hr : fetchRest s (resolvedFormat e b1) <;> simp only [Except.bind, hr] <;> rfl

/-- With byte 1 outside memory the fetch faults there (`40_step_and_addressing.md` R84). -/
theorem fetch_of_not_inMemory_byte1 {s : State} {pc : Word} {e : CatalogEntry} (hpc : s.regs.pc = pc) (hin : InMemory pc 1)
    (hlookup : lookup (s.mem.read pc.toNat) = some e) (hout : ¬ InMemory (pc + 1#32) 1) :
    fetch s = .error (.outOfRangeMemory (pc + 1#32) 1 s.regs.pc) := by
  subst hpc
  rw [fetch_of_lookup_eq_some hin hlookup, State.memByte_eq_error.2 ⟨hout, rfl⟩]
  rfl

/-- With the bytes after byte 1 not all inside memory the fetch faults on them as a whole (`40_step_and_addressing.md` R86). -/
theorem fetch_of_not_inMemory_rest {s : State} {pc : Word} {e : CatalogEntry} {format : Nat} (hpc : s.regs.pc = pc)
    (hin : InMemory pc 1) (hlookup : lookup (s.mem.read pc.toNat) = some e) (hin1 : InMemory (pc + 1#32) 1)
    (hformat : resolvedFormat e (s.mem.read (pc + 1#32).toNat) = format) (hlong : 2 < format)
    (hout : ¬ InMemory (pc + 2#32) (format - 2)) :
    fetch s = .error (.outOfRangeMemory (pc + 2#32) (format - 2) s.regs.pc) := by
  subst hpc
  have hrest : fetchRest s format = .error _ := fetchRest_eq_error.2 ⟨hlong, hout, rfl⟩
  rw [fetch_of_lookup_eq_some hin hlookup, State.memByte_eq_ok.2 ⟨hin1, rfl⟩]
  simp only [Except.bind, hformat, hrest]
  rfl

/-- `InvalidOpcode` is the fetch's only for a byte 0 outside the catalog. -/
theorem fetch_ne_invalidOpcode {s : State} {e : CatalogEntry} (hin : InMemory s.regs.pc 1)
    (hlookup : lookup (s.mem.read s.regs.pc.toNat) = some e) (pc0 : Word) (b : Byte) :
    fetch s ≠ .error (.invalidOpcode pc0 b) := by
  rw [fetch_of_lookup_eq_some hin hlookup]
  cases h1 : s.memByte (s.regs.pc + 1#32) with
  | error f =>
    rw [(State.memByte_eq_error.1 h1).2]
    nofun
  | ok b1 =>
    simp only [Except.bind]
    cases hr : fetchRest s (resolvedFormat e b1) with
    | error f =>
      rw [(fetchRest_eq_error.1 hr).2.2]
      nofun
    | ok rest => nofun

/-- An instruction that is executed takes no `InvalidOpcode`, and one that completes takes no fault at all. -/
theorem exec_run_ne_invalidOpcode {i : Instr} {s t : State} (hrun : s.run = .running) (h : exec i s = .next t)
    (pc0 : Word) (b : Byte) : t.run ≠ .faulted (.invalidOpcode pc0 b) := by
  rcases exec_cases h with ⟨f, hf, rfl⟩ | ⟨u, npc, hu, rfl⟩
  · rw [State.run_raise, Ne, RunState.faulted.injEq]
    exact (handler_fault hf).ne_invalidOpcode
  · rw [State.run_retire, (handler_frame hu).1, hrun]
    split <;> nofun

end Sys2Proof.Machine

namespace Sys2Proof.Proofs

open Sys2Proof.Machine

/-- Settles O11: each fault is the first access of the fetch that leaves memory. -/
theorem fetchFaultsInOrder : Obligations.FetchFaultsInOrder := by
  unfold Obligations.FetchFaultsInOrder
  intro s hrun
  refine ⟨fun hout => step_of_fetch_error hrun (fetch_of_not_inMemory hout), fun e hpc hlookup => ?_,
    fun e hpc hlookup hformat => ?_, fun e a ha hpc hlookup hformat => ?_⟩
  · exact step_of_fetch_error hrun (fetch_of_not_inMemory_byte1 hpc (by decide) hlookup (by decide))
  · exact step_of_fetch_error hrun
      (fetch_of_not_inMemory_rest hpc (by decide) hlookup (by decide) hformat (by decide) (by decide))
  · rcases ha with rfl | rfl <;> exact step_of_fetch_error hrun
      (fetch_of_not_inMemory_rest hpc (by decide) hlookup (by decide) hformat (by decide) (by decide))

/-- Settles O12: the 19 base opcodes are those of the catalog; a handler never raises `InvalidOpcode`. -/
theorem uncataloguedOpcodeFaults : Obligations.UncataloguedOpcodeFaults := by
  unfold Obligations.UncataloguedOpcodeFaults
  intro s hrun hin b0 legal
  have hlegal : lookup b0 = none ↔ ¬ legal := lookup_eq_none_iff
  refine ⟨fun hno => step_of_fetch_error hrun (fetch_of_lookup_eq_none hin (hlegal.2 hno)), fun hyes t pc0 b h => ?_⟩
  obtain ⟨e, hlookup⟩ := Option.ne_none_iff_exists'.1 fun hnone => hlegal.1 hnone hyes
  obtain ⟨hidle, -⟩ | ⟨-, ⟨f, hf, rfl⟩ | ⟨i, -, hexec⟩⟩ := step_cases h
  · exact absurd hrun hidle
  · rw [State.run_raise, Ne, RunState.faulted.injEq]
    rintro rfl
    exact fetch_ne_invalidOpcode hin hlookup pc0 b hf
  · exact exec_run_ne_invalidOpcode hrun hexec pc0 b

end Sys2Proof.Proofs

/-! ### The operand forms -/

namespace Sys2Proof.Machine

theorem Operand.isImmediate_iff {o : Operand} : o.isImmediate = true ↔ o.n = false ∧ o.i = true := by
  simp [Operand.isImmediate]

theorem Operand.isImmediate_eq_false_iff {o : Operand} : o.isImmediate = false ↔ ¬ (o.n = false ∧ o.i = true) := by
  rw [← Operand.isImmediate_iff, Bool.not_eq_true]

theorem Operand.isIndirect_iff {o : Operand} : o.isIndirect = true ↔ o.n = true ∧ o.i = false := by
  simp [Operand.isIndirect]

theorem targetAddress_of_isImmediate {o : Operand} (himm : o.isImmediate = true) (next : Word) (s : State) :
    targetAddress o next s = .error (.undefinedAddressing s.regs.pc) :=
  targetAddress_eq_error.2 (.inl ⟨himm, rfl⟩)

/-- The base with the flags b and p read as one condition (`40_step_and_addressing.md` R95, R96). -/
theorem baseAddress_eq (o : Operand) (next : Word) (s : State) :
    baseAddress o next s =
      if o.x = true then (if o.b = false ∧ o.p = false then o.raw else o.offset + next) + s.regs.x
      else if o.b = false ∧ o.p = false then o.raw else o.offset + next := by
  unfold baseAddress
  cases o.b <;> cases o.p <;> rfl

/-- A word read from memory is not negative as a 32-bit integer (`40_step_and_addressing.md` R99). -/
theorem State.memRead_three_le {s : State} {addr v : Word} (h : s.memRead addr 3 = .ok v) : v.toNat ≤ 0xFFFFFF := by
  obtain ⟨-, rfl⟩ := State.memRead_eq_ok.1 h
  have hlt := beNat_lt (s.mem.bytesAt addr.toNat 3)
  rw [Memory.length_bytesAt] at hlt
  rw [BitVec.toNat_ofNat]
  omega

/-- The operand of an instruction that needs an address (`40_step_and_addressing.md` R100). -/
def addressOperand : Instr → Option Operand
  | .sta f | .stl f | .stx f | .stch f | .j f | .jeq f | .jlt f | .jsub f | .td f | .rd f | .wd f => some (operand3 f)
  | .staExt f | .stlExt f | .stxExt f | .stchExt f | .jExt f | .jeqExt f | .jltExt f | .jsubExt f | .tdExt f | .rdExt f
  | .wdExt f => some (operand4 f)
  | _ => none

/-- The handler of an instruction that needs an address resolves it first, and takes the fault where that fails. -/
theorem handler_of_target_error {i : Instr} {o : Operand} {next : Word} {s : State} {f : Fault}
    (hi : addressOperand i = some o) (h : targetAddress o next s = .error f) : handlerOf i next s = .error f := by
  have hid : deviceId o next s = .error f := deviceId_eq_error.2 (.inl h)
  cases i with
  | sta g | staExt g | stl g | stlExt g | stx g | stxExt g | stch g | stchExt g =>
    cases hi
    simp only [handlerOf, storeBytes, h]
  | jeq g | jeqExt g | jlt g | jltExt g =>
    cases hi
    simp only [handlerOf, branchIf, h]
  | j g | jExt g =>
    cases hi
    simp only [handlerOf, jump, h]
  | jsub g | jsubExt g =>
    cases hi
    simp only [handlerOf, call, h]
  | td g | tdExt g =>
    cases hi
    simp only [handlerOf, testDevice, hid]
  | rd g | rdExt g =>
    cases hi
    simp only [handlerOf, readDevice, hid]
  | wd g | wdExt g =>
    cases hi
    simp only [handlerOf, writeDevice, hid]
  | _ => cases hi

/-- The immediate pattern on an instruction that needs an address (`40_step_and_addressing.md` R100). -/
theorem exec_of_isImmediate {i : Instr} {o : Operand} (hi : addressOperand i = some o) (himm : o.isImmediate = true)
    (s : State) : exec i s = .next (s.raise (.undefinedAddressing s.regs.pc)) := by
  rw [exec_eq_settle, handler_of_target_error hi (targetAddress_of_isImmediate himm _ s), State.settle_error]

end Sys2Proof.Machine

namespace Sys2Proof.Proofs

open Sys2Proof.Machine

/-- Settles O25: the flag patterns select the branches of `TargetAddress()`. -/
theorem targetAddressFollowsTheFlags : Obligations.TargetAddressFollowsTheFlags := by
  unfold Obligations.TargetAddressFollowsTheFlags
  intro o next s direct base
  have hbase : baseAddress o next s = base := baseAddress_eq o next s
  refine ⟨fun hn hi => ?_, fun hni => ?_, fun hn hi hin => ?_, fun hn hi hout => ?_⟩
  · exact targetAddress_of_isImmediate (Operand.isImmediate_iff.2 ⟨hn, hi⟩) next s
  · have hdirect : o.isIndirect = false := by simp [Operand.isIndirect, hni]
    exact targetAddress_eq_ok.2 ⟨Operand.isImmediate_eq_false_iff.2 (by simp [hni]), .inr ⟨hdirect, hbase⟩⟩
  · have hread : s.memRead base 3 = .ok (wordAt s.mem base.toNat) :=
      State.memRead_eq_ok.2 ⟨hin, ofNat_beNat_three s.mem base.toNat⟩
    rw [← hbase] at hread ⊢
    exact targetAddress_eq_ok.2 ⟨Operand.isImmediate_eq_false_iff.2 (by simp [hn]),
      .inl ⟨Operand.isIndirect_iff.2 ⟨hn, hi⟩, hread⟩⟩
  · rw [← hbase] at hout ⊢
    exact targetAddress_eq_error.2 (.inr ⟨Operand.isImmediate_eq_false_iff.2 (by simp [hn]),
      Operand.isIndirect_iff.2 ⟨hn, hi⟩, hout, rfl⟩)

/-- Settles O26: every answer of `OperandValue(k)`; three bytes of memory spell a number below 2^24. -/
theorem operandValueIsRawOrRead : Obligations.OperandValueIsRawOrRead := by
  unfold Obligations.OperandValueIsRawOrRead
  intro k o next s
  refine ⟨fun hn hi => ?_, fun ta v hta hread => ?_, fun ta f hta hread => ?_, fun f hno hta => ?_, fun ta v h => ?_⟩
  · exact operandValue_eq_ok.2 (.inl ⟨Operand.isImmediate_iff.2 ⟨hn, hi⟩, rfl, rfl⟩)
  · exact operandValue_eq_ok.2 (.inr ⟨ta, hta, hread, rfl⟩)
  · exact operandValue_eq_error.2 ⟨(targetAddress_eq_ok.1 hta).1, .inr ⟨ta, hta, hread⟩⟩
  · exact operandValue_eq_error.2 ⟨Operand.isImmediate_eq_false_iff.2 hno, .inl hta⟩
  · obtain ⟨-, -, hnone⟩ | ⟨a, -, hread, -⟩ := operandValue_eq_ok.1 h
    · cases hnone
    · exact State.memRead_three_le hread

/-- Settles O27: each of the listed instructions needs an address. -/
theorem immediateAddressPatternFaults : Obligations.ImmediateAddressPatternFaults := by
  unfold Obligations.ImmediateAddressPatternFaults
  refine ⟨fun f s hn hi i hmem => ?_, fun f s hn hi i hmem => ?_⟩
  · have hoperand : addressOperand i = some (operand3 f) := by
      revert i
      simp [addressOperand]
    exact exec_of_isImmediate hoperand (Operand.isImmediate_iff.2 ⟨hn, hi⟩) s
  · have hoperand : addressOperand i = some (operand4 f) := by
      revert i
      simp [addressOperand]
    exact exec_of_isImmediate hoperand (Operand.isImmediate_iff.2 ⟨hn, hi⟩) s

end Sys2Proof.Proofs

/-! ### Register B -/

namespace Sys2Proof.Machine

/-- The state with another value in register B. -/
def State.withB (s : State) (v : Word) : State := { s with regs := { s.regs with b := v } }

/-- A handler's answer with another value in register B of the state it gives. -/
def withBResult (v : Word) : Except Fault (State × Word) → Except Fault (State × Word)
  | .error f => .error f
  | .ok (t, npc) => .ok (t.withB v, npc)

/-! #### The operations, whatever B holds -/

theorem targetAddress_withB (o : Operand) (next : Word) (s : State) (v : Word) :
    targetAddress o next (s.withB v) = targetAddress o next s := rfl

theorem operandValue_withB (k : Nat) (o : Operand) (next : Word) (s : State) (v : Word) :
    operandValue k o next (s.withB v) = operandValue k o next s := rfl

theorem deviceId_withB (o : Operand) (next : Word) (s : State) (v : Word) :
    deviceId o next (s.withB v) = deviceId o next s := rfl

theorem State.reg_withB (s : State) (v : Word) {r : Reg} (hr : r ≠ .b) : (s.withB v).reg r = s.reg r := by
  cases r with
  | b => exact absurd rfl hr
  | _ => rfl

theorem State.setReg_withB (s : State) (v w : Word) {r : Reg} (hr : r ≠ .b) :
    (s.withB v).setReg r w = (s.setReg r w).withB v := by
  cases r with
  | b => exact absurd rfl hr
  | _ => rfl

theorem State.noteTarget_withB (s : State) (v : Word) (ta : Option Word) :
    (s.withB v).noteTarget ta = (s.noteTarget ta).withB v := by
  cases ta <;> rfl

theorem State.memWrite_withB (s : State) (v addr : Word) (n : Nat) (w : Word) :
    (s.withB v).memWrite addr n w = (s.memWrite addr n w).map (·.withB v) := by
  unfold State.memWrite State.checked
  split <;> rfl

theorem State.devRead_withB (s : State) (v : Word) (d : Byte) :
    (s.withB v).devRead d = (s.devRead d).map fun p => (p.1, p.2.withB v) := by
  have hopen : (s.withB v).openForRead d = s.openForRead d := rfl
  unfold State.devRead
  rw [hopen]
  cases s.openForRead d with
  | error f => rfl
  | ok dev => cases hb : dev.input[dev.cursor]? <;> simp only [hb] <;> rfl

theorem State.devWrite_withB (s : State) (v : Word) (d b : Byte) :
    (s.withB v).devWrite d b = (s.devWrite d b).map (·.withB v) := by
  have hopen : (s.withB v).openForWrite d = s.openForWrite d := rfl
  unfold State.devWrite
  rw [hopen]
  cases s.openForWrite d <;> rfl

theorem State.retire_withB (s : State) (v : Word) (m : Mnemonic) (npc : Word) :
    (s.withB v).retire m npc = (s.retire m npc).withB v := by
  by_cases h : npc = 0#32
  · subst h
    rfl
  · rw [State.retire_of_ne _ m h, State.retire_of_ne _ m h]
    rfl

theorem State.settle_withB (s : State) (v : Word) (m : Mnemonic) (result : Except Fault (State × Word)) :
    (s.withB v).settle m (withBResult v result) = (s.settle m result).withB v := by
  cases result with
  | error f => rfl
  | ok p => exact State.retire_withB p.1 v m p.2

/-! #### The handlers, whatever B holds -/

theorem loadWord_withB {r : Reg} (hr : r ≠ .b) (o : Operand) (next : Word) (s : State) (v : Word) :
    loadWord r o next (s.withB v) = withBResult v (loadWord r o next s) := by
  unfold loadWord
  rw [operandValue_withB]
  cases operandValue 3 o next s with
  | error f => rfl
  | ok p => simp only [State.setReg_withB s v _ hr, State.noteTarget_withB, withBResult]

theorem loadByte_withB (o : Operand) (next : Word) (s : State) (v : Word) :
    loadByte o next (s.withB v) = withBResult v (loadByte o next s) := by
  unfold loadByte
  rw [operandValue_withB]
  cases operandValue 1 o next s with
  | error f => rfl
  | ok p =>
    have ha : Reg.a ≠ .b := nofun
    simp only [State.reg_withB s v ha, State.setReg_withB s v _ ha, State.noteTarget_withB, withBResult]

theorem storeBytes_withB {r : Reg} (hr : r ≠ .b) (k : Nat) (o : Operand) (next : Word) (s : State) (v : Word) :
    storeBytes r k o next (s.withB v) = withBResult v (storeBytes r k o next s) := by
  unfold storeBytes
  rw [targetAddress_withB, State.reg_withB s v hr]
  cases targetAddress o next s with
  | error f => rfl
  | ok ta =>
    simp only [State.memWrite_withB]
    cases s.memWrite ta k (s.reg r) <;> rfl

theorem compareWord_withB (o : Operand) (next : Word) (s : State) (v : Word) :
    compareWord o next (s.withB v) = withBResult v (compareWord o next s) := by
  unfold compareWord
  rw [operandValue_withB]
  cases operandValue 3 o next s with
  | error f => rfl
  | ok p =>
    have hcc (cc : CC) : { s.withB v with cc := cc } = { s with cc := cc }.withB v := rfl
    have ha : (s.withB v).regs.a = s.regs.a := rfl
    simp only [hcc, ha, State.noteTarget_withB, withBResult]

theorem branchIf_withB (want : CC) (o : Operand) (next : Word) (s : State) (v : Word) :
    branchIf want o next (s.withB v) = withBResult v (branchIf want o next s) := by
  unfold branchIf
  rw [targetAddress_withB]
  cases targetAddress o next s <;> rfl

theorem jump_withB (o : Operand) (next : Word) (s : State) (v : Word) :
    jump o next (s.withB v) = withBResult v (jump o next s) := by
  unfold jump
  rw [targetAddress_withB]
  cases targetAddress o next s <;> rfl

theorem call_withB (o : Operand) (next : Word) (s : State) (v : Word) :
    call o next (s.withB v) = withBResult v (call o next s) := by
  unfold call
  rw [targetAddress_withB]
  cases targetAddress o next s <;> rfl

theorem returnThroughL_withB (next : Word) (s : State) (v : Word) :
    returnThroughL next (s.withB v) = withBResult v (returnThroughL next s) := rfl

theorem testDevice_withB (o : Operand) (next : Word) (s : State) (v : Word) :
    testDevice o next (s.withB v) = withBResult v (testDevice o next s) := by
  unfold testDevice
  rw [deviceId_withB]
  cases deviceId o next s <;> rfl

theorem readDevice_withB (o : Operand) (next : Word) (s : State) (v : Word) :
    readDevice o next (s.withB v) = withBResult v (readDevice o next s) := by
  unfold readDevice
  rw [deviceId_withB]
  cases deviceId o next s with
  | error f => rfl
  | ok p =>
    simp only [State.devRead_withB]
    cases s.devRead p.1 <;> rfl

theorem writeDevice_withB (o : Operand) (next : Word) (s : State) (v : Word) :
    writeDevice o next (s.withB v) = withBResult v (writeDevice o next s) := by
  unfold writeDevice
  rw [deviceId_withB]
  cases deviceId o next s with
  | error f => rfl
  | ok p =>
    simp only [State.devWrite_withB, State.reg_withB s v (r := .a) nofun]
    cases s.devWrite p.1 ((s.reg .a).setWidth 8) <;> rfl

/-- The handlers of formats 3 and 4 do the same whatever B holds: none of them names B as its register. -/
theorem handler_withB {i : Instr} (hlen : i.length ≠ 2) (next : Word) (s : State) (v : Word) :
    handlerOf i next (s.withB v) = withBResult v (handlerOf i next s) := by
  cases i with
  | compr g | clear g | tixr g => exact absurd rfl hlen
  | lda g | ldaExt g | ldt g | ldtExt g => exact loadWord_withB (by decide) _ next s v
  | ldch g | ldchExt g => exact loadByte_withB _ next s v
  | sta g | staExt g | stl g | stlExt g | stx g | stxExt g | stch g | stchExt g =>
    exact storeBytes_withB (by decide) _ _ next s v
  | comp g | compExt g => exact compareWord_withB _ next s v
  | jeq g | jeqExt g | jlt g | jltExt g => exact branchIf_withB _ _ next s v
  | j g | jExt g => exact jump_withB _ next s v
  | jsub g | jsubExt g => exact call_withB _ next s v
  | rsub g | rsubExt g => exact returnThroughL_withB next s v
  | td g | tdExt g => exact testDevice_withB _ next s v
  | rd g | rdExt g => exact readDevice_withB _ next s v
  | wd g | wdExt g => exact writeDevice_withB _ next s v

end Sys2Proof.Machine

namespace Sys2Proof.Proofs

open Sys2Proof.Machine

/-- Settles O28: another value in B goes through the handler and through what follows it. -/
theorem registerBIsNeverRead : Obligations.RegisterBIsNeverRead := by
  unfold Obligations.RegisterBIsNeverRead
  intro i s t v hlen h
  rw [exec_eq_settle] at h
  obtain rfl := Host.Outcome.next.inj h
  calc exec i (s.withB v)
      = .next ((s.withB v).settle i.mnemonic (handlerOf i (s.nextPc i.length) (s.withB v))) := exec_eq_settle i (s.withB v)
    _ = .next ((s.settle i.mnemonic (handlerOf i (s.nextPc i.length) s)).withB v) := by
      rw [handler_withB hlen, State.settle_withB]

end Sys2Proof.Proofs

/-! PROOFS. The statements of `41_compare_branch.md`: the comparisons and the conditional branches, and before them what the
rows of any mnemonic share: the base opcode, and the exec of a row from its handler. -/

/-! ### The base opcode of an encoding -/

namespace Sys2Proof

/-- Byte 0 of an encoding is the opcode bits and two bits of the format (`30_encoding.md` R53 to R55). -/
theorem exists_headD_encode (i : Instr) :
    ∃ low : BitVec 2, (encode i).headD 0#8 = (opcodeBits i.mnemonic ++ low : BitVec 8) := by
  cases i with
  | compr f | clear f | tixr f => exact ⟨f.ignored, rfl⟩
  | _ f => exact ⟨BitVec.ofBool f.n ++ BitVec.ofBool f.i, BitVec.append_assoc⟩

theorem opcode_append_and_mask (op : BitVec 6) (low : BitVec 2) :
    (op ++ low : BitVec 8) &&& 0xFC#8 = (op ++ 0#2 : BitVec 8) := by
  have hmask : 0xFC#8 = (BitVec.allOnes 6 ++ 0#2 : BitVec 8) := rfl
  rw [hmask, BitVec.and_append, BitVec.and_allOnes, BitVec.and_zero]

/-- The base opcode is the opcode bits over two zeros (`30_encoding.md` R51, R57). -/
theorem hasBaseOpcode_iff {i : Instr} {m : Mnemonic} {base : Byte} (hm : i.mnemonic = m) :
    Claims.HasBaseOpcode i base ↔ (opcodeBits m ++ 0#2 : BitVec 8) = base := by
  subst hm
  obtain ⟨low, hlow⟩ := exists_headD_encode i
  rw [Claims.HasBaseOpcode, hlow, opcode_append_and_mask]

end Sys2Proof

/-! ### The rows of a mnemonic -/

namespace Sys2Proof.Machine

open Sys2Proof.Claims

theorem exec_of_handler_ok {i : Instr} {s t : State} {npc : Word} (h : handlerOf i (s.nextPc i.length) s = .ok (t, npc)) :
    exec i s = .next (t.retire i.mnemonic npc) := by
  rw [exec_eq_settle, h, State.settle_ok]

theorem exec_of_handler_error {i : Instr} {s : State} {f : Fault} (h : handlerOf i (s.nextPc i.length) s = .error f) :
    exec i s = .next (s.raise f) := by
  rw [exec_eq_settle, h, State.settle_error]

/-- An instruction is a row of a mnemonic: it has this length, and it runs the mnemonic's handler on its operand. -/
structure IsRow (m : Mnemonic) (handler : Operand → Word → State → Except Fault (State × Word)) (i : Instr) (o : Operand)
    (len : Nat) : Prop where
  mnemonic_eq : i.mnemonic = m
  length_eq : i.length = len
  handlerOf_eq : handlerOf i = handler o

/-- What holds of any instruction that is a row of the mnemonic holds in both formats. -/
theorem eachFormat_mono {row3 : Format3 → Instr} {row4 : Format4 → Instr} {p q : Instr → Operand → Nat → Prop}
    (hrows : EachFormat row3 row4 p) (h : ∀ i o len, p i o len → q i o len) : EachFormat row3 row4 q :=
  ⟨fun f => h _ _ _ (hrows.1 f), fun f => h _ _ _ (hrows.2 f)⟩

section

variable {m : Mnemonic} {handler : Operand → Word → State → Except Fault (State × Word)} {i : Instr} {o : Operand} {len : Nat}

theorem IsRow.exec_of_ok (row : IsRow m handler i o len) {s t : State} {npc : Word}
    (h : handler o (s.nextPc len) s = .ok (t, npc)) : exec i s = .next (t.retire m npc) := by
  obtain ⟨rfl, rfl, hhandler⟩ := row
  exact exec_of_handler_ok (hhandler ▸ h)

theorem IsRow.exec_of_error (row : IsRow m handler i o len) {s : State} {f : Fault}
    (h : handler o (s.nextPc len) s = .error f) : exec i s = .next (s.raise f) := by
  obtain ⟨rfl, rfl, hhandler⟩ := row
  exact exec_of_handler_error (hhandler ▸ h)

end

theorem comp_isRow : EachFormat .comp .compExt (IsRow .comp compareWord) :=
  ⟨fun _ => ⟨rfl, rfl, rfl⟩, fun _ => ⟨rfl, rfl, rfl⟩⟩

theorem jeq_isRow : EachFormat .jeq .jeqExt (IsRow .jeq (branchIf .eq)) :=
  ⟨fun _ => ⟨rfl, rfl, rfl⟩, fun _ => ⟨rfl, rfl, rfl⟩⟩

theorem jlt_isRow : EachFormat .jlt .jltExt (IsRow .jlt (branchIf .lt)) :=
  ⟨fun _ => ⟨rfl, rfl, rfl⟩, fun _ => ⟨rfl, rfl, rfl⟩⟩

end Sys2Proof.Machine

/-! ### The operand value -/

namespace Sys2Proof.Machine

section

variable {o : Operand} {next ta : Word} {s : State}

theorem operandValue_of_isImmediate (himm : o.isImmediate = true) (k : Nat) (next : Word) (s : State) :
    operandValue k o next s = .ok (o.raw, none) :=
  operandValue_eq_ok.2 (.inl ⟨himm, rfl, rfl⟩)

/-- A word operand inside memory is the word at the target (`40_step_and_addressing.md` R99). -/
theorem operandValue_three_of_inMemory (hta : targetAddress o next s = .ok ta) (hin : InMemory ta 3) :
    operandValue 3 o next s = .ok (wordAt s.mem ta.toNat, some ta) :=
  operandValue_eq_ok.2 (.inr ⟨ta, hta, State.memRead_eq_ok.2 ⟨hin, ofNat_beNat_three s.mem ta.toNat⟩, rfl⟩)

theorem operandValue_of_not_inMemory {k : Nat} (hta : targetAddress o next s = .ok ta) (hout : ¬ InMemory ta k) :
    operandValue k o next s = .error (.outOfRangeMemory ta k s.regs.pc) :=
  operandValue_eq_error.2 ⟨(targetAddress_eq_ok.1 hta).1, .inr ⟨ta, hta, State.memRead_eq_error.2 ⟨hout, rfl⟩⟩⟩

theorem operandValue_of_target_error {f : Fault} (hno : o.isImmediate = false) (hta : targetAddress o next s = .error f)
    (k : Nat) : operandValue k o next s = .error f :=
  operandValue_eq_error.2 ⟨hno, .inl hta⟩

end

end Sys2Proof.Machine

/-! ### The comparisons -/

namespace Sys2Proof.Machine

theorem compareWord_eq_error {o : Operand} {next : Word} {s : State} {f : Fault} :
    compareWord o next s = .error f ↔ operandValue 3 o next s = .error f := by
  unfold compareWord
  cases operandValue 3 o next s <;> simp

theorem Reg.exists_ofIndex_eq_some {k : Nat} : (∃ r, Reg.ofIndex k = some r) ↔ k ≤ 8 := by
  rw [← Option.ne_none_iff_exists', Ne, Reg.ofIndex_eq_none, Nat.not_lt]

/-- A register field above 8 names no register (`60_exceptions.md` R173). -/
theorem State.regIndex_of_gt {r : BitVec 4} (h : r.toNat > 8) (s : State) :
    s.regIndex r = .error (.outOfRangeRegister r s.regs.pc) :=
  State.regIndex_eq_error.2 ⟨Reg.ofIndex_eq_none.2 h, rfl⟩

theorem compareRegs_eq_error {f : Format2} {next : Word} {s : State} {e : Fault} :
    compareRegs f next s = .error e ↔
      s.regIndex f.r1 = .error e ∨ ∃ r1, s.regIndex f.r1 = .ok r1 ∧ s.regIndex f.r2 = .error e := by
  unfold compareRegs
  cases s.regIndex f.r1 with
  | error e1 => simp
  | ok r1 => cases s.regIndex f.r2 <;> simp

end Sys2Proof.Machine

namespace Sys2Proof.Proofs

open Sys2Proof.Machine

/-- Settles O31: each answer of `OperandValue(3)` gives one clause. -/
theorem compComparesAWithOperand : Obligations.CompComparesAWithOperand := by
  unfold Obligations.CompComparesAWithOperand
  refine eachFormat_mono comp_isRow fun i o len row => ⟨(hasBaseOpcode_iff row.mnemonic_eq).2 rfl, fun s => ?_⟩
  refine ⟨fun himm => ?_, fun ta hta hin => ?_, fun ta hta hout => ?_, fun f hno hta => ?_⟩
  · exact row.exec_of_ok (compareWord_eq_ok.2 ⟨_, _, operandValue_of_isImmediate himm 3 _ s, rfl, rfl⟩)
  · exact row.exec_of_ok (compareWord_eq_ok.2 ⟨_, _, operandValue_three_of_inMemory hta hin, rfl, rfl⟩)
  · exact row.exec_of_error (compareWord_eq_error.2 (operandValue_of_not_inMemory hta hout))
  · exact row.exec_of_error (compareWord_eq_error.2 (operandValue_of_target_error hno hta 3))

/-- Settles O32: the fields are resolved in the order `r1`, `r2`, and the first that names no register faults. -/
theorem comprComparesTwoRegisters : Obligations.ComprComparesTwoRegisters := by
  unfold Obligations.ComprComparesTwoRegisters
  intro f s
  refine ⟨(hasBaseOpcode_iff (m := .compr) rfl).2 rfl, fun r1 r2 h1 h2 => ?_, fun h1 => ?_, fun h1 h2 => ?_⟩
  · exact exec_of_handler_ok (i := .compr f)
      (compareRegs_eq_ok.2 ⟨r1, r2, State.regIndex_eq_ok.2 h1, State.regIndex_eq_ok.2 h2, rfl, rfl⟩)
  · exact exec_of_handler_error (i := .compr f) (compareRegs_eq_error.2 (.inl (State.regIndex_of_gt h1 s)))
  · obtain ⟨r1, hr1⟩ := Reg.exists_ofIndex_eq_some.2 h1
    exact exec_of_handler_error (i := .compr f)
      (compareRegs_eq_error.2 (.inr ⟨r1, State.regIndex_eq_ok.2 hr1, State.regIndex_of_gt h2 s⟩))

end Sys2Proof.Proofs

/-! ### The conditional branches -/

namespace Sys2Proof.Machine

open Sys2Proof.Claims

theorem branchIf_eq_error {want : CC} {o : Operand} {next : Word} {s : State} {f : Fault} :
    branchIf want o next s = .error f ↔ targetAddress o next s = .error f := by
  unfold branchIf
  cases targetAddress o next s <;> simp

/-- The target is resolved before the flag is looked at, so its faults do not depend on the flag (`41_compare_branch.md`
R112). -/
theorem IsRow.branchesOn {m : Mnemonic} {want : CC} {i : Instr} {o : Operand} {len : Nat}
    (row : IsRow m (branchIf want) i o len) : BranchesOn m want i o len := by
  intro s
  refine ⟨fun ta hta hcc => ?_, fun ta hta hcc => ?_, fun himm => ?_, fun f _ hta => ?_⟩
  · exact row.exec_of_ok (branchIf_eq_ok.2 ⟨ta, hta, rfl, (if_pos hcc).symm⟩)
  · exact row.exec_of_ok (branchIf_eq_ok.2 ⟨ta, hta, rfl, (if_neg hcc).symm⟩)
  · exact row.exec_of_error (branchIf_eq_error.2 (targetAddress_of_isImmediate himm _ s))
  · exact row.exec_of_error (branchIf_eq_error.2 hta)

end Sys2Proof.Machine

namespace Sys2Proof.Proofs

open Sys2Proof.Machine

/-- Settles O33: both rows of `JEQ` run the handler of a branch on EQ. -/
theorem jeqBranchesOnEqual : Obligations.JeqBranchesOnEqual := by
  unfold Obligations.JeqBranchesOnEqual
  exact eachFormat_mono jeq_isRow fun i o len row => ⟨(hasBaseOpcode_iff row.mnemonic_eq).2 rfl, row.branchesOn⟩

/-- Settles O34: both rows of `JLT` run the handler of a branch on LT. -/
theorem jltBranchesOnLess : Obligations.JltBranchesOnLess := by
  unfold Obligations.JltBranchesOnLess
  exact eachFormat_mono jlt_isRow fun i o len row => ⟨(hasBaseOpcode_iff row.mnemonic_eq).2 rfl, row.branchesOn⟩

end Sys2Proof.Proofs

/-! PROOFS. The statements of `42_jump_subroutine.md`: the jump, the call and the return; and that no step leaves the
reachable ranges of the registers, where the bound on L is the bound on a return address. -/

/-! ### Jump, call and return -/

namespace Sys2Proof.Machine

open Sys2Proof.Claims

theorem jump_eq_error {o : Operand} {next : Word} {s : State} {f : Fault} :
    jump o next s = .error f ↔ targetAddress o next s = .error f := by
  unfold jump
  cases targetAddress o next s <;> simp

theorem call_eq_error {o : Operand} {next : Word} {s : State} {f : Fault} :
    call o next s = .error f ↔ targetAddress o next s = .error f := by
  unfold call
  cases targetAddress o next s <;> simp

theorem j_isRow : EachFormat .j .jExt (IsRow .j jump) :=
  ⟨fun _ => ⟨rfl, rfl, rfl⟩, fun _ => ⟨rfl, rfl, rfl⟩⟩

theorem jsub_isRow : EachFormat .jsub .jsubExt (IsRow .jsub call) :=
  ⟨fun _ => ⟨rfl, rfl, rfl⟩, fun _ => ⟨rfl, rfl, rfl⟩⟩

/-- The handler of `RSUB` takes no operand: every flag and the field are ignored (`42_jump_subroutine.md` R122). -/
theorem rsub_isRow : EachFormat .rsub .rsubExt (IsRow .rsub fun _ => returnThroughL) :=
  ⟨fun _ => ⟨rfl, rfl, rfl⟩, fun _ => ⟨rfl, rfl, rfl⟩⟩

end Sys2Proof.Machine

namespace Sys2Proof.Proofs

open Sys2Proof.Machine

/-- Settles O35: each answer of `TargetAddress()` gives one clause, and nothing checks an address it answers with. -/
theorem jumpGoesToTarget : Obligations.JumpGoesToTarget := by
  unfold Obligations.JumpGoesToTarget
  refine eachFormat_mono j_isRow fun i o len row => ⟨(hasBaseOpcode_iff row.mnemonic_eq).2 rfl, fun s => ?_⟩
  refine ⟨fun ta hta => ?_, fun himm => ?_, fun f _ hta => ?_⟩
  · exact row.exec_of_ok (jump_eq_ok.2 ⟨ta, hta, rfl, rfl⟩)
  · exact row.exec_of_error (jump_eq_error.2 (targetAddress_of_isImmediate himm _ s))
  · exact row.exec_of_error (jump_eq_error.2 hta)

/-- Settles O36: the target is resolved in the state before L is written. -/
theorem jsubSavesReturnAddress : Obligations.JsubSavesReturnAddress := by
  unfold Obligations.JsubSavesReturnAddress
  refine eachFormat_mono jsub_isRow fun i o len row => ⟨(hasBaseOpcode_iff row.mnemonic_eq).2 rfl, fun s => ?_⟩
  refine ⟨fun ta hta => ?_, fun himm => ?_, fun f _ hta => ?_⟩
  · exact row.exec_of_ok (call_eq_ok.2 ⟨ta, hta, rfl, rfl⟩)
  · exact row.exec_of_error (call_eq_error.2 (targetAddress_of_isImmediate himm _ s))
  · exact row.exec_of_error (call_eq_error.2 hta)

/-- Settles O37: the handler of both rows answers with the state as it was and L as the next PC. -/
theorem rsubGoesToL : Obligations.RsubGoesToL := by
  unfold Obligations.RsubGoesToL
  refine eachFormat_mono rsub_isRow fun i o len row => ⟨(hasBaseOpcode_iff row.mnemonic_eq).2 rfl, fun s => ?_⟩
  exact row.exec_of_ok (returnThroughL_eq_ok.2 ⟨rfl, rfl⟩)

end Sys2Proof.Proofs

/-! ### The reachable ranges of the registers -/

namespace Sys2Proof.Machine

/-- What `State.registersReachable` asks of each register, as a strict bound on its unsigned value; X and PC are free. -/
def reachableBound : Reg → Nat
  | .a | .t => 2 ^ 24
  | .l => 65537
  | .b | .s | .f | .sw => 1
  | .x | .pc => 2 ^ 32

/-- Every register is below its bound. -/
def Regs.Bounded (g : Regs) : Prop := ∀ r, (g.get r).toNat < reachableBound r

theorem toNat_lt_one_iff {w : Word} : w.toNat < 1 ↔ w = 0#32 := by
  rw [Nat.lt_one_iff, BitVec.toNat_eq, BitVec.toNat_zero]

theorem State.registersReachable_iff {s : State} : s.registersReachable = true ↔ s.regs.Bounded := by
  simp only [State.registersReachable, Bool.and_eq_true, decide_eq_true_eq]
  constructor
  · rintro ⟨⟨⟨⟨⟨⟨hb, hs⟩, hf⟩, hsw⟩, hl⟩, ha⟩, ht⟩ r
    cases r with
    | a => exact ha
    | t => exact ht
    | l => exact Nat.lt_succ_of_le hl
    | b => exact toNat_lt_one_iff.2 hb
    | s => exact toNat_lt_one_iff.2 hs
    | f => exact toNat_lt_one_iff.2 hf
    | sw => exact toNat_lt_one_iff.2 hsw
    | x | pc => exact BitVec.isLt _
  · intro h
    exact ⟨⟨⟨⟨⟨⟨toNat_lt_one_iff.1 (h .b), toNat_lt_one_iff.1 (h .s)⟩, toNat_lt_one_iff.1 (h .f)⟩,
      toNat_lt_one_iff.1 (h .sw)⟩, Nat.le_of_lt_succ (h .l)⟩, h .a⟩, h .t⟩

theorem reachableBound_pos (r : Reg) : 0 < reachableBound r := by
  cases r <;> decide

/-- Writing a register with a value below its bound keeps every register below its own. -/
theorem Regs.Bounded.set {g : Regs} (h : g.Bounded) {r : Reg} {v : Word} (hv : v.toNat < reachableBound r) :
    (g.set r v).Bounded := by
  intro r'
  by_cases hr : r' = r
  · subst hr
    rwa [Regs.get_set_self]
  · rw [Regs.get_set_of_ne g v hr]
    exact h r'

/-! The values that the instructions write to A, T and L. -/

theorem toNat_raw_operand3_lt (f : Format3) : (operand3 f).raw.toNat < 2 ^ 24 := by
  rw [toNat_raw_operand3]
  have := f.disp.isLt
  omega

theorem toNat_raw_operand4_lt (f : Format4) : (operand4 f).raw.toNat < 2 ^ 24 := by
  rw [toNat_raw_operand4]
  have := f.addr.isLt
  omega

/-- A word operand is an immediate field or three bytes of memory (`70_reset_and_hazards.md` R218). -/
theorem operandValue_three_lt {o : Operand} {next v : Word} {s : State} {ta : Option Word} (hraw : o.raw.toNat < 2 ^ 24)
    (h : operandValue 3 o next s = .ok (v, ta)) : v.toNat < 2 ^ 24 := by
  obtain ⟨-, rfl, -⟩ | ⟨a, -, hread, -⟩ := operandValue_eq_ok.1 h
  · exact hraw
  · exact Nat.lt_succ_of_le (State.memRead_three_le hread)

theorem toNat_withLowByte (w : Word) (v : Byte) : (withLowByte w v).toNat = w.toNat / 256 * 256 + v.toNat := by
  have hw := w.isLt
  rw [withLowByte, toNat_append_eq, BitVec.extractLsb'_toNat, Nat.shiftRight_eq_div_pow]
  omega

/-- A byte put into the low byte of a word leaves the bits above alone (`43_load_store.md` R130 (d)). -/
theorem toNat_withLowByte_lt {w : Word} (v : Byte) (h : w.toNat < 2 ^ 24) : (withLowByte w v).toNat < 2 ^ 24 := by
  rw [toNat_withLowByte]
  have := v.isLt
  omega

/-- An instruction that was fetched ends inside memory, so the address after it is at most 65536
(`42_jump_subroutine.md` R122). -/
theorem toNat_nextPc_le_of_fetch {s : State} {i : Instr} (h : fetch s = .ok i) : (s.nextPc i.length).toNat ≤ 65536 := by
  have hend : s.regs.pc.toNat + i.length ≤ 65536 := inMemory_of_fetch h
  rw [State.nextPc, toNat_add_of_inMemory (inMemory_iff _ _ |>.2 hend) (by omega)]
  exact hend

/-! What the handlers, the retire stage and the step keep. -/

theorem loadWord_bounded {r : Reg} {o : Operand} {next npc : Word} {s u : State} (hr : reachableBound r = 2 ^ 24)
    (hraw : o.raw.toNat < 2 ^ 24) (hs : s.regs.Bounded) (h : loadWord r o next s = .ok (u, npc)) : u.regs.Bounded := by
  obtain ⟨v, ta, hv, rfl, -⟩ := loadWord_eq_ok.1 h
  rw [State.regs_noteTarget, State.regs_setReg]
  exact hs.set (hr ▸ operandValue_three_lt hraw hv)

/-- A handler that is given an address of at most 65536 keeps the registers below their bounds. -/
theorem handler_bounded {i : Instr} {next npc : Word} {s u : State} (hnext : next.toNat ≤ 65536) (hs : s.regs.Bounded)
    (h : handlerOf i next s = .ok (u, npc)) : u.regs.Bounded := by
  cases i with
  | lda g | ldt g => exact loadWord_bounded rfl (toNat_raw_operand3_lt g) hs h
  | ldaExt g | ldtExt g => exact loadWord_bounded rfl (toNat_raw_operand4_lt g) hs h
  | ldch g | ldchExt g =>
    obtain ⟨v, ta, -, rfl, -⟩ := loadByte_eq_ok.1 h
    rw [State.regs_noteTarget, State.regs_setReg]
    exact hs.set (toNat_withLowByte_lt _ (hs .a))
  | rd g | rdExt g =>
    obtain ⟨d, ta, v, w, -, hread, -, rfl⟩ := readDevice_eq_ok.1 h
    rw [State.devRead_frame hread]
    exact hs.set (r := .a) (toNat_withLowByte_lt v (hs .a))
  | jsub g | jsubExt g =>
    obtain ⟨ta, -, rfl, -⟩ := call_eq_ok.1 h
    exact hs.set (r := .l) (Nat.lt_succ_of_le hnext)
  | clear g =>
    obtain ⟨r, -, rfl, -⟩ := clearReg_eq_ok.1 h
    exact hs.set (reachableBound_pos r)
  | tixr g =>
    obtain ⟨r, -, -, rfl⟩ := incrementCompare_eq_ok.1 h
    exact hs.set (r := .x) (BitVec.isLt _)
  | sta g | staExt g | stl g | stlExt g | stx g | stxExt g | stch g | stchExt g =>
    obtain ⟨ta, w, -, hw, rfl, -⟩ := storeBytes_eq_ok.1 h
    obtain ⟨-, rfl⟩ := State.memWrite_eq_ok.1 hw
    exact hs
  | comp g | compExt g =>
    obtain ⟨v, ta, -, rfl, -⟩ := compareWord_eq_ok.1 h
    rwa [State.regs_noteTarget]
  | compr g =>
    obtain ⟨r1, r2, -, -, rfl, -⟩ := compareRegs_eq_ok.1 h
    exact hs
  | jeq g | jeqExt g | jlt g | jltExt g =>
    obtain ⟨ta, -, rfl, -⟩ := branchIf_eq_ok.1 h
    exact hs
  | j g | jExt g =>
    obtain ⟨ta, -, rfl, -⟩ := jump_eq_ok.1 h
    exact hs
  | rsub g | rsubExt g =>
    obtain ⟨rfl, -⟩ := returnThroughL_eq_ok (next := next).1 h
    exact hs
  | td g | tdExt g =>
    obtain ⟨d, ta, -, -, rfl⟩ := testDevice_eq_ok.1 h
    exact hs
  | wd g | wdExt g =>
    obtain ⟨d, ta, w, -, hw, -, rfl⟩ := writeDevice_eq_ok.1 h
    rw [State.devWrite_frame hw]
    exact hs

theorem State.retire_bounded {s : State} (h : s.regs.Bounded) (m : Mnemonic) (npc : Word) :
    (s.retire m npc).regs.Bounded := by
  rw [State.regs_retire]
  exact h.set (r := .pc) npc.isLt

theorem step_bounded {s t : State} (hs : s.regs.Bounded) (h : step s = .next t) : t.regs.Bounded := by
  obtain ⟨-, rfl⟩ | ⟨-, ⟨f, -, rfl⟩ | ⟨i, hfetch, hexec⟩⟩ := step_cases h
  · exact hs
  · exact hs
  · rcases exec_cases hexec with ⟨f, -, rfl⟩ | ⟨u, npc, hu, rfl⟩
    · exact hs
    · exact State.retire_bounded (handler_bounded (toNat_nextPc_le_of_fetch hfetch) hs hu) _ npc

end Sys2Proof.Machine

namespace Sys2Proof.Proofs

open Sys2Proof.Machine

/-- Settles O6: the fetch bounds the return address that a call writes, and every other value written to a register with a
range is 0, a word operand or a byte. -/
theorem stepKeepsRegistersReachable : Obligations.StepKeepsRegistersReachable := by
  unfold Obligations.StepKeepsRegistersReachable
  intro s t hs h
  exact State.registersReachable_iff.2 (step_bounded (State.registersReachable_iff.1 hs) h)

end Sys2Proof.Proofs

/-! PROOFS. The statements of `43_load_store.md`: the loads, whose every answer is an answer of `OperandValue(k)`, and the
stores, whose every answer is one of the target address or of the checked write. -/

/-! ### Loads -/

namespace Sys2Proof.Machine

open Sys2Proof.Claims

/-- A byte operand inside memory is the byte at the target (`40_step_and_addressing.md` R99). -/
theorem operandValue_one_of_inMemory {o : Operand} {next ta : Word} {s : State} (hta : targetAddress o next s = .ok ta)
    (hin : InMemory ta 1) : operandValue 1 o next s = .ok ((s.mem.read ta.toNat).setWidth 32, some ta) :=
  operandValue_eq_ok.2 (.inr ⟨ta, hta, State.memRead_eq_ok.2 ⟨hin, ofNat_beNat_one s.mem ta.toNat⟩, rfl⟩)

theorem loadWord_eq_error {r : Reg} {o : Operand} {next : Word} {s : State} {f : Fault} :
    loadWord r o next s = .error f ↔ operandValue 3 o next s = .error f := by
  unfold loadWord
  cases operandValue 3 o next s <;> simp

theorem loadByte_eq_error {o : Operand} {next : Word} {s : State} {f : Fault} :
    loadByte o next s = .error f ↔ operandValue 1 o next s = .error f := by
  unfold loadByte
  cases operandValue 1 o next s <;> simp

/-- The low byte replaced by the low byte of another word (`43_load_store.md` R133). -/
theorem withLowByte_setWidth (w v : Word) : withLowByte w (v.setWidth 8) = (w &&& 0xFFFFFF00#32) ||| (v &&& 0xFF#32) := by
  rw [withLowByte_eq, setWidth_low_byte]

/-- A word load answers as `OperandValue(3)` does, whatever register it loads (`43_load_store.md` R130 (b)). -/
theorem IsRow.loadsWord {m : Mnemonic} {r : Reg} {i : Instr} {o : Operand} {len : Nat} (row : IsRow m (loadWord r) i o len) :
    LoadsWord m (fun g v => g.set r v) i o len := by
  intro s
  refine ⟨fun himm => ?_, fun ta hta hin => ?_, fun ta hta hout => ?_, fun f hno hta => ?_⟩
  · exact row.exec_of_ok (loadWord_eq_ok.2 ⟨_, _, operandValue_of_isImmediate himm 3 _ s, rfl, rfl⟩)
  · exact row.exec_of_ok (loadWord_eq_ok.2 ⟨_, _, operandValue_three_of_inMemory hta hin, rfl, rfl⟩)
  · exact row.exec_of_error (loadWord_eq_error.2 (operandValue_of_not_inMemory hta hout))
  · exact row.exec_of_error (loadWord_eq_error.2 (operandValue_of_target_error hno hta 3))

theorem lda_isRow : EachFormat .lda .ldaExt (IsRow .lda (loadWord .a)) :=
  ⟨fun _ => ⟨rfl, rfl, rfl⟩, fun _ => ⟨rfl, rfl, rfl⟩⟩

theorem ldt_isRow : EachFormat .ldt .ldtExt (IsRow .ldt (loadWord .t)) :=
  ⟨fun _ => ⟨rfl, rfl, rfl⟩, fun _ => ⟨rfl, rfl, rfl⟩⟩

theorem ldch_isRow : EachFormat .ldch .ldchExt (IsRow .ldch loadByte) :=
  ⟨fun _ => ⟨rfl, rfl, rfl⟩, fun _ => ⟨rfl, rfl, rfl⟩⟩

end Sys2Proof.Machine

namespace Sys2Proof.Proofs

open Sys2Proof.Machine

/-- Settles O38: both rows of `LDA` run the word load into A. -/
theorem ldaLoadsWordIntoA : Obligations.LdaLoadsWordIntoA := by
  unfold Obligations.LdaLoadsWordIntoA
  exact eachFormat_mono lda_isRow fun i o len row => ⟨(hasBaseOpcode_iff row.mnemonic_eq).2 rfl, row.loadsWord⟩

/-- Settles O39: both rows of `LDT` run the word load into T. -/
theorem ldtLoadsWordIntoT : Obligations.LdtLoadsWordIntoT := by
  unfold Obligations.LdtLoadsWordIntoT
  exact eachFormat_mono ldt_isRow fun i o len row => ⟨(hasBaseOpcode_iff row.mnemonic_eq).2 rfl, row.loadsWord⟩

/-- Settles O40: each answer of `OperandValue(1)` gives one clause; the masks of the statement are the replaced low byte. -/
theorem ldchLoadsLowByteOfA : Obligations.LdchLoadsLowByteOfA := by
  unfold Obligations.LdchLoadsLowByteOfA
  refine eachFormat_mono ldch_isRow fun i o len row => ⟨(hasBaseOpcode_iff row.mnemonic_eq).2 rfl, fun s => ?_⟩
  refine ⟨fun himm => ?_, fun ta hta hin => ?_, fun ta hta hout => ?_, fun f hno hta => ?_⟩
  · rw [← withLowByte_setWidth]
    exact row.exec_of_ok (loadByte_eq_ok.2 ⟨_, _, operandValue_of_isImmediate himm 1 _ s, rfl, rfl⟩)
  · have hbyte : ((s.mem.read ta.toNat).setWidth 32).setWidth 8 = s.mem.read ta.toNat :=
      BitVec.setWidth_setWidth_of_le _ (by decide)
    rw [← withLowByte_eq, ← hbyte]
    exact row.exec_of_ok (loadByte_eq_ok.2 ⟨_, _, operandValue_one_of_inMemory hta hin, rfl, rfl⟩)
  · exact row.exec_of_error (loadByte_eq_error.2 (operandValue_of_not_inMemory hta hout))
  · exact row.exec_of_error (loadByte_eq_error.2 (operandValue_of_target_error hno hta 1))

end Sys2Proof.Proofs

/-! ### Stores -/

namespace Sys2Proof.Machine

open Sys2Proof.Claims

theorem storeBytes_eq_error {r : Reg} {k : Nat} {o : Operand} {next : Word} {s : State} {f : Fault} :
    storeBytes r k o next s = .error f ↔
      targetAddress o next s = .error f ∨ ∃ ta, targetAddress o next s = .ok ta ∧ s.memWrite ta k (s.reg r) = .error f := by
  unfold storeBytes
  cases targetAddress o next s with
  | error e => simp
  | ok ta => cases hw : s.memWrite ta k (s.reg r) <;> simp [hw]

section

variable {m : Mnemonic} {r : Reg} {k len : Nat} {i : Instr} {o : Operand} {s : State} {ta : Word}

/-- A store inside memory writes the low `k` bytes of its register from the target on (`43_load_store.md` R130 (c)). -/
theorem IsRow.exec_store_of_inMemory (row : IsRow m (storeBytes r k) i o len)
    (hta : targetAddress o (s.nextPc len) s = .ok ta) (hin : InMemory ta k) :
    exec i s =
      .next ({ s with
        mem := s.mem.writeBytes ta.toNat (beBytes k (s.reg r).toNat)
        lastTa := some ta }.retire m (s.nextPc len)) :=
  row.exec_of_ok (storeBytes_eq_ok.2 ⟨ta, _, hta, State.memWrite_eq_ok.2 ⟨hin, rfl⟩, rfl, rfl⟩)

/-- The faults of a store: one that does not fit writes no byte (`43_load_store.md` R134), and the target is resolved before
the write. -/
theorem IsRow.store_faults (row : IsRow m (storeBytes r k) i o len) (s : State) :
    (∀ ta, targetAddress o (s.nextPc len) s = .ok ta → ¬ InMemory ta k →
      exec i s = .next (s.raise (.outOfRangeMemory ta k s.regs.pc))) ∧
    (o.isImmediate = true → exec i s = .next (s.raise (.undefinedAddressing s.regs.pc))) ∧
    FaultsWithTarget i o (s.nextPc len) s := by
  refine ⟨fun ta hta hout => ?_, fun himm => ?_, fun f _ hta => ?_⟩
  · exact row.exec_of_error (storeBytes_eq_error.2 (.inr ⟨ta, hta, State.memWrite_eq_error.2 ⟨hout, rfl⟩⟩))
  · exact row.exec_of_error (storeBytes_eq_error.2 (.inl (targetAddress_of_isImmediate himm _ s)))
  · exact row.exec_of_error (storeBytes_eq_error.2 (.inl hta))

/-- The stored value is the register in the state before the store, which is also the state the target is resolved in
(`43_load_store.md` R136). -/
theorem IsRow.storesWord (row : IsRow m (storeBytes r 3) i o len) : StoresWord m (fun g => g.get r) i o len := by
  intro s
  refine ⟨fun ta hta hin => ⟨_, row.exec_store_of_inMemory hta hin, fun a ha => ?_, fun hm => ?_⟩, row.store_faults s⟩
  · exact Memory.read_writeBytes_of_out _ _ _ (by simpa using ha)
  · have hbyte (j : Nat) (hj : j < 3) := Memory.read_writeBytes_beBytes (s.reg r) ((inMemory_iff ta 3).1 hin) hm hj
    exact ⟨hbyte 0 (by decide), hbyte 1 (by decide), hbyte 2 (by decide)⟩

end

theorem sta_isRow : EachFormat .sta .staExt (IsRow .sta (storeBytes .a 3)) :=
  ⟨fun _ => ⟨rfl, rfl, rfl⟩, fun _ => ⟨rfl, rfl, rfl⟩⟩

theorem stl_isRow : EachFormat .stl .stlExt (IsRow .stl (storeBytes .l 3)) :=
  ⟨fun _ => ⟨rfl, rfl, rfl⟩, fun _ => ⟨rfl, rfl, rfl⟩⟩

theorem stx_isRow : EachFormat .stx .stxExt (IsRow .stx (storeBytes .x 3)) :=
  ⟨fun _ => ⟨rfl, rfl, rfl⟩, fun _ => ⟨rfl, rfl, rfl⟩⟩

theorem stch_isRow : EachFormat .stch .stchExt (IsRow .stch (storeBytes .a 1)) :=
  ⟨fun _ => ⟨rfl, rfl, rfl⟩, fun _ => ⟨rfl, rfl, rfl⟩⟩

end Sys2Proof.Machine

namespace Sys2Proof.Proofs

open Sys2Proof.Machine

/-- Settles O41: both rows of `STA` run the word store of A. -/
theorem staStoresLowWordOfA : Obligations.StaStoresLowWordOfA := by
  unfold Obligations.StaStoresLowWordOfA
  exact eachFormat_mono sta_isRow fun i o len row => ⟨(hasBaseOpcode_iff row.mnemonic_eq).2 rfl, row.storesWord⟩

/-- Settles O42: both rows of `STL` run the word store of L. -/
theorem stlStoresLowWordOfL : Obligations.StlStoresLowWordOfL := by
  unfold Obligations.StlStoresLowWordOfL
  exact eachFormat_mono stl_isRow fun i o len row => ⟨(hasBaseOpcode_iff row.mnemonic_eq).2 rfl, row.storesWord⟩

/-- Settles O43: both rows of `STX` run the word store of X. -/
theorem stxStoresLowWordOfX : Obligations.StxStoresLowWordOfX := by
  unfold Obligations.StxStoresLowWordOfX
  exact eachFormat_mono stx_isRow fun i o len row => ⟨(hasBaseOpcode_iff row.mnemonic_eq).2 rfl, row.storesWord⟩

/-- Settles O44: the one byte written is read back as the low byte of A, and the frame of a one-byte write is every other
address. -/
theorem stchStoresLowByteOfA : Obligations.StchStoresLowByteOfA := by
  unfold Obligations.StchStoresLowByteOfA
  refine eachFormat_mono stch_isRow fun i o len row => ⟨(hasBaseOpcode_iff row.mnemonic_eq).2 rfl, fun s => ?_⟩
  refine ⟨fun ta hta hin => ⟨_, row.exec_store_of_inMemory hta hin, fun a ha => ?_, fun hm => ?_⟩, row.store_faults s⟩
  · exact Memory.read_writeBytes_of_out _ _ _ (by rw [length_beBytes]; omega)
  · exact Memory.read_writeBytes_beBytes (k := 0) (s.reg .a) ((inMemory_iff ta 1).1 hin) hm (by decide)

end Sys2Proof.Proofs

/-! PROOFS. The statements of `44_device.md`: what the three instructions share up to the device identifier, the two
transactions on a device whose handle can be had, and `TD`, `RD`, `WD`. -/

/-! ### The identifier -/

namespace Sys2Proof.Machine

open Sys2Proof.Claims

/-- An identifier byte inside memory is the byte at the target (`44_device.md` R153). -/
theorem deviceId_of_inMemory {o : Operand} {next ta : Word} {s : State} (hta : targetAddress o next s = .ok ta)
    (hin : InMemory ta 1) : deviceId o next s = .ok (s.mem.read ta.toNat, ta) :=
  deviceId_eq_ok.2 ⟨hta, State.memByte_eq_ok.2 ⟨hin, rfl⟩⟩

/-- A handler that takes every fault of the identifier takes the faults of the target and of the identifier's read. -/
theorem IsRow.faultsWithIdentifier {m : Mnemonic} {handler : Operand → Word → State → Except Fault (State × Word)}
    {i : Instr} {o : Operand} {len : Nat} (row : IsRow m handler i o len) (s : State)
    (hfault : ∀ {next f}, deviceId o next s = .error f → handler o next s = .error f) : FaultsWithIdentifier i o len s := by
  refine ⟨fun himm => ?_, fun f _ hta => ?_, fun ta hta hout => ?_⟩
  · exact row.exec_of_error (hfault (deviceId_eq_error.2 (.inl (targetAddress_of_isImmediate himm _ s))))
  · exact row.exec_of_error (hfault (deviceId_eq_error.2 (.inl hta)))
  · exact row.exec_of_error (hfault (deviceId_eq_error.2 (.inr ⟨ta, hta, State.memByte_eq_error.2 ⟨hout, rfl⟩⟩)))

/-- `TD` faults in its identifier only: the test itself never raises `DeviceError` (`44_device.md` R150). -/
theorem testDevice_eq_error {o : Operand} {next : Word} {s : State} {f : Fault} :
    testDevice o next s = .error f ↔ deviceId o next s = .error f := by
  unfold testDevice
  cases deviceId o next s <;> simp

theorem readDevice_eq_error {o : Operand} {next : Word} {s : State} {f : Fault} :
    readDevice o next s = .error f ↔
      deviceId o next s = .error f ∨ ∃ d ta, deviceId o next s = .ok (d, ta) ∧ s.openForRead d = .error f := by
  unfold readDevice
  cases deviceId o next s with
  | error e => simp
  | ok p =>
    obtain ⟨d, ta⟩ := p
    cases hr : s.devRead d <;> simp [← State.devRead_eq_error, hr]

theorem writeDevice_eq_error {o : Operand} {next : Word} {s : State} {f : Fault} :
    writeDevice o next s = .error f ↔
      deviceId o next s = .error f ∨ ∃ d ta, deviceId o next s = .ok (d, ta) ∧ s.openForWrite d = .error f := by
  unfold writeDevice
  cases deviceId o next s with
  | error e => simp
  | ok p =>
    obtain ⟨d, ta⟩ := p
    cases hw : s.devWrite d ((s.reg .a).setWidth 8) <;> simp [← State.devWrite_eq_error (v := (s.reg .a).setWidth 8), hw]

theorem td_isRow : EachFormat .td .tdExt (IsRow .td testDevice) :=
  ⟨fun _ => ⟨rfl, rfl, rfl⟩, fun _ => ⟨rfl, rfl, rfl⟩⟩

theorem rd_isRow : EachFormat .rd .rdExt (IsRow .rd readDevice) :=
  ⟨fun _ => ⟨rfl, rfl, rfl⟩, fun _ => ⟨rfl, rfl, rfl⟩⟩

theorem wd_isRow : EachFormat .wd .wdExt (IsRow .wd writeDevice) :=
  ⟨fun _ => ⟨rfl, rfl, rfl⟩, fun _ => ⟨rfl, rfl, rfl⟩⟩

end Sys2Proof.Machine

/-! ### The transactions on a handle that is open or can be opened -/

namespace Sys2Proof.Machine

theorem State.devices_wf_of_devicesCanonical {s : State} (h : s.devicesCanonical = true) :
    Sparse.wf Device.unused 256 s.devices = true :=
  (Bool.and_eq_true_iff.1 h).1

section

variable {s : State} {d : Byte}

/-- An open handle keeps its input and cursor; one opened now starts its input (`60_exceptions.md` R188). -/
theorem State.openForRead_of_available (h : (s.device d).readOpen = true ∨ s.env.canRead d = true) :
    s.openForRead d = .ok { s.device d with
      readOpen := true
      input := if (s.device d).readOpen = true then (s.device d).input else s.env.input d
      cursor := if (s.device d).readOpen = true then (s.device d).cursor else 0 } := by
  rw [State.openForRead_eq_ok]
  cases hopen : (s.device d).readOpen with
  | true => exact .inl ⟨rfl, by simp [← hopen]⟩
  | false => exact .inr ⟨rfl, by simpa [hopen] using h, by simp⟩

/-- Both ends of `DevRead`: a byte at the cursor advances it; past the last byte the answer is 0 and it stays. -/
theorem State.devRead_of_openForRead {dev : Device} (h : s.openForRead d = .ok dev) :
    s.devRead d = .ok (dev.input.getD dev.cursor 0#8,
      { s.setDevice d { dev with cursor := if dev.cursor < dev.input.length then dev.cursor + 1 else dev.cursor } with
        env := s.env.tick }) := by
  rw [State.devRead_eq_ok]
  refine ⟨dev, h, ?_⟩
  by_cases hcur : dev.cursor < dev.input.length
  · exact .inl ⟨by simp [hcur], by rw [if_pos hcur]⟩
  · exact .inr ⟨by simpa using hcur, by simp [hcur], by rw [if_neg hcur]⟩

/-- Only opening can change what was sent before, and then only by emptying it (`60_exceptions.md` R189; log 7). -/
theorem State.exists_openForWrite_of_available (h : (s.device d).writeOpen = true ∨ s.env.canWrite d = true) :
    ∃ kept : List Byte, (kept = (s.device d).output ∨ ((s.device d).writeOpen = false ∧ kept = [])) ∧
      s.openForWrite d = .ok { s.device d with writeOpen := true, output := kept } := by
  simp only [State.openForWrite_eq_ok]
  cases hopen : (s.device d).writeOpen with
  | true => exact ⟨(s.device d).output, .inl rfl, .inl ⟨rfl, by rw [← hopen]⟩⟩
  | false =>
    have hcan : s.env.canWrite d = true := by simpa [hopen] using h
    refine ⟨_, ?_, .inr ⟨rfl, hcan, rfl⟩⟩
    cases s.env.truncates d with
    | true => exact .inr ⟨rfl, rfl⟩
    | false => exact .inl rfl

theorem State.devWrite_of_openForWrite {dev : Device} (h : s.openForWrite d = .ok dev) (v : Byte) :
    s.devWrite d v = .ok { s.setDevice d { dev with output := dev.output ++ [v] } with env := s.env.tick } :=
  State.devWrite_eq_ok.2 ⟨dev, h, rfl⟩

end

end Sys2Proof.Machine

/-! ### `TD`, `RD`, `WD` -/

namespace Sys2Proof.Proofs

open Sys2Proof.Machine

/-- Settles O47: `DevTest` answers for every device, so only the identifier can fault. -/
theorem tdSetsFlagFromReadiness : Obligations.TdSetsFlagFromReadiness := by
  unfold Obligations.TdSetsFlagFromReadiness
  refine eachFormat_mono td_isRow fun i o len row => ⟨(hasBaseOpcode_iff row.mnemonic_eq).2 rfl, fun s => ?_⟩
  refine ⟨fun ta hta hin => ⟨(s.env.dropReady (s.mem.read ta.toNat)).tick, ?_⟩,
    row.faultsWithIdentifier s testDevice_eq_error.2⟩
  exact row.exec_of_ok (testDevice_eq_ok.2 ⟨_, ta, deviceId_of_inMemory hta hin, rfl, rfl⟩)

/-- Settles O48: the device read is opened, then read at its cursor, and only its own entry of the table is replaced. -/
theorem rdReadsOneByte : Obligations.RdReadsOneByte := by
  unfold Obligations.RdReadsOneByte
  refine eachFormat_mono rd_isRow fun i o len row => ⟨(hasBaseOpcode_iff row.mnemonic_eq).2 rfl, fun s => ?_⟩
  refine ⟨fun ta hta hin => ?_, row.faultsWithIdentifier s fun h => readDevice_eq_error.2 (.inl h)⟩
  have hid := deviceId_of_inMemory hta hin
  refine ⟨fun havail => ?_, fun hclosed hcannot => ?_⟩
  · have hread := State.devRead_of_openForRead (State.openForRead_of_available havail)
    refine ⟨_, s.env.tick, ?_, fun d' hne => State.device_setDevice_of_ne s _ hne,
      fun hcanon => State.device_setDevice_self _ _ (State.devices_wf_of_devicesCanonical hcanon)⟩
    rw [← withLowByte_eq]
    exact row.exec_of_ok (readDevice_eq_ok.2 ⟨_, ta, _, _, hid, hread, rfl, rfl⟩)
  · exact row.exec_of_error
      (readDevice_eq_error.2 (.inr ⟨_, ta, hid, State.openForRead_eq_error.2 ⟨hclosed, hcannot, rfl⟩⟩))

/-- Settles O49: the output a write appends to is the one its handle was opened with, and only the entry of its device is
replaced. -/
theorem wdAppendsOneByte : Obligations.WdAppendsOneByte := by
  unfold Obligations.WdAppendsOneByte
  refine eachFormat_mono wd_isRow fun i o len row => ⟨(hasBaseOpcode_iff row.mnemonic_eq).2 rfl, fun s => ?_⟩
  refine ⟨fun ta hta hin => ?_, row.faultsWithIdentifier s fun h => writeDevice_eq_error.2 (.inl h)⟩
  have hid := deviceId_of_inMemory hta hin
  refine ⟨fun havail => ?_, fun hclosed hcannot => ?_⟩
  · obtain ⟨kept, hkept, hopen⟩ := State.exists_openForWrite_of_available havail
    have hwrite := State.devWrite_of_openForWrite hopen ((s.reg .a).setWidth 8)
    refine ⟨_, s.env.tick, row.exec_of_ok (writeDevice_eq_ok.2 ⟨_, ta, _, hid, hwrite, rfl, rfl⟩),
      fun d' hne => State.device_setDevice_of_ne s _ hne, fun hcanon => ⟨kept, hkept, ?_⟩⟩
    rw [← BitVec.setWidth_eq_extractLsb' (by decide)]
    exact State.device_setDevice_self _ _ (State.devices_wf_of_devicesCanonical hcanon)
  · exact row.exec_of_error
      (writeDevice_eq_error.2 (.inr ⟨_, ta, hid, State.openForWrite_eq_error.2 ⟨hclosed, hcannot, rfl⟩⟩))

end Sys2Proof.Proofs

/-! PROOFS. The statements of `45_register.md`: the two instructions with one register field, whose only fault is a field that
names no register. -/

/-! ### The written register, and a written PC at retire -/

namespace Sys2Proof.Machine

theorem State.reg_setReg (s : State) (r r' : Reg) (v : Word) :
    (s.setReg r v).reg r' = if r' = r then v else s.reg r' := by
  split
  · next h => rw [h, State.reg_setReg_self]
  · next h => exact State.reg_setReg_of_ne s v h

/-- Retire overwrites a PC the handler wrote, so the termination sentinel does not see it (`40_step_and_addressing.md`
R89, R90). -/
theorem State.retire_setReg_pc (s : State) (v : Word) (m : Mnemonic) (npc : Word) :
    (s.setReg .pc v).retire m npc = s.retire m npc := by
  by_cases h : npc = 0#32
  · rw [h, State.retire_zero, State.retire_zero]
    rfl
  · rw [State.retire_of_ne _ m h, State.retire_of_ne _ m h]
    rfl

theorem incrementCompare_eq_error {f : Format2} {next : Word} {s : State} {e : Fault} :
    incrementCompare f next s = .error e ↔ s.regIndex f.r1 = .error e := by
  unfold incrementCompare
  cases s.regIndex f.r1 <;> simp

theorem clearReg_eq_error {f : Format2} {next : Word} {s : State} {e : Fault} :
    clearReg f next s = .error e ↔ s.regIndex f.r1 = .error e := by
  unfold clearReg
  cases s.regIndex f.r1 <;> simp

theorem exec_clear_of_ofIndex {f : Format2} {r : Reg} (hr : Reg.ofIndex f.r1.toNat = some r) (s : State) :
    exec (.clear f) s = .next ((s.setReg r 0#32).retire .clear (s.nextPc 2)) :=
  exec_of_handler_ok (i := .clear f) (clearReg_eq_ok.2 ⟨r, State.regIndex_eq_ok.2 hr, rfl, rfl⟩)

end Sys2Proof.Machine

/-! ### `TIXR`, `CLEAR` -/

namespace Sys2Proof.Proofs

open Sys2Proof.Machine

/-- Settles O45: the compared register is read after X is written, so it is the new X when the field names X. -/
theorem tixrIncrementsAndCompares : Obligations.TixrIncrementsAndCompares := by
  unfold Obligations.TixrIncrementsAndCompares
  intro f s
  refine ⟨(hasBaseOpcode_iff (m := .tixr) rfl).2 rfl, fun r hr => ?_, fun hgt => ?_⟩
  · refine exec_of_handler_ok (i := .tixr f) (incrementCompare_eq_ok.2 ⟨r, State.regIndex_eq_ok.2 hr, rfl, ?_⟩)
    rw [State.reg_setReg]
    rfl
  · exact exec_of_handler_error (i := .tixr f) (incrementCompare_eq_error.2 (State.regIndex_of_gt hgt s))

/-- Settles O46: the new register file is the old one with one register set; where that is PC, retire overwrites it. -/
theorem clearZeroesOneRegister : Obligations.ClearZeroesOneRegister := by
  unfold Obligations.ClearZeroesOneRegister
  intro f s
  refine ⟨(hasBaseOpcode_iff (m := .clear) rfl).2 rfl, fun r hr => ?_, fun h7 => ?_, fun hgt => ?_⟩
  · exact ⟨s.regs.set r 0#32, exec_clear_of_ofIndex hr s, Regs.get_set_self _ r _,
      fun r' hne => Regs.get_set_of_ne _ _ hne⟩
  · have hpc : Reg.ofIndex f.r1.toNat = some .pc := by rw [h7]; rfl
    rw [exec_clear_of_ofIndex hpc, State.retire_setReg_pc]
  · exact exec_of_handler_error (i := .clear f) (clearReg_eq_error.2 (State.regIndex_of_gt hgt s))

end Sys2Proof.Proofs

/-! PROOFS. The statements of `60_exceptions.md`: the faults that an encoding alone decides, fault entry, the idle step, and
what `DevCloseAll` and a failed load leave. -/

/-! ### The static faults -/

namespace Sys2Proof.Machine

/-- The register fields that an instruction resolves (`60_exceptions.md` R173). -/
def regFields : Instr → List (BitVec 4)
  | .compr f => [f.r1, f.r2]
  | .clear f | .tixr f => [f.r1]
  | _ => []

/-- The flags pass the static check exactly when the operand is not immediate (`40_step_and_addressing.md` R93). -/
theorem addressPattern_iff {o : Operand} : addressPattern o.n o.i = true ↔ o.isImmediate = false := by
  unfold addressPattern Operand.isImmediate
  cases o.n <;> simp

/-- The two static checks: an instruction that needs an address has one, and every register field it resolves names a
register. -/
theorem wellFormed_iff {i : Instr} :
    i.wellFormed = true ↔
      (∀ o, addressOperand i = some o → o.isImmediate = false) ∧ ∀ r ∈ regFields i, r.toNat ≤ 8 := by
  cases i with
  | compr f | clear f | tixr f => simp [Instr.wellFormed, regFieldOk, addressOperand, regFields]
  | sta f | stl f | stx f | stch f | j f | jeq f | jlt f | jsub f | td f | rd f | wd f =>
    exact (addressPattern_iff (o := operand3 f)).trans (by simp [addressOperand, regFields])
  | staExt f | stlExt f | stxExt f | stchExt f | jExt f | jeqExt f | jltExt f | jsubExt f | tdExt f | rdExt f | wdExt f =>
    exact (addressPattern_iff (o := operand4 f)).trans (by simp [addressOperand, regFields])
  | lda f | ldaExt f | ldt f | ldtExt f | ldch f | ldchExt f | comp f | compExt f | rsub f | rsubExt f =>
    simp [Instr.wellFormed, addressOperand, regFields]

/-- A register field that names no register makes the handler fault, on the first such field it resolves. -/
theorem handler_of_regField_gt {i : Instr} {r : BitVec 4} (hr : r ∈ regFields i) (hgt : 8 < r.toNat) (next : Word)
    (s : State) : ∃ r', handlerOf i next s = .error (.outOfRangeRegister r' s.regs.pc) := by
  cases i with
  | clear f =>
    obtain rfl := List.mem_singleton.1 hr
    exact ⟨_, clearReg_eq_error.2 (State.regIndex_of_gt hgt s)⟩
  | tixr f =>
    obtain rfl := List.mem_singleton.1 hr
    exact ⟨_, incrementCompare_eq_error.2 (State.regIndex_of_gt hgt s)⟩
  | compr f =>
    rcases Nat.lt_or_ge 8 f.r1.toNat with hgt1 | hle1
    · exact ⟨_, compareRegs_eq_error.2 (.inl (State.regIndex_of_gt hgt1 s))⟩
    · obtain ⟨r1, hr1⟩ := Reg.exists_ofIndex_eq_some.2 hle1
      obtain rfl | rfl : r = f.r1 ∨ r = f.r2 := by simpa [regFields] using hr
      · exact absurd hgt (Nat.not_lt.2 hle1)
      · exact ⟨_, compareRegs_eq_error.2 (.inr ⟨r1, State.regIndex_eq_ok.2 hr1, State.regIndex_of_gt hgt s⟩)⟩
  | _ => cases hr

/-- The faults that an encoding alone can decide: `OutOfRange(register)` and `UndefinedAddressing` (`60_exceptions.md` R173,
R175). -/
def Fault.isStatic : Fault → Bool
  | .outOfRangeRegister .. | .undefinedAddressing .. => true
  | .invalidOpcode .. | .outOfRangeMemory .. | .deviceError .. => false

section

variable {o : Operand} {next : Word} {s : State} {f : Fault}

theorem targetAddress_fault_not_static (hno : o.isImmediate = false) (h : targetAddress o next s = .error f) :
    f.isStatic = false := by
  rcases targetAddress_eq_error.1 h with ⟨himm, -⟩ | ⟨-, -, -, rfl⟩
  · exact absurd himm (by simp [hno])
  · rfl

/-- An operand value has no static fault in any pattern: the immediate one is the field itself
(`40_step_and_addressing.md` R99). -/
theorem operandValue_fault_not_static {k : Nat} (h : operandValue k o next s = .error f) : f.isStatic = false := by
  obtain ⟨hno, hta | ⟨a, -, hread⟩⟩ := operandValue_eq_error.1 h
  · exact targetAddress_fault_not_static hno hta
  · obtain ⟨-, rfl⟩ := State.memRead_eq_error.1 hread
    rfl

theorem deviceId_fault_not_static (hno : o.isImmediate = false) (h : deviceId o next s = .error f) : f.isStatic = false := by
  rcases deviceId_eq_error.1 h with hta | ⟨ta, -, hread⟩
  · exact targetAddress_fault_not_static hno hta
  · obtain ⟨-, rfl⟩ := State.memByte_eq_error.1 hread
    rfl

theorem State.regIndex_ne_error {r : BitVec 4} (h : r.toNat ≤ 8) : s.regIndex r ≠ .error f := fun herr =>
  Nat.not_lt.2 h (Reg.ofIndex_eq_none.1 (State.regIndex_eq_error.1 herr).1)

end

/-- A well-formed instruction faults on memory or on a device only. -/
theorem handler_fault_not_static {i : Instr} {next : Word} {s : State} {f : Fault} (hwf : i.wellFormed = true)
    (h : handlerOf i next s = .error f) : f.isStatic = false := by
  obtain ⟨haddress, hfields⟩ := wellFormed_iff.1 hwf
  cases i with
  | lda g | ldaExt g | ldt g | ldtExt g => exact operandValue_fault_not_static (loadWord_eq_error.1 h)
  | ldch g | ldchExt g => exact operandValue_fault_not_static (loadByte_eq_error.1 h)
  | comp g | compExt g => exact operandValue_fault_not_static (compareWord_eq_error.1 h)
  | sta g | staExt g | stl g | stlExt g | stx g | stxExt g | stch g | stchExt g =>
    rcases storeBytes_eq_error.1 h with hta | ⟨ta, -, hwrite⟩
    · exact targetAddress_fault_not_static (haddress _ rfl) hta
    · obtain ⟨-, rfl⟩ := State.memWrite_eq_error.1 hwrite
      rfl
  | jeq g | jeqExt g | jlt g | jltExt g =>
    exact targetAddress_fault_not_static (haddress _ rfl) (branchIf_eq_error.1 h)
  | j g | jExt g => exact targetAddress_fault_not_static (haddress _ rfl) (jump_eq_error.1 h)
  | jsub g | jsubExt g => exact targetAddress_fault_not_static (haddress _ rfl) (call_eq_error.1 h)
  | rsub g | rsubExt g => cases h
  | td g | tdExt g => exact deviceId_fault_not_static (haddress _ rfl) (testDevice_eq_error.1 h)
  | rd g | rdExt g =>
    rcases readDevice_eq_error.1 h with hid | ⟨d, ta, -, hopen⟩
    · exact deviceId_fault_not_static (haddress _ rfl) hid
    · obtain ⟨-, -, rfl⟩ := State.openForRead_eq_error.1 hopen
      rfl
  | wd g | wdExt g =>
    rcases writeDevice_eq_error.1 h with hid | ⟨d, ta, -, hopen⟩
    · exact deviceId_fault_not_static (haddress _ rfl) hid
    · obtain ⟨-, -, rfl⟩ := State.openForWrite_eq_error.1 hopen
      rfl
  | clear g => exact absurd (clearReg_eq_error.1 h) (State.regIndex_ne_error (hfields g.r1 (by simp [regFields])))
  | tixr g => exact absurd (incrementCompare_eq_error.1 h) (State.regIndex_ne_error (hfields g.r1 (by simp [regFields])))
  | compr g =>
    rcases compareRegs_eq_error.1 h with h1 | ⟨r1, -, h2⟩
    · exact absurd h1 (State.regIndex_ne_error (hfields g.r1 (by simp [regFields])))
    · exact absurd h2 (State.regIndex_ne_error (hfields g.r2 (by simp [regFields])))

/-- A fault that stands in RUN after an instruction of a RUNNING core is its handler's. -/
theorem handler_eq_error_of_exec_faulted {i : Instr} {s t : State} {f : Fault} (hrun : s.run = .running)
    (h : exec i s = .next t) (hf : t.run = .faulted f) : handlerOf i (s.nextPc i.length) s = .error f := by
  rcases exec_cases h with ⟨f', hf', rfl⟩ | ⟨u, npc, hu, rfl⟩
  · rw [State.run_raise, RunState.faulted.injEq] at hf
    rwa [← hf]
  · rw [State.run_retire, (handler_frame hu).1, hrun] at hf
    split at hf <;> cases hf

end Sys2Proof.Machine

namespace Sys2Proof.Proofs

open Sys2Proof.Machine

/-- Settles O21: an instruction is ill-formed by its address pattern or by a register field, and either makes its handler
fault at once; in a well-formed one every fault left to the handler is one of memory or of a device. -/
theorem illFormedExactlyWhenStaticFault : Obligations.IllFormedExactlyWhenStaticFault := by
  unfold Obligations.IllFormedExactlyWhenStaticFault
  intro i s hrun
  refine ⟨fun hill => ?_, fun hwf t h pc0 r => ?_⟩
  · by_cases haddress : ∃ o, addressOperand i = some o ∧ o.isImmediate = true
    · obtain ⟨o, hi, himm⟩ := haddress
      exact .inl (exec_of_isImmediate hi himm s)
    · have hfield : ∃ r ∈ regFields i, 8 < r.toNat := by
        by_contra hnone
        refine Bool.eq_false_iff.1 hill (wellFormed_iff.2 ⟨fun o hi => ?_, fun r hr => ?_⟩)
        · exact Bool.eq_false_iff.2 fun himm => haddress ⟨o, hi, himm⟩
        · exact Nat.not_lt.1 fun hgt => hnone ⟨r, hr, hgt⟩
      obtain ⟨r, hr, hgt⟩ := hfield
      obtain ⟨r', herror⟩ := handler_of_regField_gt hr hgt (s.nextPc i.length) s
      exact .inr ⟨r', exec_of_handler_error herror⟩
  · have hnot (f : Fault) (hf : t.run = .faulted f) : f.isStatic = false :=
      handler_fault_not_static hwf (handler_eq_error_of_exec_faulted hrun h hf)
    exact ⟨fun hf => (nomatch hnot _ hf), fun hf => (nomatch hnot _ hf)⟩

end Sys2Proof.Proofs

/-! ### `DevCloseAll` -/

namespace Sys2Proof.Machine

/-- Closing twice is closing once (`60_exceptions.md` R190). -/
theorem State.closeAll_closeAll (s : State) : s.closeAll.closeAll = s.closeAll := by
  have hdevices : s.closeAll.closeAll.devices = s.closeAll.devices :=
    Sparse.map_map Device.unused Device.close_close s.devices
  exact State.ext_fields rfl rfl rfl rfl rfl rfl rfl rfl hdevices rfl

/-- A read after `DevCloseAll` opens its handle anew, at the first byte of what the environment delivers
(`60_exceptions.md` R188, R190). -/
theorem State.exists_devRead_closeAll {s : State} {d : Byte} (h : s.devicesCanonical = true)
    (hcan : s.env.canRead d = true) : ∃ t, s.closeAll.devRead d = .ok ((s.env.input d).getD 0 0#8, t) := by
  have hdevice : s.closeAll.device d = (s.device d).close := State.device_closeAll d (State.devices_wf_of_devicesCanonical h)
  have hopen : s.closeAll.openForRead d = .ok { s.closeAll.device d with
      readOpen := true, input := s.env.input d, cursor := 0 } :=
    State.openForRead_eq_ok.2 (.inr ⟨by rw [hdevice, Device.readOpen_close], hcan, rfl⟩)
  exact ⟨_, State.devRead_of_openForRead hopen⟩

end Sys2Proof.Machine

namespace Sys2Proof.Proofs

open Sys2Proof.Machine

/-- Settles O50: every device of a canonical table is read back closed with its output, and a closed device opens at its
first byte. -/
theorem closeAllReleasesEveryHandle : Obligations.CloseAllReleasesEveryHandle := by
  unfold Obligations.CloseAllReleasesEveryHandle
  intro s h
  refine ⟨s.closeAll_closeAll, rfl, fun d => ⟨State.closed_device_closeAll h d, ?_⟩,
    fun d hcan => State.exists_devRead_closeAll h hcan⟩
  rw [State.device_closeAll d (State.devices_wf_of_devicesCanonical h), Device.output_close]

end Sys2Proof.Proofs

/-! ### The idle step, fault entry and the failed load -/

namespace Sys2Proof.Machine

/-- The command on a core that is not RUNNING changes nothing and does not continue (`60_exceptions.md` R184). -/
theorem stepCommand_of_run_ne_running {s : State} (hrun : s.run ≠ .running) : stepCommand s = (s, false) := by
  rw [stepCommand_of_step (step_of_run_ne_running hrun), State.continues_eq_false.2 hrun]

/-- A failed load leaves the clean state, UNLOADED, with no byte of the program (`70_reset_and_hazards.md` R200, R210). -/
theorem load_error_cases {lines : List (List Char)} {s t : State} {e : LoadError} (h : load lines s = (.error e, t)) :
    t = State.clean [] 0#32 .unloaded s.closeAll.devices s.env.tick := by
  unfold load at h
  split at h
  · cases h
    rfl
  · cases h

end Sys2Proof.Machine

namespace Sys2Proof.Proofs

open Sys2Proof.Machine

/-- Settles O9: the idle step reports that it does not continue, so the run ends with it. -/
theorem stepIsIdleOutsideRunning : Obligations.StepIsIdleOutsideRunning := by
  unfold Obligations.StepIsIdleOutsideRunning
  intro s k hrun
  refine ⟨step_of_run_ne_running hrun, stepCommand_of_run_ne_running hrun, ?_⟩
  rw [runToCompletion, stepCommand_of_run_ne_running hrun]
  rfl

/-- Settles O15: the table of the codes, fault by fault. -/
theorem faultEntryRecordsTheFault : Obligations.FaultEntryRecordsTheFault := by
  unfold Obligations.FaultEntryRecordsTheFault
  refine ⟨fun s f => rfl, fun pc0 addr b0 d n r => ⟨rfl, rfl, rfl, rfl, rfl, ?_⟩⟩
  simp [Fault.pc0]

/-- Settles O58: the state is clean as `load` writes it out; its devices are the closed ones, and UNLOADED is idle. -/
theorem failedLoadLeavesUnloaded : Obligations.FailedLoadLeavesUnloaded := by
  unfold Obligations.FailedLoadLeavesUnloaded
  intro lines s t e hdevices h
  obtain rfl := load_error_cases h
  exact ⟨rfl, fun a => rfl, rfl, rfl, rfl, rfl, rfl, rfl, State.closed_device_closeAll hdevices,
    step_of_run_ne_running nofun⟩

end Sys2Proof.Proofs

/-! PROOFS. The statements of `70_reset_and_hazards.md`: the two passes of the loader, and what a load and a shutdown keep of
the state before them. -/

/-! ### Text records -/

namespace Sys2Proof.Machine

/-- A Text record outside memory names the placement that failed (`70_reset_and_hazards.md` R207). -/
theorem LoadState.record_text_of_not_placeable {l : LoadState} {start : Nat} {payload : List Byte}
    (h : ¬ Placeable (start + l.csLen) payload.length) :
    l.record (.text start payload) = .error (.outOfRange (start + l.csLen) payload.length) :=
  if_neg h

end Sys2Proof.Machine

namespace Sys2Proof.Proofs

open Sys2Proof.Machine

/-- Settles O59: the memory written is the `writeBytes` of the payload, whose canonical form, read-back and frame are
the laws of memory. -/
theorem textRecordPlacesItsBytes : Obligations.TextRecordPlacesItsBytes := by
  unfold Obligations.TextRecordPlacesItsBytes
  intro l start payload hm
  refine ⟨fun hin => ?_, fun hout => LoadState.record_text_of_not_placeable (Nat.not_le.2 hout)⟩
  exact ⟨_, LoadState.record_text_eq_ok.2 ⟨hin, rfl⟩, Memory.writeBytes_wf hin hm,
    fun k hk => Memory.read_writeBytes_at hin hm hk, fun a ha => Memory.read_writeBytes_of_out _ _ _ ha⟩

end Sys2Proof.Proofs

/-! ### Modify records -/

namespace Sys2Proof.Machine

/-- The relocated number is the sum or the difference as the integers have it, reduced to the field's width
(`70_reset_and_hazards.md` R208). -/
theorem cast_relocated (width value symbol : Nat) (negative : Bool) :
    (relocated width value symbol negative : Int) =
      (if negative then (value : Int) - symbol else (value : Int) + symbol) % (256 ^ width : Nat) :=
  Int.toNat_of_nonneg (Int.emod_nonneg _ (by positivity))

/-- The relocated number fits its field. -/
theorem relocated_lt (width value symbol : Nat) (negative : Bool) : relocated width value symbol negative < 256 ^ width := by
  have h : (relocated width value symbol negative : Int) < (256 ^ width : Nat) := by
    rw [cast_relocated]
    exact Int.emod_lt_of_pos _ (by positivity)
  exact Int.ofNat_lt.1 h

theorem relocated_plus (width value symbol : Nat) :
    relocated width value symbol false = (value + symbol) % 256 ^ width := by
  have h := cast_relocated width value symbol false
  simp only [Bool.false_eq_true, if_false] at h
  exact_mod_cast h

/-- Adding the symbol's address back to a field relocated by minus gives the number it held. -/
theorem relocated_minus_add (width value symbol : Nat) :
    ((relocated width value symbol true : Int) + symbol) % (256 ^ width : Nat) = (value : Int) % (256 ^ width : Nat) := by
  rw [cast_relocated, if_pos rfl, Int.emod_add_emod, sub_add_cancel]

/-- A Modify record inside memory whose symbol is defined rewrites its field (`70_reset_and_hazards.md` R208). -/
theorem PendingModify.apply_of_resolve {p : PendingModify} {symbols : SymbolTable} {addr : Nat}
    (hin : Placeable p.addr p.width) (hsymbol : symbols.resolve p.symbol = .ok addr) (m : Memory) :
    p.apply symbols m = .ok
      (m.writeBytes p.addr (beBytes p.width (relocated p.width (beNat (m.bytesAt p.addr p.width)) addr p.negative))) := by
  rw [PendingModify.apply, if_pos hin, hsymbol]

/-- A number that fits its field is read back from it. -/
theorem beNat_bytesAt_writeBytes {m : Memory} {a n v : Nat} (h : a + n ≤ Config.memSize) (hm : m.wf = true)
    (hv : v < 256 ^ n) : beNat ((m.writeBytes a (beBytes n v)).bytesAt a n) = v := by
  have hbytes := Memory.bytesAt_writeBytes (bs := beBytes n v) (by simpa using h) hm
  rw [length_beBytes] at hbytes
  rw [hbytes, beNat_beBytes, Nat.mod_eq_of_lt hv]

end Sys2Proof.Machine

namespace Sys2Proof.Proofs

open Sys2Proof.Machine

/-- Settles O60: the field reads back the relocated number, which is the sum for plus and undoes to the old number for minus;
the bytes outside are those of the frame of `apply`. -/
theorem modifyRelocatesTheField : Obligations.ModifyRelocatesTheField := by
  unfold Obligations.ModifyRelocatesTheField
  intro p symbols m addr hm (hin : Placeable p.addr p.width) hsymbol
  have happly := PendingModify.apply_of_resolve hin hsymbol m
  have hread := beNat_bytesAt_writeBytes hin hm (relocated_lt p.width (beNat (m.bytesAt p.addr p.width)) addr p.negative)
  refine ⟨_, happly, Memory.writeBytes_wf (by simpa using hin) hm, fun hplus => ?_, fun hminus => ?_, fun a ha => ?_⟩
  · rw [hread, hplus, relocated_plus]
  · rw [hread, hminus, relocated_minus_add]
  · exact PendingModify.apply_read_of_out happly ha

end Sys2Proof.Proofs

/-! ### Shutdown, and the load from any state -/

namespace Sys2Proof.Machine

/-- The shutdown reads the devices and the environment only (`70_reset_and_hazards.md` R212). -/
theorem shutdown_congr {s t : State} (hdevices : t.devices = s.devices) (henv : t.env = s.env) :
    shutdown t = shutdown s := by
  rw [shutdown, shutdown, State.devices_closeAll, State.devices_closeAll, hdevices, henv]

/-- A load whose loader fails: nothing of the state before it but the devices and the environment
(`70_reset_and_hazards.md` R200, R210). -/
theorem load_of_loadImage_error {lines : List (List Char)} {e : LoadError} (h : loadImage lines = .error e) (s : State) :
    load lines s = (.error e, State.clean [] 0#32 .unloaded s.closeAll.devices s.env.tick) := by
  rw [load, h]

/-- A load whose loader succeeds: nothing of the state before it but the devices and the environment
(`70_reset_and_hazards.md` R200, R201). -/
theorem load_of_loadImage_ok {lines : List (List Char)} {md : Metadata} {mem : Memory} (h : loadImage lines = .ok (md, mem))
    (s : State) :
    load lines s = (.ok md, State.clean mem (BitVec.ofNat 32 md.entry) .running s.closeAll.devices s.env.tick) := by
  rw [load, h]

end Sys2Proof.Machine

namespace Sys2Proof.Proofs

open Sys2Proof.Machine

/-- Settles O51: the devices left are those of `closeAll`, closed and with their outputs. -/
theorem shutdownLeavesOnlyTheEnvironment : Obligations.ShutdownLeavesOnlyTheEnvironment := by
  unfold Obligations.ShutdownLeavesOnlyTheEnvironment
  intro s t hs
  have houtput (d : Byte) : (s.closeAll.device d).output = (s.device d).output := by
    rw [State.device_closeAll d (State.devices_wf_of_devicesCanonical hs), Device.output_close]
  exact ⟨fun d => ⟨State.closed_device_closeAll hs d, houtput d⟩, shutdown_congr⟩

/-- Settles O57: the loader's answer depends on the lines alone, and around it a load leaves the clean state. -/
theorem loadIsDeterministic : Obligations.LoadIsDeterministic := by
  unfold Obligations.LoadIsDeterministic
  intro lines s s'
  cases h : loadImage lines with
  | error e =>
    rw [load_of_loadImage_error h, load_of_loadImage_error h]
    exact ⟨rfl, rfl⟩
  | ok image =>
    rw [load_of_loadImage_ok h, load_of_loadImage_ok h]
    exact ⟨rfl, rfl⟩

end Sys2Proof.Proofs

/-! PROOFS. The statements that span the chapters: the two round trips of `30_encoding.md`, the decoded instruction that a step
runs, the invariants that hold at reset, after a load and along every step, and the signed comparison of `00_scope.md`. -/

/-! ### Decoding an encoding -/

namespace Sys2Proof

/-- The nominal format and the format resolved from it and flag e (`30_encoding.md` R56). -/
theorem resolvedFormat_cases {b0 : Byte} {e : CatalogEntry} (b1 : Byte) (h : lookup b0 = some e) :
    (nominalFormat e.mnemonic = .two ∧ resolvedFormat e b1 = 2) ∨
      (nominalFormat e.mnemonic = .threeFour ∧ b1.getLsbD 4 = false ∧ resolvedFormat e b1 = 3) ∨
        (nominalFormat e.mnemonic = .threeFour ∧ b1.getLsbD 4 = true ∧ resolvedFormat e b1 = 4) := by
  rw [resolvedFormat_of_lookup b1 h]
  generalize e.mnemonic = m
  cases m with
  | compr | clear | tixr => exact .inl ⟨rfl, rfl⟩
  | _ =>
    cases b1.getLsbD 4 with
    | false => exact .inr (.inl ⟨rfl, rfl, rfl⟩)
    | true => exact .inr (.inr ⟨rfl, rfl, rfl⟩)

/-- Everything the decoder can answer with: byte 0 has a catalog entry, and the resolved format says how many bytes follow
byte 1 (`30_encoding.md` R51, R56). -/
theorem decode_eq_ok {bytes rest : List Byte} {i : Instr} :
    decode bytes = .ok (i, rest) ↔
      ∃ b0 b1 e operand, bytes = b0 :: b1 :: (operand ++ rest) ∧ lookup b0 = some e ∧
        resolvedFormat e b1 = operand.length + 2 ∧ i = assemble e.mnemonic b0 b1 operand := by
  constructor
  · intro h
    unfold decode at h
    split at h
    · cases h
    · next b0 t =>
      split at h
      · cases h
      · next e hlookup =>
        split at h
        · cases h
        · next b1 t =>
          have hformat := resolvedFormat_cases b1 hlookup
          simp only at h
          split at h
          · cases h
          · next hlen =>
            cases h
            refine ⟨b0, b1, e, t.take (resolvedFormat e b1 - 2), ?_, hlookup, ?_, rfl⟩
            · rw [List.take_append_drop]
            · rw [List.length_take]
              omega
  · rintro ⟨b0, b1, e, operand, rfl, hlookup, hlen, rfl⟩
    exact decode_of_lookup_eq_some operand rest hlookup hlen

section

variable {m : Mnemonic} {i : Instr}

/-- The encoding of a format 2 row is decoded to the instruction that is assembled from the row's fields. -/
theorem decode_encode2 {f : Format2} (hm : nominalFormat m = .two)
    (hi : ∀ b0 b1, format2Of b0 b1 = f → assemble m b0 b1 [] = i) (rest : List Byte) :
    decode (encode2 m f ++ rest) = .ok (i, rest) := by
  obtain ⟨e, hlookup, rfl, -⟩ := lookup_encode2 m f.ignored
  refine decode_eq_ok.2 ⟨_, _, e, [], rfl, hlookup, ?_, (hi _ _ (format2Of_encode _ f)).symm⟩
  rw [resolvedFormat_of_lookup _ hlookup, hm]
  rfl

/-- The encoding of a format 3 row is decoded to the instruction that is assembled from the row's fields. -/
theorem decode_encode3 {f : Format3} (hm : nominalFormat m = .threeFour)
    (hi : ∀ b0 b1 b2, b1.getLsbD 4 = false → format3Of b0 b1 b2 = f → assemble m b0 b1 [b2] = i) (rest : List Byte) :
    decode (encode3 m f ++ rest) = .ok (i, rest) := by
  obtain ⟨e, hlookup, rfl, -⟩ := lookup_encode34 m f.n f.i
  refine decode_eq_ok.2 ⟨_, _, e, [_], rfl, hlookup, ?_, (hi _ _ _ (flag_e_encode3 f) (format3Of_encode _ f)).symm⟩
  rw [resolvedFormat_of_lookup _ hlookup, hm]
  simp only [flag_e_encode3]
  rfl

/-- The encoding of a format 4 row is decoded to the instruction that is assembled from the row's fields. -/
theorem decode_encode4 {f : Format4} (hm : nominalFormat m = .threeFour)
    (hi : ∀ b0 b1 b2 b3, b1.getLsbD 4 = true → format4Of b0 b1 b2 b3 = f → assemble m b0 b1 [b2, b3] = i)
    (rest : List Byte) : decode (encode4 m f ++ rest) = .ok (i, rest) := by
  obtain ⟨e, hlookup, rfl, -⟩ := lookup_encode34 m f.n f.i
  refine decode_eq_ok.2 ⟨_, _, e, [_, _], rfl, hlookup, ?_, (hi _ _ _ _ (flag_e_encode4 f) (format4Of_encode _ f)).symm⟩
  rw [resolvedFormat_of_lookup _ hlookup, hm]
  simp only [flag_e_encode4]
  rfl

end

end Sys2Proof

namespace Sys2Proof.Proofs

/-- Settles O18: the rows of each format, whose fields are read where they were written and whose flag e gives the length
back. -/
theorem decodeOfEncodeIsIdentity : Obligations.DecodeOfEncodeIsIdentity := by
  unfold Obligations.DecodeOfEncodeIsIdentity
  intro i rest
  cases i with
  | compr f | clear f | tixr f =>
    refine decode_encode2 rfl ?_ rest
    rintro b0 b1 rfl
    rfl
  | ldaExt f | staExt f | stxExt f | stlExt f | compExt f | jeqExt f | jltExt f | jExt f | jsubExt f | rsubExt f | ldchExt f
  | stchExt f | ldtExt f | rdExt f | wdExt f | tdExt f =>
    refine decode_encode4 rfl ?_ rest
    rintro b0 b1 b2 b3 he rfl
    exact if_pos he
  | lda f | sta f | stx f | stl f | comp f | jeq f | jlt f | j f | jsub f | rsub f | ldch f | stch f | ldt f | rd f | wd f
  | td f =>
    refine decode_encode3 rfl ?_ rest
    rintro b0 b1 b2 he rfl
    exact if_neg (Bool.eq_false_iff.1 he)

end Sys2Proof.Proofs

/-! ### Encoding a decoding -/

namespace Sys2Proof

/-! The bytes of the three formats are the bytes their fields were read from. -/

/-- A catalogued byte 0 holds the opcode bits of its mnemonic (`30_encoding.md` R57). -/
theorem opcodeBits_of_lookup {b0 : Byte} {e : CatalogEntry} (h : lookup b0 = some e) :
    opcodeBits e.mnemonic = b0.extractLsb' 2 6 := by
  have hbase : e.base = b0 &&& 0xFC#8 := by simpa using List.find?_some h
  have hall : ∀ e ∈ catalog, opcodeBits e.mnemonic = e.base.extractLsb' 2 6 := by decide
  have hmask : (0xFC#8).extractLsb' 2 6 = BitVec.allOnes 6 := rfl
  rw [hall e (List.mem_of_find?_eq_some h), hbase, BitVec.extractLsb'_and, hmask, BitVec.and_allOnes]

/-- One bit as a bit string of its own. -/
theorem ofBool_getLsbD {w : Nat} (b : BitVec w) (k : Nat) : BitVec.ofBool (b.getLsbD k) = b.extractLsb' k 1 := by
  apply BitVec.eq_of_getLsbD_eq
  intro j hj
  obtain rfl : j = 0 := by omega
  simp

/-- A bit put below the bits above it. -/
theorem extractLsb'_append_bit {w : Nat} (b : BitVec w) (k n : Nat) :
    b.extractLsb' (k + 1) n ++ BitVec.ofBool (b.getLsbD k) = b.extractLsb' k (n + 1) := by
  rw [ofBool_getLsbD]
  exact BitVec.extractLsb'_append_extractLsb'_eq_extractLsb' rfl

/-- Byte 0 of formats 3 and 4, put together again from its opcode bits and flags. -/
theorem byte0_parts (b : Byte) :
    (b.extractLsb' 2 6 ++ BitVec.ofBool (b.getLsbD 1) ++ BitVec.ofBool (b.getLsbD 0) : BitVec 8) = b := by
  rw [extractLsb'_append_bit b 1 6]
  exact (extractLsb'_append_bit b 0 7).trans BitVec.extractLsb'_eq_self

/-- Byte 1 of formats 3 and 4, put together again from its flags and the high bits of the field. -/
theorem byte1_parts (b : Byte) :
    (BitVec.ofBool (b.getLsbD 7) ++ BitVec.ofBool (b.getLsbD 6) ++ BitVec.ofBool (b.getLsbD 5) ++
      BitVec.ofBool (b.getLsbD 4) ++ b.extractLsb' 0 4 : BitVec 8) = b := by
  rw [ofBool_getLsbD b 7, extractLsb'_append_bit b 6 1, extractLsb'_append_bit b 5 2, extractLsb'_append_bit b 4 3]
  exact BitVec.extractLsb'_append_extractLsb' (w := 4) (len := 4)

section

variable {m : Mnemonic} {b0 b1 : Byte}

theorem encode2_format2Of (hop : opcodeBits m = b0.extractLsb' 2 6) : encode2 m (format2Of b0 b1) = [b0, b1] := by
  simp only [encode2, format2Of, hop, BitVec.extractLsb'_append_extractLsb']

theorem encode3_format3Of (hop : opcodeBits m = b0.extractLsb' 2 6) (he : b1.getLsbD 4 = false) (b2 : Byte) :
    encode3 m (format3Of b0 b1 b2) = [b0, b1, b2] := by
  have hzero : 0#1 = BitVec.ofBool (b1.getLsbD 4) := by rw [he]; rfl
  simp only [encode3, format3Of, hop, hzero, byte0_parts, BitVec.extractLsb'_append_eq_left,
    BitVec.extractLsb'_append_eq_right, byte1_parts]

theorem encode4_format4Of (hop : opcodeBits m = b0.extractLsb' 2 6) (he : b1.getLsbD 4 = true) (b2 b3 : Byte) :
    encode4 m (format4Of b0 b1 b2 b3) = [b0, b1, b2, b3] := by
  have hone : 1#1 = BitVec.ofBool (b1.getLsbD 4) := by rw [he]; rfl
  have hhigh : (b1.extractLsb' 0 4 ++ b2 ++ b3).extractLsb' 16 4 = b1.extractLsb' 0 4 := by
    rw [BitVec.extractLsb'_append_eq_of_le (by decide)]
    exact BitVec.extractLsb'_append_eq_left
  have hmiddle : (b1.extractLsb' 0 4 ++ b2 ++ b3).extractLsb' 8 8 = b2 := by
    rw [BitVec.extractLsb'_append_eq_of_le le_rfl]
    exact BitVec.extractLsb'_append_eq_right
  simp only [encode4, format4Of, hop, hone, byte0_parts, hhigh, byte1_parts, hmiddle, BitVec.extractLsb'_append_eq_right]

/-! An assembled instruction is encoded in the format of its row. -/

theorem encode_assemble_two (hm : nominalFormat m = .two) (operand : List Byte) :
    encode (assemble m b0 b1 operand) = encode2 m (format2Of b0 b1) := by
  cases m with
  | compr | clear | tixr => rfl
  | _ => cases hm

theorem encode_assemble_three (hm : nominalFormat m = .threeFour) (he : b1.getLsbD 4 = false) (operand : List Byte) :
    encode (assemble m b0 b1 operand) = encode3 m (format3Of b0 b1 (operand.getD 0 0#8)) := by
  cases m with
  | compr | clear | tixr => cases hm
  | _ => exact congrArg encode (if_neg (Bool.eq_false_iff.1 he))

theorem encode_assemble_four (hm : nominalFormat m = .threeFour) (he : b1.getLsbD 4 = true) (operand : List Byte) :
    encode (assemble m b0 b1 operand) = encode4 m (format4Of b0 b1 (operand.getD 0 0#8) (operand.getD 1 0#8)) := by
  cases m with
  | compr | clear | tixr => cases hm
  | _ => exact congrArg encode (if_pos he)

end

/-- What is assembled from bytes of the resolved format is encoded in those bytes. -/
theorem encode_assemble {b0 b1 : Byte} {e : CatalogEntry} {operand : List Byte} (hlookup : lookup b0 = some e)
    (hlen : resolvedFormat e b1 = operand.length + 2) : encode (assemble e.mnemonic b0 b1 operand) = b0 :: b1 :: operand := by
  have hop := opcodeBits_of_lookup hlookup
  obtain ⟨hm, hformat⟩ | ⟨hm, he, hformat⟩ | ⟨hm, he, hformat⟩ := resolvedFormat_cases b1 hlookup
  · obtain rfl : operand = [] := List.length_eq_zero_iff.1 (by omega)
    rw [encode_assemble_two hm, encode2_format2Of hop]
  · obtain ⟨b2, rfl⟩ : ∃ b2, operand = [b2] := List.length_eq_one_iff.1 (by omega)
    rw [encode_assemble_three hm he]
    exact encode3_format3Of hop he b2
  · obtain ⟨b2, b3, rfl⟩ : ∃ b2 b3, operand = [b2, b3] := List.length_eq_two.1 (by omega)
    rw [encode_assemble_four hm he]
    exact encode4_format4Of hop he b2 b3

end Sys2Proof

namespace Sys2Proof.Proofs

/-- Settles O19: the decoder assembles the instruction from bytes of the resolved format, and its encoding is those bytes. -/
theorem encodeOfDecodeIsIdentity : Obligations.EncodeOfDecodeIsIdentity := by
  unfold Obligations.EncodeOfDecodeIsIdentity
  intro bytes i rest h
  obtain ⟨b0, b1, e, operand, rfl, hlookup, hlen, rfl⟩ := decode_eq_ok.1 h
  rw [encode_assemble hlookup hlen]
  rfl

end Sys2Proof.Proofs

/-! ### The decoded instruction that a step runs -/

namespace Sys2Proof.Machine

/-- A read of bytes in two parts. -/
theorem Memory.bytesAt_add (m : Memory) (a k n : Nat) : m.bytesAt a (k + n) = m.bytesAt a k ++ m.bytesAt (a + k) n := by
  induction k generalizing a with
  | zero => simp [Memory.bytesAt]
  | succ k ih =>
    rw [Nat.succ_add, Memory.bytesAt, Memory.bytesAt, ih, List.cons_append, Nat.add_assoc, Nat.add_comm 1 k]

/-- A window that holds bytes is the memory at PC, which lies inside memory as far as the window goes. -/
theorem State.window_eq {s : State} {bytes : List Byte} (h : s.window = bytes) (hne : bytes ≠ []) :
    InMemory s.regs.pc bytes.length ∧ s.mem.bytesAt s.regs.pc.toNat bytes.length = bytes := by
  unfold State.window at h
  split at h
  · next hin =>
    have hlen := congrArg List.length h
    rw [Memory.length_bytesAt] at hlen
    rw [inMemory_iff] at hin ⊢
    exact ⟨by omega, hlen ▸ h⟩
  · exact absurd h.symm hne

/-- The fetch of a window that decodes gives the decoded instruction (`40_step_and_addressing.md` R81 to R86). -/
theorem fetch_of_decode_window {s : State} {i : Instr} {rest : List Byte} (h : decode s.window = .ok (i, rest)) :
    fetch s = .ok i := by
  obtain ⟨b0, b1, e, operand, hwindow, hlookup, hformat, rfl⟩ := decode_eq_ok.1 h
  obtain ⟨hin, hbytes⟩ := State.window_eq hwindow (List.cons_ne_nil _ _)
  have hend : s.regs.pc.toNat + (operand.length + rest.length + 1 + 1) ≤ Config.memSize := by
    simpa using (inMemory_iff _ _).1 hin
  have hpc1 : (s.regs.pc + 1#32).toNat = s.regs.pc.toNat + 1 := toNat_add_of_inMemory hin (by decide)
  have hpc2 : (s.regs.pc + 2#32).toNat = s.regs.pc.toNat + 2 := toNat_add_of_inMemory hin (by decide)
  simp only [List.length_cons, Memory.bytesAt, List.cons.injEq] at hbytes
  obtain ⟨h0, h1, htail⟩ := hbytes
  rw [List.length_append, Memory.bytesAt_add] at htail
  obtain ⟨hoperand, -⟩ := List.append_inj htail (Memory.length_bytesAt _ _ _)
  have hin0 : InMemory s.regs.pc 1 := (inMemory_iff _ _).2 (by omega)
  have hin1 : InMemory (s.regs.pc + 1#32) 1 := (inMemory_iff _ _).2 (by omega)
  have hin2 : InMemory (s.regs.pc + 2#32) operand.length := (inMemory_iff _ _).2 (by omega)
  have hrest : fetchRest s (operand.length + 2) = .ok operand := by
    rw [fetchRest_eq_ok, Nat.add_sub_cancel, hpc2]
    rcases Nat.eq_zero_or_pos operand.length with hzero | hpos
    · exact .inl ⟨by omega, List.length_eq_zero_iff.1 hzero⟩
    · exact .inr ⟨by omega, hin2, hoperand⟩
  rw [← hpc1] at h1
  rw [fetch_eq_ok, h0, h1]
  exact ⟨e, operand, hin0, hlookup, hin1, by rw [hformat, hrest], rfl⟩

end Sys2Proof.Machine

namespace Sys2Proof.Proofs

open Sys2Proof.Machine

/-- Settles O7: the fetch reads the bytes the decoder reads, and `step` runs what was fetched. -/
theorem stepRunsDecodedInstruction : Obligations.StepRunsDecodedInstruction := by
  unfold Obligations.StepRunsDecodedInstruction
  intro s i rest hrun h
  exact step_of_fetch_ok hrun (fetch_of_decode_window h)

/-- Settles O8: a fetch that faults is raised, what is fetched is settled, and outside RUNNING the step is idle. -/
theorem everyStepAnswersNext : Obligations.EveryStepAnswersNext := by
  unfold Obligations.EveryStepAnswersNext
  exact exists_step_eq_next

end Sys2Proof.Proofs

/-! ### The invariants, along a step -/

namespace Sys2Proof.Machine

/-- Everything a step can leave: the same state outside RUNNING, a fault of the instruction at PC taken, or a handler's
result retired. -/
theorem step_next_cases {s t : State} (h : step s = .next t) :
    (s.run ≠ .running ∧ t = s) ∨ (∃ f : Fault, f.pc0 = s.regs.pc ∧ t = s.raise f) ∨
      ∃ i u npc, s.run = .running ∧ handlerOf i (s.nextPc i.length) s = .ok (u, npc) ∧ t = u.retire i.mnemonic npc := by
  obtain hidle | ⟨hrun, ⟨f, hf, rfl⟩ | ⟨i, -, hexec⟩⟩ := step_cases h
  · exact .inl hidle
  · exact .inr (.inl ⟨f, fetch_fault_pc0 hf, rfl⟩)
  · obtain ⟨f, hf, rfl⟩ | ⟨u, npc, hu, rfl⟩ := exec_cases hexec
    · exact .inr (.inl ⟨f, (handler_fault hf).pc0_eq, rfl⟩)
    · exact .inr (.inr ⟨i, u, npc, hrun, hu, rfl⟩)

/-! #### Memory -/

/-- The stores write inside memory, and no other handler writes it. -/
theorem handler_keeps_memory_wf {i : Instr} {next npc : Word} {s u : State} (h : handlerOf i next s = .ok (u, npc))
    (hs : s.mem.wf = true) : u.mem.wf = true := by
  cases i with
  | sta g | staExt g | stl g | stlExt g | stx g | stxExt g | stch g | stchExt g =>
    obtain ⟨ta, w, -, hw, rfl, -⟩ := storeBytes_eq_ok.1 h
    rw [State.mem_noteTarget]
    exact State.memWrite_keeps_wf hw hs
  | _ g =>
    have hmem : u.mem = s.mem := (handler_changesAsTabled h).mem.resolve_right (by simp [Instr.mnemonic])
    rwa [hmem]

/-! #### Devices -/

/-- What is read from sparse data is the default or listed. -/
theorem Sparse.get_eq_dflt_or_mem {α : Type} (dflt : α) (m : List (Nat × α)) (k : Nat) :
    Sparse.get dflt m k = dflt ∨ (k, Sparse.get dflt m k) ∈ m := by
  induction m with
  | nil => exact .inl rfl
  | cons e m ih =>
    obtain ⟨j, v⟩ := e
    rw [Sparse.get_cons]
    split
    · next hj => exact .inr (hj ▸ List.mem_cons_self)
    · exact ih.imp_right (List.mem_cons_of_mem _)

theorem State.devicesCanonical_iff {s : State} :
    s.devicesCanonical = true ↔
      Sparse.wf Device.unused 256 s.devices = true ∧ ∀ e ∈ s.devices, e.2.consistent = true := by
  rw [State.devicesCanonical, Bool.and_eq_true, List.all_eq_true]

/-- A device is consistent when its cursor is inside its input or at its end, and a closed read handle has no input
(`60_exceptions.md` R188). -/
theorem Device.consistent_iff {d : Device} :
    d.consistent = true ↔ d.cursor ≤ d.input.length ∧ (d.readOpen = true ∨ d.input = []) := by
  simp [Device.consistent]

theorem Device.consistent_close (d : Device) : d.close.consistent = true := rfl

/-- Every device of a canonical table is consistent, listed or not. -/
theorem State.consistent_device {s : State} (h : s.devicesCanonical = true) (d : Byte) :
    (s.device d).consistent = true := by
  rcases Sparse.get_eq_dflt_or_mem Device.unused s.devices d.toNat with hunused | hmem
  · rw [State.device, hunused]
    rfl
  · exact (State.devicesCanonical_iff.1 h).2 _ hmem

/-- The canonical form is one of the device table alone. -/
theorem State.devicesCanonical_congr {s t : State} (h : t.devices = s.devices) :
    t.devicesCanonical = s.devicesCanonical := by
  rw [State.devicesCanonical, State.devicesCanonical, h]

theorem State.setDevice_keeps_devicesCanonical {s : State} (hs : s.devicesCanonical = true) (d : Byte) {dev : Device}
    (hdev : dev.consistent = true) : (s.setDevice d dev).devicesCanonical = true := by
  obtain ⟨hwf, hall⟩ := State.devicesCanonical_iff.1 hs
  refine State.devicesCanonical_iff.2 ⟨State.setDevice_keeps_wf d dev hwf, fun e he => ?_⟩
  rcases Sparse.mem_set Device.unused he with he | ⟨rfl, -⟩
  · exact hall e he
  · exact hdev

theorem State.closeAll_keeps_devicesCanonical {s : State} (hs : s.devicesCanonical = true) :
    s.closeAll.devicesCanonical = true := by
  obtain ⟨hwf, -⟩ := State.devicesCanonical_iff.1 hs
  refine State.devicesCanonical_iff.2 ⟨State.closeAll_keeps_wf hwf, fun e he => ?_⟩
  obtain ⟨d, hd⟩ := State.closed_of_mem_closeAll he
  rw [hd, Device.consistent_close]

/-- An input starts at its first byte, and the cursor moves over one byte at a time (`60_exceptions.md` R188). -/
theorem State.devRead_keeps_devicesCanonical {s t : State} {d v : Byte} (hs : s.devicesCanonical = true)
    (h : s.devRead d = .ok (v, t)) : t.devicesCanonical = true := by
  obtain ⟨dev, hopen, hread⟩ := State.devRead_eq_ok.1 h
  have hdev : dev.readOpen = true ∧ dev.cursor ≤ dev.input.length := by
    obtain ⟨hr, rfl⟩ | ⟨-, -, rfl⟩ := State.openForRead_eq_ok.1 hopen
    · exact ⟨hr, (Device.consistent_iff.1 (State.consistent_device hs d)).1⟩
    · exact ⟨rfl, Nat.zero_le _⟩
  obtain ⟨hr, hcursor⟩ := hdev
  obtain ⟨hbyte, rfl⟩ | ⟨-, -, rfl⟩ := hread
  · obtain ⟨hlt, -⟩ := List.getElem?_eq_some_iff.1 hbyte
    exact State.setDevice_keeps_devicesCanonical hs d (Device.consistent_iff.2 ⟨hlt, .inl hr⟩)
  · exact State.setDevice_keeps_devicesCanonical hs d (Device.consistent_iff.2 ⟨hcursor, .inl hr⟩)

/-- Writing leaves the read side of a device alone (`60_exceptions.md` R189). -/
theorem State.devWrite_keeps_devicesCanonical {s t : State} {d v : Byte} (hs : s.devicesCanonical = true)
    (h : s.devWrite d v = .ok t) : t.devicesCanonical = true := by
  obtain ⟨dev, hopen, rfl⟩ := State.devWrite_eq_ok.1 h
  have hdev : dev.consistent = true := by
    obtain ⟨-, rfl⟩ | ⟨-, -, rfl⟩ := State.openForWrite_eq_ok.1 hopen <;> exact State.consistent_device hs d
  exact State.setDevice_keeps_devicesCanonical hs d hdev

/-- Only `RD` and `WD` change the device table (`60_exceptions.md` R187 to R189). -/
theorem handler_keeps_devicesCanonical {i : Instr} {next npc : Word} {s u : State}
    (h : handlerOf i next s = .ok (u, npc)) (hs : s.devicesCanonical = true) : u.devicesCanonical = true := by
  cases i with
  | rd g | rdExt g =>
    obtain ⟨d, ta, v, w, -, hread, -, rfl⟩ := readDevice_eq_ok.1 h
    have hw : w.devicesCanonical = true := State.devRead_keeps_devicesCanonical hs hread
    exact hw
  | wd g | wdExt g =>
    obtain ⟨d, ta, w, -, hwrite, -, rfl⟩ := writeDevice_eq_ok.1 h
    have hw : w.devicesCanonical = true := State.devWrite_keeps_devicesCanonical hs hwrite
    exact hw
  | td g | tdExt g =>
    obtain ⟨d, ta, -, -, rfl⟩ := testDevice_eq_ok.1 h
    exact hs
  | lda g | ldaExt g | ldt g | ldtExt g =>
    obtain ⟨v, ta, -, rfl, -⟩ := loadWord_eq_ok.1 h
    rwa [State.devicesCanonical_congr (State.devices_noteTarget _ ta)]
  | ldch g | ldchExt g =>
    obtain ⟨v, ta, -, rfl, -⟩ := loadByte_eq_ok.1 h
    rwa [State.devicesCanonical_congr (State.devices_noteTarget _ ta)]
  | comp g | compExt g =>
    obtain ⟨v, ta, -, rfl, -⟩ := compareWord_eq_ok.1 h
    rwa [State.devicesCanonical_congr (State.devices_noteTarget _ ta)]
  | sta g | staExt g | stl g | stlExt g | stx g | stxExt g | stch g | stchExt g =>
    obtain ⟨ta, w, -, hw, rfl, -⟩ := storeBytes_eq_ok.1 h
    obtain ⟨-, rfl⟩ := State.memWrite_eq_ok.1 hw
    exact hs
  | compr g =>
    obtain ⟨r1, r2, -, -, rfl, -⟩ := compareRegs_eq_ok.1 h
    exact hs
  | clear g =>
    obtain ⟨r, -, rfl, -⟩ := clearReg_eq_ok.1 h
    exact hs
  | tixr g =>
    obtain ⟨r, -, -, rfl⟩ := incrementCompare_eq_ok.1 h
    exact hs
  | jeq g | jeqExt g | jlt g | jltExt g =>
    obtain ⟨ta, -, rfl, -⟩ := branchIf_eq_ok.1 h
    exact hs
  | j g | jExt g =>
    obtain ⟨ta, -, rfl, -⟩ := jump_eq_ok.1 h
    exact hs
  | jsub g | jsubExt g =>
    obtain ⟨ta, -, rfl, -⟩ := call_eq_ok.1 h
    exact hs
  | rsub g | rsubExt g =>
    obtain ⟨rfl, -⟩ := returnThroughL_eq_ok (next := next).1 h
    exact hs

/-- Retiring changes the device table at the sentinel only, where it closes every device (R90). -/
theorem State.retire_keeps_devicesCanonical {s : State} (hs : s.devicesCanonical = true) (m : Mnemonic) (npc : Word) :
    (s.retire m npc).devicesCanonical = true := by
  by_cases hpc : npc = 0#32
  · have hdevices : (s.retire m npc).devices = s.closeAll.devices := by rw [State.devices_retire, if_pos hpc]
    rw [State.devicesCanonical_congr hdevices]
    exact State.closeAll_keeps_devicesCanonical hs
  · have hdevices : (s.retire m npc).devices = s.devices := by rw [State.devices_retire, if_neg hpc]
    rwa [State.devicesCanonical_congr hdevices]

/-! #### RUN -/

theorem State.runConsistent_of_running {s : State} (hrun : s.run = .running) :
    s.runConsistent = true ↔ s.log = [] ∨ s.regs.pc ≠ 0#32 := by
  simp [State.runConsistent, hrun]

theorem State.runConsistent_of_halted {s : State} (hrun : s.run = .halted) :
    s.runConsistent = true ↔ s.regs.pc = 0#32 ∧ ∀ e ∈ s.devices, e.2.closed = true := by
  rw [State.runConsistent, hrun]
  simp only [Bool.and_eq_true, decide_eq_true_eq, List.all_eq_true]

theorem State.runConsistent_raise {s : State} {f : Fault} (hf : f.pc0 = s.regs.pc) : (s.raise f).runConsistent = true :=
  decide_eq_true hf

/-- A core that retires while RUNNING halts exactly at 0 (`40_step_and_addressing.md` R90). -/
theorem State.runConsistent_retire {s : State} (hrun : s.run = .running) (m : Mnemonic) (npc : Word) :
    (s.retire m npc).runConsistent = true := by
  by_cases hpc : npc = 0#32
  · subst hpc
    have hhalted : (s.retire m 0#32).run = .halted := by simp
    exact (State.runConsistent_of_halted hhalted).2
      ⟨by simp, fun e he => State.closed_of_mem_devices_retire_zero he⟩
  · have hrunning : (s.retire m npc).run = .running := by rw [State.run_retire, if_neg hpc, hrun]
    exact (State.runConsistent_of_running hrunning).2 (.inr (by simpa using hpc))

end Sys2Proof.Machine

namespace Sys2Proof.Proofs

open Sys2Proof.Machine

/-- Settles O3: a store is checked against the end of memory before it writes. -/
theorem stepKeepsMemoryCanonical : Obligations.StepKeepsMemoryCanonical := by
  unfold Obligations.StepKeepsMemoryCanonical
  intro s t hs h
  obtain ⟨-, rfl⟩ | ⟨f, -, rfl⟩ | ⟨i, u, npc, -, hu, rfl⟩ := step_next_cases h
  · exact hs
  · exact hs
  · have hmem : u.mem.wf = true := handler_keeps_memory_wf hu hs
    rwa [State.memoryCanonical, State.mem_retire]

/-- Settles O4: the device transactions and the closing at the sentinel keep the table, and nothing else changes it. -/
theorem stepKeepsDevicesCanonical : Obligations.StepKeepsDevicesCanonical := by
  unfold Obligations.StepKeepsDevicesCanonical
  intro s t hs h
  obtain ⟨-, rfl⟩ | ⟨f, -, rfl⟩ | ⟨i, u, npc, -, hu, rfl⟩ := step_next_cases h
  · exact hs
  · exact hs
  · exact State.retire_keeps_devicesCanonical (handler_keeps_devicesCanonical hu hs) _ npc

/-- Settles O5: a fault names the instruction at PC, and a handler leaves RUN to the retire stage. -/
theorem stepKeepsRunConsistent : Obligations.StepKeepsRunConsistent := by
  unfold Obligations.StepKeepsRunConsistent
  intro s t hs h
  obtain ⟨-, rfl⟩ | ⟨f, hf, rfl⟩ | ⟨i, u, npc, hrun, hu, rfl⟩ := step_next_cases h
  · exact hs
  · exact State.runConsistent_raise hf
  · obtain ⟨hurun, -, -⟩ := handler_frame hu
    exact State.runConsistent_retire (hurun.trans hrun) _ npc

end Sys2Proof.Proofs

/-! ### The invariants, at reset and after a load -/

namespace Sys2Proof.Machine

/-- Both passes write inside memory only (`70_reset_and_hazards.md` R207). -/
theorem ReadsRecords.keeps_memory_wf {l l' : LoadState} {rs : List Record} (h : ReadsRecords l rs l')
    (hl : l.mem.wf = true) : l'.mem.wf = true := by
  induction h with
  | nil l => exact hl
  | @cons l l₁ l' r rs hr hrs ih =>
    refine ih ?_
    cases r with
    | header name start length =>
      obtain ⟨symbols, -, rfl⟩ := LoadState.record_header_eq_ok.1 hr
      exact hl
    | define pairs =>
      obtain ⟨symbols, -, rfl⟩ := LoadState.record_define_eq_ok.1 hr
      exact hl
    | text start payload =>
      obtain ⟨hplace, rfl⟩ := LoadState.record_text_eq_ok.1 hr
      exact Memory.writeBytes_wf hplace hl
    | modify addr digits negative symbol =>
      obtain rfl := LoadState.record_modify_eq_ok.1 hr
      exact hl
    | endRecord address =>
      obtain rfl := LoadState.record_endRecord_eq_ok.1 hr
      exact hl

theorem PendingModify.apply_keeps_memory_wf {p : PendingModify} {symbols : SymbolTable} {m m' : Memory}
    (h : p.apply symbols m = .ok m') (hm : m.wf = true) : m'.wf = true := by
  unfold PendingModify.apply at h
  split at h
  · next hplace =>
    split at h
    · cases h
    · cases h
      exact Memory.writeBytes_wf (by rwa [length_beBytes]) hm
  · cases h

theorem modifyPass_keeps_memory_wf {symbols : SymbolTable} {ps : List PendingModify} {m m' : Memory}
    (h : modifyPass symbols ps m = .ok m') (hm : m.wf = true) : m'.wf = true := by
  induction ps generalizing m with
  | nil =>
    cases h
    exact hm
  | cons p ps ih =>
    rw [modifyPass] at h
    cases hp : p.apply symbols m with
    | error e => simp [hp] at h
    | ok m₁ =>
      rw [hp] at h
      exact ih h (PendingModify.apply_keeps_memory_wf hp hm)

theorem loadImage_memory_wf {lines : List (List Char)} {md : Metadata} {mem : Memory}
    (h : loadImage lines = .ok (md, mem)) : mem.wf = true := by
  obtain ⟨l, hreads, hmodify, -, -⟩ := loadImage_ok_cases h
  exact modifyPass_keeps_memory_wf hmodify (hreads.keeps_memory_wf rfl)

/-- A clean RUNNING state has an empty LOG, so RUN agrees with any entry (`70_reset_and_hazards.md` R215). -/
theorem State.runConsistent_clean (mem : Memory) (entry : Word) (devices : List (Nat × Device)) (env : DevEnv) :
    (State.clean mem entry .running devices env).runConsistent = true := rfl

/-- A clean state holds 0 in every register with a range. -/
theorem State.registersReachable_clean (mem : Memory) (entry : Word) (run : RunState) (devices : List (Nat × Device))
    (env : DevEnv) : (State.clean mem entry run devices env).registersReachable = true := rfl

end Sys2Proof.Machine

namespace Sys2Proof.Proofs

open Sys2Proof.Machine

/-- Settles O56: both passes write inside memory, the devices are those of `closeAll`, and the rest is clean. -/
theorem loadMeetsTheInvariants : Obligations.LoadMeetsTheInvariants := by
  unfold Obligations.LoadMeetsTheInvariants
  intro lines s t md hs h
  obtain ⟨mem, himage, rfl⟩ := load_ok_cases h
  exact ⟨loadImage_memory_wf himage, State.closeAll_keeps_devicesCanonical hs, State.runConsistent_clean _ _ _ _,
    State.registersReachable_clean _ _ _ _ _⟩

/-- Settles O2: the empty memory and device table are canonical, and the rest is clean. -/
theorem resetMeetsTheInvariants : Obligations.ResetMeetsTheInvariants := by
  unfold Obligations.ResetMeetsTheInvariants
  exact ⟨Memory.wf_reset, State.devicesCanonical_iff.2 ⟨Sparse.wf_nil _ _, List.forall_mem_nil _⟩,
    State.runConsistent_clean _ _ _ _, State.registersReachable_clean _ _ _ _ _⟩

/-- Settles O1: each element as `State.clean` writes it; nothing is listed in memory or among the devices. -/
theorem resetHoldsTheCleanState : Obligations.ResetHoldsTheCleanState := by
  unfold Obligations.ResetHoldsTheCleanState
  exact ⟨rfl, rfl, rfl, rfl, rfl, rfl, rfl, rfl, BitVec.toNat_ofNatLT _ _, fun a => Sparse.get_nil _ a, rfl, rfl, rfl, rfl,
    fun d => congrArg Device.closed (Sparse.get_nil _ d.toNat)⟩

end Sys2Proof.Proofs

/-! ### The signed comparison -/

namespace Sys2Proof.Proofs

open Sys2Proof.Machine

/-- Settles O30: words are equal exactly when their signed readings are, so the three cases follow the order of the
integers. -/
theorem compareIsSigned : Obligations.CompareIsSigned := by
  unfold Obligations.CompareIsSigned
  intro a b
  have heq : a = b ↔ a.toInt = b.toInt := BitVec.toInt_inj.symm
  unfold compareSigned
  rw [if_congr heq rfl rfl]
  rcases lt_trichotomy a.toInt b.toInt with hlt | he | hgt
  · simp [hlt, hlt.ne, hlt.le]
  · simp [he]
  · simp [hgt, hgt.ne', not_lt_of_gt hgt]

end Sys2Proof.Proofs
